-- ==== Sys2Proof/Word.lean ====
section
/-!
DEFINITION. The word types of IMDCT-RBE (00_scope.md R7, R10): every register is 32 bits, a binary32 or binary64
value is its bit pattern, and the data RAM is byte-addressed.
-/

namespace Sys2Proof

/-- One byte of the data RAM. -/
abbrev Byte := BitVec 8

/-- A 32-bit register value, an unsigned integer where an index or an address is computed (00_scope.md R7, R9). -/
abbrev Word := BitVec 32

/-- A binary32 value, always its bit pattern (00_scope.md R10). -/
abbrev F32 := BitVec 32

/-- A binary64 value, always its bit pattern (00_scope.md R10). -/
abbrev F64 := BitVec 64

end Sys2Proof
end

