-- ==== Sys2Proof/Config.lean ====
section
/-!
DEFINITION. What is fixed for one machine (00_scope.md R6) and the free values the spec leaves unspecified
(20_memory.md R54, R58; 70_reset_and_hazards.md R135; 93_implementation_defined.md U7 to U10).
-/

namespace Sys2Proof

/-- The three parameters a model takes (00_scope.md R6). They stand in the state as fixed data, so that a statement
about every state is a statement about every size of the RAM and every base address; no step changes them. -/
structure Config where
  /-- `MEM_BYTES`, the size in bytes of the data RAM. -/
  memBytes : Nat
  /-- `ENGINE_BASE`, the host address at which the engine's aperture starts. -/
  engineBase : Nat
  /-- `IRQ_LINE`, the host interrupt input that the `irq` output drives. -/
  irqLine : Nat
deriving DecidableEq, Repr

/-- The free draw number `draw` of the RAM byte at `addr`: a byte the spec calls unspecified ("a free draw").
It has no value that Lean can know, so a statement about it holds for every value. -/
opaque Config.freeByte (draw addr : Nat) : Byte

/-- The machine of the test vectors: `MEM_BYTES` at the spec's reference value 65536 (00_scope.md R6,
95_test_vectors.md); `ENGINE_BASE` and `IRQ_LINE`, which the spec leaves to the platform, at 0.
DESIGN CHOICE (notes/assumptions/3.md), unsafe for a statement that rests on these three numbers. -/
def Config.reference : Config := { memBytes := 65536, engineBase := 0, irqLine := 0 }

end Sys2Proof
end

