-- ==== Sys2Proof/Syntax.lean ====
section
/-!
DEFINITION. What is written by hand and moves the machine: the six commands (30_encoding.md R62), the registers
(10_state.md, register map), the host's accesses and the turns of the two agents (00_scope.md R13), and the spec's
own host notation (30_encoding.md R66, R67).
-/

namespace Sys2Proof

/-- The commands, one constructor for each row of the opcode table. A command word has no operand field: every
operand is in a parameter register (30_encoding.md R65). -/
inductive Instr where
  | prerot
  | postrot
  | bfly3
  | bfly4m1
  | bfly4
  | bfly5
deriving DecidableEq, Repr

/-- The registers of the register map (10_state.md section 2). -/
inductive Reg where
  | id | version | ctrl | status | errcode | errinfo | cmd
  | n2 | n4 | n | m | mm | fstride
  | srcAddr | bufAddr | trigAddr | twAddr
deriving DecidableEq, Repr

/-- One host access at a host address (20_memory.md R42, R57). A write of `width` bytes moves the low `8 * width` bits of
its value. -/
inductive Access where
  | read (width addr : Nat)
  | write (width addr : Nat) (value : BitVec 64)
deriving DecidableEq, Repr

/-- What happens next at the engine's boundary: the host performs one access, the engine has the step (it completes
the pending command, if there is one), or the platform performs a power-on reset. A list of turns is one interleaving
of the agents (70_reset_and_hazards.md R146). -/
inductive Turn where
  | host (a : Access)
  | engine
  | powerOn
deriving DecidableEq, Repr

/-- The two agents (00_scope.md R13). -/
inductive Agent where
  | host
  | engine
deriving DecidableEq, Repr

/-- The statements of the spec's host notation (30_encoding.md R66). -/
inductive Stmt where
  | wr (r : Reg) (v : Word)
  | rd (r : Reg)
  | wrf32 (addr : Nat) (v : F32)
  | wrf64 (addr : Nat) (v : F64)
  | rdf32 (addr : Nat)
  | label (name : String)
  | poll (r : Reg) (mask value : Word) (target : String)
deriving DecidableEq, Repr

/-- Whether an access reads or writes (30_encoding.md R68, `R|W`). -/
inductive Direction where
  | read
  | write
deriving DecidableEq, Repr

/-- One line of a program's encoding, `(R|W, width, offset, value)`: the offset is relative to `ENGINE_BASE`, and the
value is the written one, or the one the read returned (30_encoding.md R68). -/
structure Listed where
  direction : Direction
  width : Nat
  offset : Nat
  value : BitVec 64
deriving DecidableEq, Repr

/-- The pseudo-statements of the spec's host notation (30_encoding.md R67). -/
inductive Pseudo where
  | cmd (i : Instr)
  | wait
  | clear
  | prerot (n2 n4 src buf trig : Word)
  | postrot (n2 n4 buf trig : Word)
  | bfly3 (n mm fstride buf tw : Word)
  | bfly4m1 (n buf : Word)
  | bfly4 (n m mm fstride buf tw : Word)
  | bfly5 (n mm fstride buf tw : Word)
deriving DecidableEq, Repr

end Sys2Proof
end

