-- ==== Sys2Proof/Decode.lean ====
section
/-!
DEFINITION. Command words (30_encoding.md R61 to R63): decoding, total on all 2^32 words and rejecting by name, and
the encoder written from the same table. Then the decoding of a host access's address: the register block or the RAM
window, and the widths each takes (10_state.md R38; 20_memory.md R42, R49).
-/

namespace Sys2Proof

/-- Why a word spells no command (30_encoding.md R63). -/
inductive DecodeError where
  /-- A bit of RSV, bits [31:4], is 1. -/
  | reservedBits
  /-- RSV is 0 and OP is 0x0 or 0x7 to 0xF. -/
  | reservedOp
deriving DecidableEq, Repr

/-- The field OP, bits [3:0] (30_encoding.md R61). -/
def opField (w : Word) : BitVec 4 := w.extractLsb' 0 4

/-- The field RSV, bits [31:4] (30_encoding.md R61). -/
def rsvField (w : Word) : BitVec 28 := w.extractLsb' 4 28

/-- The opcode map on the field OP (30_encoding.md R62). -/
def opcode (op : Nat) : Option Instr :=
  match op with
  | 1 => some .prerot
  | 2 => some .postrot
  | 3 => some .bfly3
  | 4 => some .bfly4m1
  | 5 => some .bfly4
  | 6 => some .bfly5
  | _ => none

/-- "A command word selects a command exactly when it equals one of these values (RSV = 0)" (30_encoding.md R62);
every other word is rejected (R63). -/
def decode (w : Word) : Except DecodeError Instr :=
  if rsvField w ≠ 0 then .error .reservedBits
  else
    match opcode (opField w).toNat with
    | some i => .ok i
    | none => .error .reservedOp

/-- The command word of a command (30_encoding.md R62). -/
def encode : Instr → Word
  | .prerot => 0x00000001#32
  | .postrot => 0x00000002#32
  | .bfly3 => 0x00000003#32
  | .bfly4m1 => 0x00000004#32
  | .bfly4 => 0x00000005#32
  | .bfly5 => 0x00000006#32

/-- The command the decoder reads from a table row's bits. A command word is one 32-bit word and no command is
longer, so a number that needs more bits is no command word. -/
def decodeTableWord (_nbits w : Nat) : Option Instr :=
  if w < 2 ^ 32 then
    match decode (BitVec.ofNat 32 w) with
    | .ok i => some i
    | .error _ => none
  else none

/-- The bytes of the register block, which come before the RAM window (20_memory.md R42). -/
def registerBlockBytes : Nat := 0x10000

/-- The offset of a host address in the engine's aperture of `0x10000 + MEM_BYTES` bytes, or `none` where the address
is outside it (20_memory.md R42). -/
def Config.offset? (c : Config) (addr : Nat) : Option Nat :=
  if c.engineBase ≤ addr ∧ addr < c.engineBase + registerBlockBytes + c.memBytes then some (addr - c.engineBase)
  else none

/-- The width of an access in bytes. -/
def Access.width : Access → Nat
  | .read w _ => w
  | .write w _ _ => w

/-- The host address of an access. -/
def Access.addr : Access → Nat
  | .read _ a => a
  | .write _ a _ => a

/-- A register access is naturally aligned and 32 bits wide (10_state.md R38). -/
def registerAccessOk (width off : Nat) : Bool := width == 4 && off % 4 == 0

/-- A RAM access is 1, 2, 4 or 8 bytes wide and naturally aligned (20_memory.md R49), and stays in the window. -/
def ramAccessOk (c : Config) (width a : Nat) : Bool :=
  (width == 1 || width == 2 || width == 4 || width == 8) && a % width == 0 && decide (a + width ≤ c.memBytes)

end Sys2Proof
end

