-- ==== Sys2Proof/WellFormed.lean ====
section
/-!
DEFINITION. The checks of what is written by hand: the legal parameter values (00_scope.md R6) and the host accesses
that spell an access of IMDCT-RBE (10_state.md R38; 20_memory.md R42, R49; 60_exceptions.md R132).
-/

namespace Sys2Proof

/-- `MEM_BYTES` is "a multiple of 8, 8 ≤ MEM_BYTES ≤ 2^24" (00_scope.md R6); the other two are platform-defined. -/
def Config.legal (c : Config) : Bool :=
  c.memBytes % 8 == 0 && decide (8 ≤ c.memBytes) && decide (c.memBytes ≤ 2 ^ 24)

/-- A command has no field, so every command is well formed: its word is the whole of it (30_encoding.md R61). -/
def Instr.wf : Instr → Bool
  | .prerot => true
  | .postrot => true
  | .bfly3 => true
  | .bfly4m1 => true
  | .bfly4 => true
  | .bfly5 => true

/-- The accesses of IMDCT-RBE; every other access is refused (60_exceptions.md R132). -/
def Access.wf (c : Config) (x : Access) : Bool :=
  match c.offset? x.addr with
  | none => false
  | some off =>
    if off < registerBlockBytes then registerAccessOk x.width off
    else ramAccessOk c x.width (off - registerBlockBytes)

end Sys2Proof
end

