-- ==== Sys2Proof/Machine/State.lean ====
section
/-!
DEFINITION. The state of IMDCT-RBE as plain data (10_state.md R16), the reasons a step can stop, and the state after
power-on reset (10_state.md R39; 70_reset_and_hazards.md R133).
-/

namespace Sys2Proof.Machine

/-- The ten parameter and address registers (10_state.md R26 to R31). A snapshot `P` is a copy of them (R32). -/
structure Params where
  n2 : Word
  n4 : Word
  n : Word
  m : Word
  mm : Word
  fstride : Word
  srcAddr : Word
  bufAddr : Word
  trigAddr : Word
  twAddr : Word
deriving DecidableEq, Repr

/-- The stored bits of STATUS (10_state.md R20 to R22). STATUS.BUSY is 1 exactly while a command is pending
(10_state.md R33), so it is read from the pending command (`State.busy`) and stored nowhere else; bits [31:4] read 0. -/
structure Status where
  done : Bool
  err : Bool
  drop : Bool
deriving DecidableEq, Repr

/-- The error codes that ERRCODE can hold; 6 to 15 are never produced (60_exceptions.md R113). -/
inductive ErrCode where
  | none
  | illegalOp
  | param
  | align
  | range
  | aliased
deriving DecidableEq, Repr

/-- What a failing start check reports: the code for ERRCODE and the register offset for ERRINFO
(60_exceptions.md R114). -/
structure Rejection where
  code : ErrCode
  info : BitVec 8
deriving DecidableEq, Repr

/-- The pending command: the accepted opcode with its snapshot (10_state.md R32, R33). `disturbed` says that the host
has written a byte of its footprint since, which makes its results unspecified (20_memory.md R58(b)). -/
structure Pending where
  op : Instr
  params : Params
  disturbed : Bool
deriving DecidableEq, Repr

/-- The data RAM (20_memory.md R41): the written bytes, addresses strictly rising, and the number of the free draw
that the bytes never written since power-on hold (20_memory.md R54). -/
structure Memory where
  cells : List Host.Cell
  unwritten : Nat
deriving DecidableEq, Repr

/-- The whole state. The fields from `config` to `mem` are the spec's; `mover`, `turns`, `readData` and `draws` are
the model's own (INVENTORY.md, State). -/
structure State where
  /-- The parameters of this machine (00_scope.md R6); no step changes them. -/
  config : Config
  /-- CTRL.IRQ_EN (10_state.md R18). -/
  irqEn : Bool
  /-- STATUS.DONE, ERR and DROP (10_state.md R20 to R22). -/
  status : Status
  /-- ERRCODE (10_state.md R23). -/
  errCode : ErrCode
  /-- ERRINFO bits [7:0] (10_state.md R24). -/
  errInfo : BitVec 8
  /-- CMD, all 32 bits (10_state.md R25). -/
  cmd : Word
  /-- N2 to TW_ADDR (10_state.md R26 to R31). -/
  params : Params
  /-- The pending command with its snapshot, while STATUS.BUSY = 1 (10_state.md R32, R33). -/
  pending : Option Pending
  /-- The data RAM (20_memory.md R41). -/
  mem : Memory
  /-- Model's own: the agent whose step the running step is (00_scope.md R13). -/
  mover : Agent
  /-- Model's own: the interleaving still to come (70_reset_and_hazards.md R146). -/
  turns : List Turn
  /-- Model's own: what the host's last read returned, zero-extended. -/
  readData : BitVec 64
  /-- Model's own: the number of the next free draw. -/
  draws : Nat
deriving DecidableEq, Repr

/-- Why the machine stops with a fault. -/
inductive Fault where
  /-- Raised by an engine step over a pending command whose snapshot no start accepts: its footprint may leave the
  RAM, where no address exists (20_memory.md R41), or overlap. The spec completes accepted commands only
  (60_exceptions.md R119). Safe: no run from reset reaches it (60_exceptions.md R123). -/
  | notAccepted
deriving DecidableEq, Repr

/-- Why a step is refused. -/
inductive Refusal where
  /-- Raised by no arm of `exec`: every command has its meaning. Safe. -/
  | notModelled (mnemonic : String)
  /-- Raised by a host access to an address outside the engine's aperture, which is no access of IMDCT-RBE
  (20_memory.md R42, 60_exceptions.md R132). Safe. -/
  | outsideAperture
  /-- Raised by a register access that is not a naturally aligned 32-bit access: "a model gives it no meaning (it takes
  no step)" (10_state.md R38). Safe. -/
  | registerAccess
  /-- Raised by a RAM access of a width other than 1, 2, 4 or 8 or not naturally aligned: "refused (no step)"
  (20_memory.md R49). Safe. -/
  | ramAccess
deriving DecidableEq, Repr

/-- The outcome of a step. -/
abbrev Result := Host.Outcome State Fault Refusal

/-- Every parameter and address register at its reset value 0 (10_state.md R26 to R31). -/
def Params.zero : Params :=
  { n2 := 0, n4 := 0, n := 0, m := 0, mm := 0, fstride := 0, srcAddr := 0, bufAddr := 0, trigAddr := 0, twAddr := 0 }

/-- The state after a power-on reset of the machine with parameters `c` (10_state.md R39, 70_reset_and_hazards.md
R133): every register 0, no pending command, and in every RAM byte its own free draw number `draw`. -/
def State.powerOn (c : Config) (draw : Nat) : State :=
  { config := c
    irqEn := false
    status := { done := false, err := false, drop := false }
    errCode := .none
    errInfo := 0
    cmd := 0
    params := Params.zero
    pending := none
    mem := { cells := [], unwritten := draw }
    mover := .host
    turns := []
    readData := 0
    draws := draw + 1 }

/-- The reference machine right after power-on reset, with no turn to come. -/
def State.reset : State := State.powerOn Config.reference 0

end Sys2Proof.Machine
end

