-- ==== Sys2Proof/Machine/Flags.lean ====
section
/-!
DEFINITION. The status bits, the words in which the host sees them, and the interrupt output (10_state.md R17 to R25,
R34 to R36; 60_exceptions.md R113, R120, R121). The engine has no condition code and no arithmetic flag (R36).
-/

namespace Sys2Proof.Machine

/-- STATUS.BUSY: 1 exactly while a command is pending (10_state.md R19, R33). -/
def State.busy (s : State) : Bool := s.pending.isSome

/-- The interrupt output, a level: CTRL.IRQ_EN AND (STATUS.DONE OR STATUS.ERR) (10_state.md R34). -/
def State.irq (s : State) : Bool := s.irqEn && (s.status.done || s.status.err)

/-- The level that `irq` puts on the host's interrupt input `line`: the engine drives only its own `IRQ_LINE`
(00_scope.md R6, 60_exceptions.md R120). -/
def State.irqInput (s : State) (line : Nat) : Bool := line == s.config.irqLine && s.irq

/-- A bit at position `k` of a register word whose other bits are 0. -/
def bitAt (b : Bool) (k : Nat) : Word := (BitVec.ofBool b).setWidth 32 <<< k

/-- STATUS as the host reads it: BUSY, DONE, ERR, DROP in bits 0 to 3; bits [31:4] read 0 (10_state.md R19 to R22). -/
def State.statusWord (s : State) : Word :=
  bitAt s.busy 0 ||| bitAt s.status.done 1 ||| bitAt s.status.err 2 ||| bitAt s.status.drop 3

/-- CTRL as the host reads it: IRQ_EN in bit 0; SOFT_RESET and bits [31:2] read 0 (10_state.md R18). -/
def State.ctrlWord (s : State) : Word := bitAt s.irqEn 0

/-- The number of an error code (60_exceptions.md R113). -/
def ErrCode.word : ErrCode → Word
  | .none => 0
  | .illegalOp => 1
  | .param => 2
  | .align => 3
  | .range => 4
  | .aliased => 5

/-- ERRINFO as the host reads it: bits [31:8] read 0 (10_state.md R24). -/
def State.errInfoWord (s : State) : Word := s.errInfo.setWidth 32

/-- A host write to STATUS: a written 1 in bit 1, 2 or 3 clears DONE, ERR or DROP; bit 0 is not writable
(60_exceptions.md R121). -/
def Status.writeOneToClear (st : Status) (v : Word) : Status :=
  { done := st.done && !v.getLsbD 1
    err := st.err && !v.getLsbD 2
    drop := st.drop && !v.getLsbD 3 }

end Sys2Proof.Machine
end

