-- ==== Sys2Proof/Machine/RegisterMap.lean ====
section
/-!
DEFINITION. The register map: the offset of each register from `ENGINE_BASE` and back (10_state.md section 2).
-/

namespace Sys2Proof.Machine

/-- The byte offset of a register (10_state.md, register map). -/
def regOffset : Reg → Nat
  | .id => 0x000
  | .version => 0x004
  | .ctrl => 0x008
  | .status => 0x00C
  | .errcode => 0x010
  | .errinfo => 0x014
  | .cmd => 0x018
  | .n2 => 0x020
  | .n4 => 0x024
  | .n => 0x028
  | .m => 0x02C
  | .mm => 0x030
  | .fstride => 0x034
  | .srcAddr => 0x040
  | .bufAddr => 0x044
  | .trigAddr => 0x048
  | .twAddr => 0x04C

/-- Every register, in the order of the register map. -/
def allRegs : List Reg :=
  [.id, .version, .ctrl, .status, .errcode, .errinfo, .cmd, .n2, .n4, .n, .m, .mm, .fstride,
   .srcAddr, .bufAddr, .trigAddr, .twAddr]

/-- The register at an offset; the offsets without one are reserved (10_state.md R35). -/
def regAt (off : Nat) : Option Reg := allRegs.find? fun r => regOffset r == off

/-- The low 8 bits of a register's offset, as ERRINFO names it (10_state.md R24). -/
def regInfo (r : Reg) : BitVec 8 := BitVec.ofNat 8 (regOffset r)

/-- The host address of a register (20_memory.md R42, 30_encoding.md R66). -/
def regAddr (c : Config) (r : Reg) : Nat := c.engineBase + regOffset r

/-- The host address of a RAM byte (20_memory.md R42). -/
def ramAddr (c : Config) (a : Nat) : Nat := c.engineBase + registerBlockBytes + a

end Sys2Proof.Machine
end

