-- ==== Sys2Proof/Machine/Footprint.lean ====
section
/-!
DEFINITION. Which bytes a command reads and writes, exactly (20_memory.md R50, R51), and when it has no iteration
(60_exceptions.md R115).
-/

namespace Sys2Proof.Machine

/-- The `len` bytes from `base` on. -/
structure Block where
  base : Nat
  len : Nat
deriving DecidableEq, Repr

/-- Whether the byte at `a` is in a block. -/
def Block.has (b : Block) (a : Nat) : Bool := decide (b.base ≤ a) && decide (a < b.base + b.len)

/-- Whether two blocks share a byte. -/
def Block.meets (x y : Block) : Bool :=
  decide (max x.base y.base < min (x.base + x.len) (y.base + y.len))

/-- Whether the byte at `a` is in one of the blocks. -/
def inBlocks (bs : List Block) (a : Nat) : Bool := bs.any fun b => b.has a

/-- Whether two sets of blocks share a byte, decided on the exact byte sets (20_memory.md R53). -/
def blocksMeet (xs ys : List Block) : Bool := xs.any fun x => ys.any fun y => x.meets y

/-- The bytes a command touches through each base register; the bytes through BUF_ADDR are its write set
(20_memory.md R51). -/
structure Footprint where
  src : List Block
  buf : List Block
  trig : List Block
  tw : List Block
  /-- Whether the bytes through BUF_ADDR are also read. -/
  bufRead : Bool
deriving DecidableEq, Repr

/-- The footprint of a command with zero iterations (20_memory.md R50). -/
def Footprint.empty : Footprint := { src := [], buf := [], trig := [], tw := [], bufRead := false }

/-- The read set (20_memory.md R50). -/
def Footprint.reads (f : Footprint) : List Block := f.src ++ f.trig ++ f.tw ++ (if f.bufRead then f.buf else [])

/-- The write set (20_memory.md R50). -/
def Footprint.writes (f : Footprint) : List Block := f.buf

/-- The groups of a butterfly: `n` runs of `span` complex samples, `spacing` complex samples apart
(20_memory.md R51, `G3`, `G4`, `G5`). -/
def groupBlocks (base n spacing span : Nat) : List Block :=
  (List.range n).map fun i => { base := base + 8 * (i * spacing), len := 8 * span }

/-- Whole twiddle entries at the given indices. -/
def twiddleBlocks (base : Nat) (ks : List Nat) : List Block := ks.map fun k => { base := base + 8 * k, len := 8 }

/-- The twiddle indices of BFLY4: `q*j*FSTRIDE` for `q` in 1, 2, 3 and `j < m` (20_memory.md R51, `T4`). -/
def bfly4TwiddleIndices (m fstride : Nat) : List Nat :=
  (List.range m).flatMap fun j => [1 * j * fstride, 2 * j * fstride, 3 * j * fstride]

def prerotFootprint (P : Params) : Footprint :=
  { src := [{ base := P.srcAddr.toNat, len := 8 * P.n2.toNat }]
    buf := [{ base := P.bufAddr.toNat, len := 4 * P.n2.toNat }]
    trig := [{ base := P.trigAddr.toNat, len := 4 * P.n2.toNat }]
    tw := []
    bufRead := false }

def postrotFootprint (P : Params) : Footprint :=
  { src := []
    buf := [{ base := P.bufAddr.toNat, len := 4 * P.n2.toNat }]
    trig := [{ base := P.trigAddr.toNat, len := 4 * P.n2.toNat }]
    tw := []
    bufRead := true }

/-- BFLY3 reads the imaginary lane of `tw[FSTRIDE]` only (20_memory.md R51, 42_butterflies.md R98). -/
def bfly3Footprint (P : Params) : Footprint :=
  { src := []
    buf := groupBlocks P.bufAddr.toNat P.n.toNat P.mm.toNat 3
    trig := []
    tw := [{ base := P.twAddr.toNat + 8 * P.fstride.toNat + 4, len := 4 }]
    bufRead := true }

def bfly4m1Footprint (P : Params) : Footprint :=
  { src := []
    buf := [{ base := P.bufAddr.toNat, len := 8 * (4 * P.n.toNat) }]
    trig := []
    tw := []
    bufRead := true }

def bfly4Footprint (P : Params) : Footprint :=
  { src := []
    buf := groupBlocks P.bufAddr.toNat P.n.toNat P.mm.toNat (4 * P.m.toNat)
    trig := []
    tw := twiddleBlocks P.twAddr.toNat (bfly4TwiddleIndices P.m.toNat P.fstride.toNat)
    bufRead := true }

def bfly5Footprint (P : Params) : Footprint :=
  { src := []
    buf := groupBlocks P.bufAddr.toNat P.n.toNat P.mm.toNat 5
    trig := []
    tw := twiddleBlocks P.twAddr.toNat [P.fstride.toNat, 2 * P.fstride.toNat]
    bufRead := true }

/-- Zero iterations (60_exceptions.md R115). -/
def zeroIterations (op : Instr) (P : Params) : Bool :=
  match op with
  | .prerot => P.n4 == 0
  | .postrot => P.n4 == 0
  | .bfly3 => P.n == 0
  | .bfly4m1 => P.n == 0
  | .bfly4 => P.n == 0 || P.m == 0
  | .bfly5 => P.n == 0

/-- The footprint of a command with snapshot `P` (20_memory.md R50, R51). -/
def footprint (op : Instr) (P : Params) : Footprint :=
  if zeroIterations op P then Footprint.empty
  else
    match op with
    | .prerot => prerotFootprint P
    | .postrot => postrotFootprint P
    | .bfly3 => bfly3Footprint P
    | .bfly4m1 => bfly4m1Footprint P
    | .bfly4 => bfly4Footprint P
    | .bfly5 => bfly5Footprint P

/-- The write set of a pending command. -/
def Pending.writes (p : Pending) : List Block := (footprint p.op p.params).writes

/-- The bytes of a pending command's footprint, read set and write set. -/
def Pending.bytes (p : Pending) : List Block :=
  (footprint p.op p.params).reads ++ (footprint p.op p.params).writes

end Sys2Proof.Machine
end

