-- ==== Sys2Proof/Machine/Ops.lean ====
section
/-!
DEFINITION. The named operations over the RAM and the registers: `MemRead` and `MemWrite` (00_scope.md R12,
20_memory.md R43 to R45), unspecified bytes (20_memory.md R54, R58), and the events of a command: the start with its
rejection or acceptance (60_exceptions.md R111, R117, R118), the drop, the completion (R119), and the two resets
(70_reset_and_hazards.md R133, R135). A rejection is the machine's only error event and has no return: the host clears
the status bits (60_exceptions.md R121, R122; `Status.writeOneToClear`).
-/

namespace Sys2Proof.Machine

/-! ## The RAM -/

/-- The written byte at `a`, if there is one. -/
def findCell (a : Nat) : List Host.Cell → Option Byte
  | [] => none
  | (x, b) :: t => if x = a then some b else findCell a t

/-- What an unlisted address reads as: the byte's free draw since power-on, "a free draw (any of the 256 values,
independently per byte and fixed until written)" (20_memory.md R54). -/
def Memory.unwrittenByte (m : Memory) (a : Nat) : Byte := Config.freeByte m.unwritten a

/-- The RAM byte at `a`. -/
def Memory.byte (m : Memory) (a : Nat) : Byte := (findCell a m.cells).getD (m.unwrittenByte a)

/-- Puts a byte into the list of written bytes, addresses rising. -/
def putCell (a : Nat) (b : Byte) : List Host.Cell → List Host.Cell
  | [] => [(a, b)]
  | (x, y) :: t =>
    if a < x then (a, b) :: (x, y) :: t
    else if a = x then (a, b) :: t
    else (x, y) :: putCell a b t

/-- The RAM with the byte at `a` written. -/
def Memory.setByte (m : Memory) (a : Nat) (b : Byte) : Memory := { m with cells := putCell a b m.cells }

/-- Addresses strictly rising from `lo` on. -/
def risingFrom (lo : Nat) : List Host.Cell → Bool
  | [] => true
  | (x, _) :: t => decide (lo ≤ x) && risingFrom (x + 1) t

/-- The canonical form: each written byte is listed once, addresses strictly rising. An unlisted address reads as its
free draw, which has no known value that an entry could equal (notes/assumptions/4.md). -/
def Memory.wf (m : Memory) : Bool := risingFrom 0 m.cells

/-- Every written byte lies in a RAM of `n` bytes (20_memory.md R41). -/
def Memory.below (m : Memory) (n : Nat) : Bool := m.cells.all fun c => decide (c.1 < n)

/-- `for i in [0, n): x <- body i x`, in increasing order (00_scope.md R12). -/
def forRange {α : Type} (n : Nat) (body : Nat → α → α) (x : α) : α :=
  match n with
  | 0 => x
  | k + 1 => body k (forRange k body x)

/-- The little-endian value of `n` bytes: byte `i` gives bits `8i` to `8i+7` (20_memory.md R43). -/
def littleEndian (byteOf : Nat → Byte) : Nat → BitVec 64
  | 0 => 0
  | k + 1 => littleEndian byteOf k ||| ((byteOf k).setWidth 64 <<< (8 * k))

/-- `MemRead(a, n)`, zero-extended (20_memory.md R44). -/
def Memory.read (m : Memory) (a n : Nat) : BitVec 64 := littleEndian (fun i => m.byte (a + i)) n

/-- `MemWrite(a, n, v)` (20_memory.md R45). -/
def Memory.write (m : Memory) (a n : Nat) (v : BitVec 64) : Memory :=
  forRange n (fun i m' => m'.setByte (a + i) (v.extractLsb' (8 * i) 8)) m

/-- A binary32 element (20_memory.md R43). -/
def Memory.readF32 (m : Memory) (a : Nat) : F32 := (m.read a 4).setWidth 32

/-- A binary64 element (20_memory.md R43). -/
def Memory.readF64 (m : Memory) (a : Nat) : F64 := m.read a 8

/-- The engine writes binary32 lanes only (20_memory.md R45). -/
def Memory.writeF32 (m : Memory) (a : Nat) (v : F32) : Memory := m.write a 4 (v.setWidth 64)

/-- Every byte of a block takes its own value of free draw `draw`. -/
def Memory.scrambleBlock (m : Memory) (draw : Nat) (b : Block) : Memory :=
  forRange b.len (fun i m' => m'.setByte (b.base + i) (Config.freeByte draw (b.base + i))) m

/-- Every byte of the blocks becomes unspecified, "a free draw per byte" (70_reset_and_hazards.md R135). -/
def Memory.scramble (m : Memory) (draw : Nat) (bs : List Block) : Memory :=
  bs.foldl (fun m' b => m'.scrambleBlock draw b) m

/-! ## The start of a command -/

/-- A CMD write while a command is pending: the write is dropped and only STATUS.DROP changes
(60_exceptions.md R111 step 1). -/
def State.dropCommand (s : State) : State := { s with status := { s.status with drop := true } }

/-- What every CMD write that is not dropped does before its checks (60_exceptions.md R111 step 2). -/
def State.beginStart (v : Word) (s : State) : State :=
  { s with
    cmd := v
    status := { s.status with done := false, err := false }
    errCode := .none
    errInfo := 0 }

/-- Rejection, the only error event (60_exceptions.md R117). -/
def State.reject (r : Rejection) (s : State) : State :=
  { s with status := { s.status with err := true }, errCode := r.code, errInfo := r.info }

/-- Acceptance: the command is pending with its snapshot (60_exceptions.md R118, 10_state.md R32). -/
def State.accept (op : Instr) (s : State) : State :=
  { s with pending := some { op := op, params := s.params, disturbed := false } }

/-- A host write of `v` to CMD (60_exceptions.md R111): dropped while a command is pending; else `verdict`, read from
the snapshot, rejects or accepts. -/
def State.startCommand (v : Word) (verdict : Config → Params → Except Rejection Instr) (s : State) : State :=
  if s.busy then s.dropCommand
  else
    match verdict s.config s.params with
    | .error r => (s.beginStart v).reject r
    | .ok op => (s.beginStart v).accept op

/-- The report of a word that spells no command (60_exceptions.md R114, ILLEGAL_OP). -/
def illegalWord : Rejection := { code := .illegalOp, info := regInfo .cmd }

/-- The start of a word that spells no command (30_encoding.md R63). -/
def State.startIllegal (v : Word) (s : State) : State := s.startCommand v fun _ _ => .error illegalWord

/-! ## The completion of a command -/

/-- Completion of a command nobody disturbed: the RAM is transformed, BUSY falls, DONE rises, and the pending command
is discarded (60_exceptions.md R119). -/
def State.completeWith (mem : Memory) (s : State) : State :=
  { s with mem := mem, pending := none, status := { s.status with done := true } }

/-- The completion step of the pending command `p` with the RAM transformation `effect`; if the host wrote into its
footprint, every byte of its write set is a free draw instead (20_memory.md R58(b)). -/
def State.complete (p : Pending) (effect : Params → Memory → Memory) (s : State) : State :=
  if p.disturbed then { s.completeWith (s.mem.scramble s.draws p.writes) with draws := s.draws + 1 }
  else s.completeWith (effect p.params s.mem)

/-- The meaning every command shares. In the host's step it is started by the write of its word to CMD
(60_exceptions.md R111, R112): `check` is its start-check sequence. In the engine's step it is completed, if it is
the pending command (60_exceptions.md R119): `effect` is its RAM transformation. -/
def runCommand (op : Instr) (check : Config → Params → Option Rejection) (effect : Params → Memory → Memory)
    (s : State) : Result :=
  match s.mover with
  | .host =>
    .next (s.startCommand (encode op) fun c P =>
      match check c P with
      | some r => .error r
      | none => .ok op)
  | .engine =>
    match s.pending with
    | none => .next s
    | some p =>
      if p.op = op then
        match check s.config p.params with
        | some _ => .fault .notAccepted
        | none => .next (s.complete p effect)
      else .next s

/-! ## Resets -/

/-- Every register at its reset value, no snapshot and no pending command (10_state.md R39). -/
def State.resetRegisters (s : State) : State :=
  { s with
    irqEn := false
    status := { done := false, err := false, drop := false }
    errCode := .none
    errInfo := 0
    cmd := 0
    params := Params.zero
    pending := none }

/-- Soft reset: the registers, and if a command was pending every byte of its write set is a free draw
(70_reset_and_hazards.md R135). -/
def State.softReset (s : State) : State :=
  match s.pending with
  | none => s.resetRegisters
  | some p => { s.resetRegisters with mem := s.mem.scramble s.draws p.writes, draws := s.draws + 1 }

/-- Power-on reset as an event: the registers, and every RAM byte holds a fresh free draw
(70_reset_and_hazards.md R133). -/
def State.powerOnReset (s : State) : State :=
  { s.resetRegisters with mem := { cells := [], unwritten := s.draws }, draws := s.draws + 1 }

end Sys2Proof.Machine
end

