-- ==== Sys2Proof/Machine/Checks.lean ====
section
/-!
DEFINITION. The start checks of each command in their order (60_exceptions.md R112, R114 to R116; 20_memory.md R47,
R52, R53). The word itself is checked before them, by decoding.
-/

namespace Sys2Proof.Machine

/-- One check: the report where `p` holds. -/
def failIf (p : Prop) [Decidable p] (code : ErrCode) (r : Reg) : Option Rejection :=
  if p then some { code := code, info := regInfo r } else none

/-- PARAM: `N2 ≠ 2*N4` (60_exceptions.md R114). -/
def paramCheck (P : Params) : Option Rejection := failIf (P.n2.toNat ≠ 2 * P.n4.toNat) .param .n2

/-- ALIGN of one base register (20_memory.md R47). -/
def alignCheck (r : Reg) (base : Word) (unit : Nat) : Option Rejection := failIf (base.toNat % unit ≠ 0) .align r

/-- RANGE of one region, by its highest byte (60_exceptions.md R114). -/
def rangeCheck (c : Config) (r : Reg) (highest : Nat) : Option Rejection := failIf (c.memBytes ≤ highest) .range r

/-- ALIAS, group spacing: `N ≥ 2` and `MM < span` (60_exceptions.md R114). -/
def spacingCheck (P : Params) (span : Nat) : Option Rejection :=
  failIf (2 ≤ P.n.toNat ∧ P.mm.toNat < span) .aliased .mm

/-- ALIAS, region overlap: the write set shares a byte with a region read through another base register
(60_exceptions.md R114). -/
def overlapCheck (r : Reg) (writes reads : List Block) : Option Rejection :=
  failIf (blocksMeet writes reads = true) .aliased r

/-- The highest byte of the groups of a butterfly, `BUF_ADDR + 8*((N − 1)*MM + span) − 1` (60_exceptions.md R114). -/
def groupsHighest (P : Params) (span : Nat) : Nat :=
  P.bufAddr.toNat + 8 * ((P.n.toNat - 1) * P.mm.toNat + span) - 1

def prerotCheck (c : Config) (P : Params) : Option Rejection :=
  paramCheck P <|>
  if zeroIterations .prerot P then none
  else
    alignCheck .srcAddr P.srcAddr 8 <|>
    alignCheck .bufAddr P.bufAddr 8 <|>
    alignCheck .trigAddr P.trigAddr 4 <|>
    rangeCheck c .srcAddr (P.srcAddr.toNat + 8 * P.n2.toNat - 1) <|>
    rangeCheck c .bufAddr (P.bufAddr.toNat + 4 * P.n2.toNat - 1) <|>
    rangeCheck c .trigAddr (P.trigAddr.toNat + 4 * P.n2.toNat - 1) <|>
    overlapCheck .srcAddr (prerotFootprint P).buf (prerotFootprint P).src <|>
    overlapCheck .trigAddr (prerotFootprint P).buf (prerotFootprint P).trig

def postrotCheck (c : Config) (P : Params) : Option Rejection :=
  paramCheck P <|>
  if zeroIterations .postrot P then none
  else
    alignCheck .bufAddr P.bufAddr 8 <|>
    alignCheck .trigAddr P.trigAddr 4 <|>
    rangeCheck c .bufAddr (P.bufAddr.toNat + 4 * P.n2.toNat - 1) <|>
    rangeCheck c .trigAddr (P.trigAddr.toNat + 4 * P.n2.toNat - 1) <|>
    overlapCheck .trigAddr (postrotFootprint P).buf (postrotFootprint P).trig

def bfly3Check (c : Config) (P : Params) : Option Rejection :=
  if zeroIterations .bfly3 P then none
  else
    alignCheck .bufAddr P.bufAddr 8 <|>
    alignCheck .twAddr P.twAddr 8 <|>
    rangeCheck c .bufAddr (groupsHighest P 3) <|>
    rangeCheck c .twAddr (P.twAddr.toNat + 8 * P.fstride.toNat + 7) <|>
    spacingCheck P 3 <|>
    overlapCheck .twAddr (bfly3Footprint P).buf (bfly3Footprint P).tw

/-- BFLY4M1 cannot alias: its only region is its own buffer (60_exceptions.md R113). -/
def bfly4m1Check (c : Config) (P : Params) : Option Rejection :=
  if zeroIterations .bfly4m1 P then none
  else
    alignCheck .bufAddr P.bufAddr 8 <|>
    rangeCheck c .bufAddr (P.bufAddr.toNat + 32 * P.n.toNat - 1)

def bfly4Check (c : Config) (P : Params) : Option Rejection :=
  if zeroIterations .bfly4 P then none
  else
    alignCheck .bufAddr P.bufAddr 8 <|>
    alignCheck .twAddr P.twAddr 8 <|>
    rangeCheck c .bufAddr (groupsHighest P (4 * P.m.toNat)) <|>
    rangeCheck c .twAddr (P.twAddr.toNat + 8 * (3 * (P.m.toNat - 1) * P.fstride.toNat) + 7) <|>
    spacingCheck P (4 * P.m.toNat) <|>
    overlapCheck .twAddr (bfly4Footprint P).buf (bfly4Footprint P).tw

def bfly5Check (c : Config) (P : Params) : Option Rejection :=
  if zeroIterations .bfly5 P then none
  else
    alignCheck .bufAddr P.bufAddr 8 <|>
    alignCheck .twAddr P.twAddr 8 <|>
    rangeCheck c .bufAddr (groupsHighest P 5) <|>
    rangeCheck c .twAddr (P.twAddr.toNat + 16 * P.fstride.toNat + 7) <|>
    spacingCheck P 5 <|>
    overlapCheck .twAddr (bfly5Footprint P).buf (bfly5Footprint P).tw

/-- The start checks of a command, after its word has decoded (60_exceptions.md R112). -/
def startCheck (op : Instr) (c : Config) (P : Params) : Option Rejection :=
  match op with
  | .prerot => prerotCheck c P
  | .postrot => postrotCheck c P
  | .bfly3 => bfly3Check c P
  | .bfly4m1 => bfly4m1Check c P
  | .bfly4 => bfly4Check c P
  | .bfly5 => bfly5Check c P

end Sys2Proof.Machine
end

