-- ==== Sys2Proof/Machine/Numerics.lean ====
section
/-!
DEFINITION. The arithmetic primitives (40_numerics.md R69 to R83): IEEE 754 binary32 with round to nearest, ties to
even, no fusion, subnormals kept, one canonical NaN and no flag. Every operation is exact on integers and is rounded
once, at its end.
-/

namespace Sys2Proof.Machine

/-- What a bit pattern stands for (40_numerics.md R69): a NaN, an infinity, or `(-1)^neg * mant * 2^exp`. -/
inductive FloatVal where
  | nan
  | inf (neg : Bool)
  | fin (neg : Bool) (mant : Nat) (exp : Int)
deriving DecidableEq, Repr

/-- The exact value of a finite pattern (40_numerics.md R73, `val`). -/
def FloatVal.rat : FloatVal → ℚ
  | .nan => 0
  | .inf _ => 0
  | .fin neg mant exp => (if neg then -1 else 1) * (mant : ℚ) * (2 : ℚ) ^ exp

/-- Reads a pattern by its sign, biased exponent and fraction: an exponent field of all ones is an infinity or a NaN,
one of 0 a zero or a subnormal at the exponent `emin` (40_numerics.md R69, R78). -/
def unpackFields (neg : Bool) (e f ones fracBits : Nat) (emin : Int) : FloatVal :=
  if e = ones then (if f = 0 then .inf neg else .nan)
  else if e = 0 then .fin neg f emin
  else .fin neg (2 ^ fracBits + f) (emin + (e : Int) - 1)

/-- A binary32 pattern (40_numerics.md R69). -/
def unpack32 (x : F32) : FloatVal :=
  unpackFields (x.getLsbD 31) (x.extractLsb' 23 8).toNat (x.extractLsb' 0 23).toNat 255 23 (-149)

/-- A binary64 pattern (40_numerics.md R69). -/
def unpack64 (x : F64) : FloatVal :=
  unpackFields (x.getLsbD 63) (x.extractLsb' 52 11).toNat (x.extractLsb' 0 52).toNat 2047 52 (-1074)

/-- The canonical NaN (40_numerics.md R72). -/
def canonicalNaN : F32 := 0x7FC00000#32

/-- An infinity. -/
def inf32 (neg : Bool) : F32 := if neg then 0xFF800000#32 else 0x7F800000#32

/-- A zero. -/
def zero32 (neg : Bool) : F32 := if neg then 0x80000000#32 else 0x00000000#32

/-- `m / 2^k` rounded to the nearest integer, ties to even. -/
def shiftRightEven (m k : Nat) : Nat :=
  let q := m / 2 ^ k
  let twice := 2 * (m % 2 ^ k)
  if 2 ^ k < twice ∨ (twice = 2 ^ k ∧ q % 2 = 1) then q + 1 else q

/-- The exponent of the unit in the last place that a binary32 result near `m * 2^e` has: 23 binary places below the
leading bit, and never below the subnormals' -149. -/
def ulpExp (m : Nat) (e : Int) : Int := max (e + (m.log2 : Int) - 23) (-149)

/-- `m * 2^e` as a whole number of units in the last place, ties to even. -/
def roundToUlp (m : Nat) (e : Int) : Nat :=
  let q := ulpExp m e
  if q ≤ e then m * 2 ^ (e - q).toNat else shiftRightEven m (q - e).toNat

/-- `round32` of `(-1)^neg * m * 2^e` (40_numerics.md R70). With the unit `2^q`, the magnitude's pattern is
`(q + 149) * 2^23` plus the number of units: a carry out of the fraction raises the exponent, and a magnitude that
rounds to 2^128 or more has the pattern of an infinity or above. A zero takes the sign `neg`. -/
def round32 (neg : Bool) (m : Nat) (e : Int) : F32 :=
  if m = 0 then zero32 neg
  else
    let magnitude := (ulpExp m e + 149).toNat * 2 ^ 23 + roundToUlp m e
    if 0x7F800000 ≤ magnitude then inf32 neg
    else BitVec.ofNat 32 ((if neg then 2 ^ 31 else 0) + magnitude)

/-- A magnitude with its sign. -/
def signed (neg : Bool) (n : Nat) : Int := if neg then -(n : Int) else (n : Int)

/-- The sum of two finite values, exact on the smaller exponent and then rounded once; an exact zero sum is +0 unless
both operands are -0 (40_numerics.md R73). -/
def addFinite (na : Bool) (ma : Nat) (ea : Int) (nb : Bool) (mb : Nat) (eb : Int) : F32 :=
  let e := min ea eb
  let sum := signed na (ma * 2 ^ (ea - e).toNat) + signed nb (mb * 2 ^ (eb - e).toNat)
  if sum = 0 then zero32 (na && nb && ma == 0 && mb == 0)
  else round32 (decide (sum < 0)) sum.natAbs e

/-- `add32` (40_numerics.md R72, R73). -/
def add32 (a b : F32) : F32 :=
  match unpack32 a, unpack32 b with
  | .nan, _ => canonicalNaN
  | _, .nan => canonicalNaN
  | .inf na, .inf nb => if na = nb then inf32 na else canonicalNaN
  | .inf na, .fin _ _ _ => inf32 na
  | .fin _ _ _, .inf nb => inf32 nb
  | .fin na ma ea, .fin nb mb eb => addFinite na ma ea nb mb eb

/-- `neg`: bit 31 inverted (40_numerics.md R74). -/
def neg32 (b : F32) : F32 := b ^^^ 0x80000000#32

/-- `sub32` (40_numerics.md R74). -/
def sub32 (a b : F32) : F32 := add32 a (neg32 b)

/-- `mul32` (40_numerics.md R72, R76). -/
def mul32 (a b : F32) : F32 :=
  match unpack32 a, unpack32 b with
  | .nan, _ => canonicalNaN
  | _, .nan => canonicalNaN
  | .inf na, .inf nb => inf32 (na != nb)
  | .inf na, .fin nb mb _ => if mb = 0 then canonicalNaN else inf32 (na != nb)
  | .fin na ma _, .inf nb => if ma = 0 then canonicalNaN else inf32 (na != nb)
  | .fin na ma ea, .fin nb mb eb => round32 (na != nb) (ma * mb) (ea + eb)

/-- `narrow`, binary64 to binary32 (40_numerics.md R77). -/
def narrow (d : F64) : F32 :=
  match unpack64 d with
  | .nan => canonicalNaN
  | .inf neg => inf32 neg
  | .fin neg m e => round32 neg m e

/-- `half` (40_numerics.md R80). -/
def half (x : F32) : F32 := mul32 0x3F000000#32 x

/-- A complex value (00_scope.md R11). -/
structure Complex32 where
  re : F32
  im : F32
deriving DecidableEq, Repr

/-- `cadd` (40_numerics.md R81). -/
def cadd (a b : Complex32) : Complex32 := { re := add32 a.re b.re, im := add32 a.im b.im }

/-- `csub` (40_numerics.md R81). -/
def csub (a b : Complex32) : Complex32 := { re := sub32 a.re b.re, im := sub32 a.im b.im }

/-- `cscale` (40_numerics.md R81). -/
def cscale (a : Complex32) (x : F32) : Complex32 := { re := mul32 a.re x, im := mul32 a.im x }

/-- `cmul`, six separately rounded operations (40_numerics.md R82). -/
def cmul (a b : Complex32) : Complex32 :=
  { re := sub32 (mul32 a.re b.re) (mul32 a.im b.im)
    im := add32 (mul32 a.re b.im) (mul32 a.im b.re) }

/-- `addmj`: `s + (-j)·t` (40_numerics.md R83). -/
def addmj (s t : Complex32) : Complex32 := { re := add32 s.re t.im, im := sub32 s.im t.re }

/-- `addpj`: `s + (+j)·t` (40_numerics.md R83). -/
def addpj (s t : Complex32) : Complex32 := { re := sub32 s.re t.im, im := add32 s.im t.re }

/-- Both lanes halved (42_butterflies.md R98). -/
def chalf (a : Complex32) : Complex32 := { re := half a.re, im := half a.im }

end Sys2Proof.Machine
end

