-- ==== Sys2Proof/Machine/Operands.lean ====
section
/-!
DEFINITION. The operand forms: the elements of the buffers and tables in the RAM, by their element index, with exact
integer addresses (20_memory.md R46; 00_scope.md R9, R11; 30_encoding.md R65).
-/

namespace Sys2Proof.Machine

/-- The address of `spectral[k]`. -/
def spectralAddr (P : Params) (k : Nat) : Nat := P.srcAddr.toNat + 8 * k

/-- The address of `trig[k]`. -/
def trigAddr (P : Params) (k : Nat) : Nat := P.trigAddr.toNat + 4 * k

/-- The address of `F[k]`, float element `k` of the complex buffer. -/
def floatAddr (P : Params) (k : Nat) : Nat := P.bufAddr.toNat + 4 * k

/-- The address of `C[k]`, complex sample `k` of the complex buffer; its imaginary lane is 4 bytes on. -/
def sampleAddr (P : Params) (k : Nat) : Nat := P.bufAddr.toNat + 8 * k

/-- The address of `tw[k]`; its imaginary lane is 4 bytes on. -/
def twiddleAddr (P : Params) (k : Nat) : Nat := P.twAddr.toNat + 8 * k

/-- `spectral[k]`, a binary64. -/
def spectral (P : Params) (m : Memory) (k : Nat) : F64 := m.readF64 (spectralAddr P k)

/-- `trig[k]`, a binary32. -/
def trig (P : Params) (m : Memory) (k : Nat) : F32 := m.readF32 (trigAddr P k)

/-- `F[k]`. -/
def floatAt (P : Params) (m : Memory) (k : Nat) : F32 := m.readF32 (floatAddr P k)

/-- `F[k] <- v`. -/
def setFloat (P : Params) (k : Nat) (v : F32) (m : Memory) : Memory := m.writeF32 (floatAddr P k) v

/-- The complex value at an address. -/
def Memory.readComplex (m : Memory) (a : Nat) : Complex32 := { re := m.readF32 a, im := m.readF32 (a + 4) }

/-- `C[k]`. -/
def sample (P : Params) (m : Memory) (k : Nat) : Complex32 := m.readComplex (sampleAddr P k)

/-- `C[k] <- z`. -/
def setSample (P : Params) (k : Nat) (z : Complex32) (m : Memory) : Memory :=
  (m.writeF32 (sampleAddr P k) z.re).writeF32 (sampleAddr P k + 4) z.im

/-- `tw[k]`. -/
def twiddle (P : Params) (m : Memory) (k : Nat) : Complex32 := m.readComplex (twiddleAddr P k)

/-- The imaginary lane of `tw[k]` alone (42_butterflies.md R98, `epi`). -/
def twiddleIm (P : Params) (m : Memory) (k : Nat) : F32 := m.readF32 (twiddleAddr P k + 4)

end Sys2Proof.Machine
end

