-- ==== Sys2Proof/Machine/Butterfly.lean ====
section
/-!
DEFINITION. The butterfly commands BFLY3, BFLY4M1, BFLY4 and BFLY5 (42_butterflies.md R97 to R110). `m0` is the RAM as
the command finds it, from which every read is taken (20_memory.md R56, 42_butterflies.md R97); `m` is the RAM under
transformation.
-/

namespace Sys2Proof.Machine

/-- The three outputs of a radix-3 butterfly. -/
structure Out3 where
  g0 : Complex32
  g1 : Complex32
  g2 : Complex32
deriving DecidableEq, Repr

/-- The four outputs of a radix-4 butterfly. -/
structure Out4 where
  g0 : Complex32
  g1 : Complex32
  g2 : Complex32
  g3 : Complex32
deriving DecidableEq, Repr

/-- The five outputs of a radix-5 butterfly. -/
structure Out5 where
  g0 : Complex32
  g1 : Complex32
  g2 : Complex32
  g3 : Complex32
  g4 : Complex32
deriving DecidableEq, Repr

/-- The radix-3 butterfly (42_butterflies.md R98, R99). -/
def radix3 (epi : F32) (f0 f1 f2 : Complex32) : Out3 :=
  let sum := cadd f1 f2
  let diff := csub f1 f2
  let mid := csub f0 (chalf sum)
  let u := cscale diff epi
  { g0 := cadd f0 sum, g1 := addpj mid u, g2 := addmj mid u }

/-- The radix-4 butterfly and its output slots (42_butterflies.md R100 to R102). -/
def radix4 (f0 f1 f2 f3 : Complex32) : Out4 :=
  let a := cadd f0 f2
  let bb := cadd f1 f3
  let s0 := csub f0 f2
  let s1 := csub f1 f3
  { g0 := cadd a bb, g1 := addmj s0 s1, g2 := csub a bb, g3 := addpj s0 s1 }

/-- The radix-5 butterfly, with the grouping `f0 + (x + y)` of every three-term sum (42_butterflies.md R105, R106). -/
def radix5 (ya yb : Complex32) (f0 f1 f2 f3 f4 : Complex32) : Out5 :=
  let sa := cadd f1 f4
  let da := csub f1 f4
  let sb := cadd f2 f3
  let db := csub f2 f3
  let g0 : Complex32 :=
    { re := add32 f0.re (add32 sa.re sb.re), im := add32 f0.im (add32 sa.im sb.im) }
  let r1 : Complex32 :=
    { re := add32 f0.re (add32 (mul32 sa.re ya.re) (mul32 sb.re yb.re))
      im := add32 f0.im (add32 (mul32 sa.im ya.re) (mul32 sb.im yb.re)) }
  let q1 : Complex32 :=
    { re := add32 (mul32 da.im ya.im) (mul32 db.im yb.im)
      im := add32 (mul32 da.re ya.im) (mul32 db.re yb.im) }
  let r2 : Complex32 :=
    { re := add32 f0.re (add32 (mul32 sa.re yb.re) (mul32 sb.re ya.re))
      im := add32 f0.im (add32 (mul32 sa.im yb.re) (mul32 sb.im ya.re)) }
  let q2 : Complex32 :=
    { re := sub32 (mul32 db.im ya.im) (mul32 da.im yb.im)
      im := sub32 (mul32 da.re yb.im) (mul32 db.re ya.im) }
  { g0 := g0
    g1 := { re := sub32 r1.re q1.re, im := add32 r1.im q1.im }
    g2 := cadd r2 q2
    g3 := csub r2 q2
    g4 := { re := add32 r1.re q1.re, im := sub32 r1.im q1.im } }

/-- The results of BFLY3's group at complex index `b` (42_butterflies.md R98). -/
def bfly3Group (P : Params) (m0 : Memory) (b : Nat) : Out3 :=
  radix3 (twiddleIm P m0 P.fstride.toNat) (sample P m0 b) (sample P m0 (b + 1)) (sample P m0 (b + 2))

def bfly3Iter (P : Params) (m0 : Memory) (i : Nat) (m : Memory) : Memory :=
  let b := i * P.mm.toNat
  let g := bfly3Group P m0 b
  setSample P (b + 2) g.g2 (setSample P (b + 1) g.g1 (setSample P b g.g0 m))

/-- The RAM transformation of BFLY3 (42_butterflies.md R98). -/
def bfly3Ram (P : Params) (m0 : Memory) : Memory := forRange P.n.toNat (bfly3Iter P m0) m0

/-- The results of BFLY4M1's group at complex index `b` (42_butterflies.md R100). -/
def bfly4m1Group (P : Params) (m0 : Memory) (b : Nat) : Out4 :=
  radix4 (sample P m0 b) (sample P m0 (b + 1)) (sample P m0 (b + 2)) (sample P m0 (b + 3))

def bfly4m1Iter (P : Params) (m0 : Memory) (i : Nat) (m : Memory) : Memory :=
  let b := 4 * i
  let g := bfly4m1Group P m0 b
  setSample P (b + 3) g.g3 (setSample P (b + 2) g.g2 (setSample P (b + 1) g.g1 (setSample P b g.g0 m)))

/-- The RAM transformation of BFLY4M1 (42_butterflies.md R100). -/
def bfly4m1Ram (P : Params) (m0 : Memory) : Memory := forRange P.n.toNat (bfly4m1Iter P m0) m0

/-- The results of position `j` of BFLY4's group at complex index `b`: samples 1, 2 and 3 are multiplied by their
twiddle factors for every `j`, 0 included (42_butterflies.md R102, R103). -/
def bfly4Position (P : Params) (m0 : Memory) (b j : Nat) : Out4 :=
  let mult := P.m.toNat
  let fs := P.fstride.toNat
  let f0 := sample P m0 (b + j)
  let p1 := cmul (sample P m0 (b + j + mult)) (twiddle P m0 (j * fs))
  let p2 := cmul (sample P m0 (b + j + 2 * mult)) (twiddle P m0 (2 * j * fs))
  let p3 := cmul (sample P m0 (b + j + 3 * mult)) (twiddle P m0 (3 * j * fs))
  radix4 f0 p1 p2 p3

def bfly4PositionIter (P : Params) (m0 : Memory) (b j : Nat) (m : Memory) : Memory :=
  let mult := P.m.toNat
  let g := bfly4Position P m0 b j
  setSample P (b + j + 3 * mult) g.g3
    (setSample P (b + j + 2 * mult) g.g2
      (setSample P (b + j + mult) g.g1 (setSample P (b + j) g.g0 m)))

def bfly4Iter (P : Params) (m0 : Memory) (i : Nat) (m : Memory) : Memory :=
  forRange P.m.toNat (bfly4PositionIter P m0 (i * P.mm.toNat)) m

/-- The RAM transformation of BFLY4 (42_butterflies.md R102). -/
def bfly4Ram (P : Params) (m0 : Memory) : Memory := forRange P.n.toNat (bfly4Iter P m0) m0

/-- The results of BFLY5's group at complex index `b` (42_butterflies.md R105). -/
def bfly5Group (P : Params) (m0 : Memory) (b : Nat) : Out5 :=
  radix5 (twiddle P m0 P.fstride.toNat) (twiddle P m0 (2 * P.fstride.toNat))
    (sample P m0 b) (sample P m0 (b + 1)) (sample P m0 (b + 2)) (sample P m0 (b + 3)) (sample P m0 (b + 4))

def bfly5Iter (P : Params) (m0 : Memory) (i : Nat) (m : Memory) : Memory :=
  let b := i * P.mm.toNat
  let g := bfly5Group P m0 b
  setSample P (b + 4) g.g4
    (setSample P (b + 3) g.g3 (setSample P (b + 2) g.g2 (setSample P (b + 1) g.g1 (setSample P b g.g0 m))))

/-- The RAM transformation of BFLY5 (42_butterflies.md R105). -/
def bfly5Ram (P : Params) (m0 : Memory) : Memory := forRange P.n.toNat (bfly5Iter P m0) m0

/-- BFLY3 (42_butterflies.md R98). -/
def execBfly3 (s : State) : Result := runCommand .bfly3 bfly3Check bfly3Ram s

/-- BFLY4M1 (42_butterflies.md R100). -/
def execBfly4m1 (s : State) : Result := runCommand .bfly4m1 bfly4m1Check bfly4m1Ram s

/-- BFLY4 (42_butterflies.md R102). -/
def execBfly4 (s : State) : Result := runCommand .bfly4 bfly4Check bfly4Ram s

/-- BFLY5 (42_butterflies.md R105). -/
def execBfly5 (s : State) : Result := runCommand .bfly5 bfly5Check bfly5Ram s

end Sys2Proof.Machine
end

