-- ==== Sys2Proof/Machine/Rotation.lean ====
section
/-!
DEFINITION. The rotation commands PREROT and POSTROT (41_rotation.md R85 to R96). `m0` is the RAM as the command finds
it, from which every read is taken (20_memory.md R56); `m` is the RAM under transformation.
-/

namespace Sys2Proof.Machine

/-- A rotation pair: the two results `yr` and `yi`. -/
structure Rotated where
  yr : F32
  yi : F32
deriving DecidableEq, Repr

/-- What iteration `i` of PREROT computes: the spectral pair `x1`, `x2` narrowed first, then rotated by `t0`, `t1`
(41_rotation.md R87, R89). -/
def prerotPair (P : Params) (m0 : Memory) (i : Nat) : Rotated :=
  let x1 := narrow (spectral P m0 (2 * i))
  let x2 := narrow (spectral P m0 (P.n2.toNat - 1 - 2 * i))
  let t0 := trig P m0 i
  let t1 := trig P m0 (P.n4.toNat + i)
  { yr := add32 (mul32 x2 t0) (mul32 x1 t1)
    yi := sub32 (mul32 x1 t0) (mul32 x2 t1) }

/-- Iteration `i` of PREROT stores `yi` first, then `yr` (41_rotation.md R88, R89). -/
def prerotIter (P : Params) (m0 : Memory) (i : Nat) (m : Memory) : Memory :=
  let y := prerotPair P m0 i
  setFloat P (2 * i + 1) y.yr (setFloat P (2 * i) y.yi m)

/-- The RAM transformation of PREROT (41_rotation.md R89). -/
def prerotRam (P : Params) (m0 : Memory) : Memory := forRange P.n4.toNat (prerotIter P m0) m0

/-- The rotation of one POSTROT sample, read as (im, re) from float elements `k` and `k + 1`
(41_rotation.md R91, R93). -/
def postrotPair (P : Params) (m0 : Memory) (k : Nat) (t0 t1 : F32) : Rotated :=
  let im := floatAt P m0 k
  let re := floatAt P m0 (k + 1)
  { yr := add32 (mul32 re t0) (mul32 im t1)
    yi := sub32 (mul32 re t1) (mul32 im t0) }

/-- The low rotation of iteration `i` of POSTROT (41_rotation.md R91). -/
def postrotLow (P : Params) (m0 : Memory) (i : Nat) : Rotated :=
  postrotPair P m0 (2 * i) (trig P m0 i) (trig P m0 (P.n4.toNat + i))

/-- The high rotation of iteration `i` of POSTROT (41_rotation.md R91). -/
def postrotHigh (P : Params) (m0 : Memory) (i : Nat) : Rotated :=
  postrotPair P m0 (P.n2.toNat - 2 - 2 * i) (trig P m0 (P.n4.toNat - i - 1)) (trig P m0 (P.n2.toNat - i - 1))

/-- Iteration `i` of POSTROT: all four reads, then the four writes of the cross-write pattern
(41_rotation.md R91 to R93). -/
def postrotIter (P : Params) (m0 : Memory) (i : Nat) (m : Memory) : Memory :=
  let low := 2 * i
  let high := P.n2.toNat - 2 - 2 * i
  let yL := postrotLow P m0 i
  let yH := postrotHigh P m0 i
  setFloat P (low + 1) yH.yi (setFloat P high yH.yr (setFloat P (high + 1) yL.yi (setFloat P low yL.yr m)))

/-- The RAM transformation of POSTROT, `ceil(N4/2)` paired iterations (41_rotation.md R90, R91). -/
def postrotRam (P : Params) (m0 : Memory) : Memory := forRange ((P.n4.toNat + 1) / 2) (postrotIter P m0) m0

/-- PREROT (41_rotation.md R89). -/
def execPrerot (s : State) : Result := runCommand .prerot prerotCheck prerotRam s

/-- POSTROT (41_rotation.md R91). -/
def execPostrot (s : State) : Result := runCommand .postrot postrotCheck postrotRam s

end Sys2Proof.Machine
end

