-- ==== Sys2Proof/Machine/Dispatch.lean ====
section
/-!
DEFINITION. One arm for each command (30_encoding.md R62).
-/

namespace Sys2Proof.Machine

def exec (i : Instr) (s : State) : Host.Outcome State Fault Refusal :=
  match i with
  | .prerot => Sys2Proof.Machine.execPrerot s
  | .postrot => Sys2Proof.Machine.execPostrot s
  | .bfly3 => Sys2Proof.Machine.execBfly3 s
  | .bfly4m1 => Sys2Proof.Machine.execBfly4m1 s
  | .bfly4 => Sys2Proof.Machine.execBfly4 s
  | .bfly5 => Sys2Proof.Machine.execBfly5 s

end Sys2Proof.Machine
end

