-- ==== Sys2Proof/Machine/HostPort.lean ====
section
/-!
DEFINITION. The host's accesses (10_state.md R17 to R31, R35, R38, R40; 20_memory.md R42, R43, R49, R55, R57, R58;
60_exceptions.md R121, R124, R132). A write to CMD is not done here: it starts a command (`HostAction.start`).
-/

namespace Sys2Proof.Machine

/-- What a host access comes to. -/
inductive HostAction where
  /-- A write of `v` to CMD, which starts a command (60_exceptions.md R111). -/
  | start (v : Word)
  /-- The access has been performed. -/
  | moved (s : State)
  /-- The access is no access of IMDCT-RBE (60_exceptions.md R132). -/
  | refused (r : Refusal)
deriving DecidableEq, Repr

/-- What the host reads from a register, without any side effect (10_state.md R17 to R31, R38). -/
def readReg (r : Reg) (s : State) : Word :=
  match r with
  | .id => 0x494D4443#32
  | .version => 0x00010000#32
  | .ctrl => s.ctrlWord
  | .status => s.statusWord
  | .errcode => s.errCode.word
  | .errinfo => s.errInfoWord
  | .cmd => s.cmd
  | .n2 => s.params.n2
  | .n4 => s.params.n4
  | .n => s.params.n
  | .m => s.params.m
  | .mm => s.params.mm
  | .fstride => s.params.fstride
  | .srcAddr => s.params.srcAddr
  | .bufAddr => s.params.bufAddr
  | .trigAddr => s.params.trigAddr
  | .twAddr => s.params.twAddr

/-- What the host reads at a register offset: a reserved offset reads as 0 (10_state.md R35). -/
def readOffset (off : Nat) (s : State) : Word :=
  match regAt off with
  | some r => readReg r s
  | none => 0

/-- A write to CTRL: bit 1 performs the soft reset and discards bit 0; else bit 0 is IRQ_EN (10_state.md R18). -/
def writeCtrl (v : Word) (s : State) : State :=
  if v.getLsbD 1 then s.softReset else { s with irqEn := v.getLsbD 0 }

/-- A host write to a register; read-only registers ignore it (10_state.md R17 to R31, R40). -/
def writeReg (r : Reg) (v : Word) (s : State) : HostAction :=
  match r with
  | .id => .moved s
  | .version => .moved s
  | .ctrl => .moved (writeCtrl v s)
  | .status => .moved { s with status := s.status.writeOneToClear v }
  | .errcode => .moved s
  | .errinfo => .moved s
  | .cmd => .start v
  | .n2 => .moved { s with params := { s.params with n2 := v } }
  | .n4 => .moved { s with params := { s.params with n4 := v } }
  | .n => .moved { s with params := { s.params with n := v } }
  | .m => .moved { s with params := { s.params with m := v } }
  | .mm => .moved { s with params := { s.params with mm := v } }
  | .fstride => .moved { s with params := { s.params with fstride := v } }
  | .srcAddr => .moved { s with params := { s.params with srcAddr := v } }
  | .bufAddr => .moved { s with params := { s.params with bufAddr := v } }
  | .trigAddr => .moved { s with params := { s.params with trigAddr := v } }
  | .twAddr => .moved { s with params := { s.params with twAddr := v } }

/-- A host write at a register offset: a reserved offset ignores it (10_state.md R35). -/
def writeOffset (off : Nat) (v : Word) (s : State) : HostAction :=
  match regAt off with
  | some r => writeReg r v s
  | none => .moved s

/-- Whether the byte at `a` is in the write set of the running command. -/
def State.inRunningWrites (s : State) (a : Nat) : Bool :=
  match s.pending with
  | none => false
  | some p => inBlocks p.writes a

/-- The byte a host read returns: a byte of the running command's write set is a free draw (20_memory.md R58(a)). -/
def State.hostByte (s : State) (a : Nat) : Byte :=
  if s.inRunningWrites a then Config.freeByte s.draws a else s.mem.byte a

/-- Whether an access of `n` bytes at `a` reads a byte of the running command's write set. -/
def State.readDisturbed (s : State) (a n : Nat) : Bool :=
  match s.pending with
  | none => false
  | some p => blocksMeet p.writes [{ base := a, len := n }]

/-- A host read of `n` RAM bytes (20_memory.md R49, R58(a)); a read that draws uses up the draw's number. -/
def State.ramRead (a n : Nat) (s : State) : State :=
  { s with
    readData := littleEndian (fun i => s.hostByte (a + i)) n
    draws := if s.readDisturbed a n then s.draws + 1 else s.draws }

/-- The pending command after a host write of `n` bytes at `a`: a write into its footprint disturbs it
(20_memory.md R58(b)). -/
def Pending.afterWrite (a n : Nat) (p : Pending) : Pending :=
  { p with disturbed := p.disturbed || blocksMeet p.bytes [{ base := a, len := n }] }

/-- A host write of `n` RAM bytes changes exactly those (20_memory.md R49). -/
def State.ramWrite (a n : Nat) (v : BitVec 64) (s : State) : State :=
  { s with mem := s.mem.write a n v, pending := s.pending.map (Pending.afterWrite a n) }

/-- An access to the register block at offset `off` (10_state.md R38). -/
def registerAction (x : Access) (off : Nat) (s : State) : HostAction :=
  if registerAccessOk x.width off then
    match x with
    | .read _ _ => .moved { s with readData := (readOffset off s).setWidth 64 }
    | .write _ _ v => writeOffset off (v.setWidth 32) s
  else .refused .registerAccess

/-- An access to the RAM window at RAM byte `a` (20_memory.md R42, R49). -/
def ramAction (x : Access) (a : Nat) (s : State) : HostAction :=
  if ramAccessOk s.config x.width a then
    match x with
    | .read n _ => .moved (s.ramRead a n)
    | .write n _ v => .moved (s.ramWrite a n v)
  else .refused .ramAccess

/-- A host access at its host address (20_memory.md R42). -/
def hostAction (x : Access) (s : State) : HostAction :=
  match s.config.offset? x.addr with
  | none => .refused .outsideAperture
  | some off => if off < registerBlockBytes then registerAction x off s else ramAction x (off - registerBlockBytes) s

end Sys2Proof.Machine
end

