-- ==== Sys2Proof/Machine/Run.lean ====
section
/-!
DEFINITION. The steps of the two agents (00_scope.md R13): the host performs one access, a CMD write running the
command its word spells; the engine completes the pending command.
-/

namespace Sys2Proof.Machine

/-- A CMD write of `v`: the command its word spells, or the illegal start (30_encoding.md R63,
60_exceptions.md R111). -/
def runWord (v : Word) (s : State) : Result :=
  match decode v with
  | .ok i => exec i s
  | .error _ => .next (s.startIllegal v)

/-- The host's step: one access, performed whole (20_memory.md R57). -/
def hostStep (x : Access) (s : State) : Result :=
  match hostAction x s with
  | .start v => runWord v s
  | .moved t => .next t
  | .refused r => .refused r

/-- The engine's step: the completion of the pending command, "enabled only while STATUS.BUSY = 1"; an idle engine has
no step and the state stays (00_scope.md R13, 60_exceptions.md R119). -/
def engineStep (s : State) : Result :=
  match s.pending with
  | none => .next s
  | some p => exec p.op { s with mover := .engine }

/-- One turn, taken off the list. -/
def turnStep (t : Turn) (rest : List Turn) (s : State) : Result :=
  match t with
  | .host x => hostStep x { s with turns := rest, mover := .host }
  | .engine => engineStep { s with turns := rest }
  | .powerOn => .next { s with turns := rest }.powerOnReset

/-- With no turn left the engine has the step, so a pending command always completes after finitely many host steps
(70_reset_and_hazards.md R145). -/
def idleStep (s : State) : Result := engineStep s

/-- The host's write of a command word to CMD (30_encoding.md R66, `WR CMD`). -/
def cmdWrite (c : Config) (v : Word) : Access := .write 4 (regAddr c .cmd) (v.setWidth 64)

end Sys2Proof.Machine
end

