-- ==== Sys2Proof/Machine/Step.lean ====
section
/-!
DEFINITION. One step of the machine, and how an instruction is placed where the next step takes it from.
-/

namespace Sys2Proof.Machine

/-- One step: the next turn of the interleaving (70_reset_and_hazards.md R146). IMDCT-RBE fetches nothing: the host's
CMD writes are its instruction stream (10_state.md R15). -/
def step (s : State) : Host.Outcome State Fault Refusal :=
  match s.turns with
  | [] => idleStep s
  | t :: rest => turnStep t rest s

/-- `s` with the host's write of the word `w` to CMD as its next turn. -/
def State.withFetchWord (s : State) (_nbits w : Nat) : State :=
  { s with turns := .host (cmdWrite s.config (BitVec.ofNat 32 w)) :: s.turns }

end Sys2Proof.Machine
end

