-- ==== Sys2Proof/Machine/HostProgram.lean ====
section
/-!
DEFINITION. The spec's host notation (30_encoding.md R66 to R68): what each statement lists and where the host goes on
after it, the expansions of the pseudo-statements, and a host program run beside the engine, statement by statement,
with the list of the accesses it makes.
-/

namespace Sys2Proof.Machine

/-! ## Statements -/

/-- The line that a statement adds to the encoding at one evaluation of it, where its read returned `returned`; a label
adds none (30_encoding.md R66, R68). -/
def stmtListed (returned : BitVec 64) : Stmt → Option Listed
  | .wr r v => some { direction := .write, width := 4, offset := regOffset r, value := v.setWidth 64 }
  | .rd r => some { direction := .read, width := 4, offset := regOffset r, value := returned }
  | .wrf32 a v => some { direction := .write, width := 4, offset := registerBlockBytes + a, value := v.setWidth 64 }
  | .wrf64 a v => some { direction := .write, width := 8, offset := registerBlockBytes + a, value := v }
  | .rdf32 a => some { direction := .read, width := 4, offset := registerBlockBytes + a, value := returned }
  | .label _ => none
  | .poll r _ _ _ => some { direction := .read, width := 4, offset := regOffset r, value := returned }

/-- The host access of a line of the encoding, on the machine with parameters `c` (30_encoding.md R66). -/
def listedAccess (c : Config) (e : Listed) : Access :=
  match e.direction with
  | .read => .read e.width (c.engineBase + e.offset)
  | .write => .write e.width (c.engineBase + e.offset) e.value

/-- The last position at which a label stands. -/
def lastLabel (name : String) : List Stmt → Option Nat
  | [] => none
  | st :: rest =>
    match lastLabel name rest with
    | some j => some (j + 1)
    | none => if st = .label name then some 0 else none

/-- The position that a label names for the POLL at position `k`. Where the label stands once, that is its place
(30_encoding.md R66). DESIGN CHOICE (notes/assumptions/22.md), since R66 is silent on a label that stands more than once
or nowhere: the POLL takes the nearest one before it, else the first one after it, else the end of the program. With it
each WAIT, whose label is always `w` (R67), spins on itself. -/
def labelAt (name : String) (k : Nat) (prog : List Stmt) : Nat :=
  match lastLabel name (prog.take (k + 1)) with
  | some j => j
  | none => prog.findIdx fun st => st == .label name

/-- The position after the statement at `k`, whose read returned `v`: a POLL whose masked value differs continues at its
label, every other statement at the next one (30_encoding.md R66). -/
def nextStmt (prog : List Stmt) (k : Nat) (v : Word) : Nat :=
  match prog[k]? with
  | some (.poll _ mask value target) => if v &&& mask ≠ value then labelAt target k prog else k + 1
  | _ => k + 1

/-- The expansions of the pseudo-statements (30_encoding.md R67). -/
def expand : Pseudo → List Stmt
  | .cmd i => [.wr .cmd (encode i)]
  | .wait => [.label "w", .poll .status 0x1 0x0 "w"]
  | .clear => [.wr .status 0x0000000E]
  | .prerot n2 n4 src buf trig =>
    [.wr .n2 n2, .wr .n4 n4, .wr .srcAddr src, .wr .bufAddr buf, .wr .trigAddr trig, .wr .cmd (encode .prerot)]
  | .postrot n2 n4 buf trig =>
    [.wr .n2 n2, .wr .n4 n4, .wr .bufAddr buf, .wr .trigAddr trig, .wr .cmd (encode .postrot)]
  | .bfly3 n mm fstride buf tw =>
    [.wr .n n, .wr .mm mm, .wr .fstride fstride, .wr .bufAddr buf, .wr .twAddr tw, .wr .cmd (encode .bfly3)]
  | .bfly4m1 n buf => [.wr .n n, .wr .bufAddr buf, .wr .cmd (encode .bfly4m1)]
  | .bfly4 n m mm fstride buf tw =>
    [.wr .n n, .wr .m m, .wr .mm mm, .wr .fstride fstride, .wr .bufAddr buf, .wr .twAddr tw, .wr .cmd (encode .bfly4)]
  | .bfly5 n mm fstride buf tw =>
    [.wr .n n, .wr .mm mm, .wr .fstride fstride, .wr .bufAddr buf, .wr .twAddr tw, .wr .cmd (encode .bfly5)]

/-! ## A program beside the engine -/

/-- A host program in its run. `pos` and `listed` belong to the host and are no state of the engine
(30_encoding.md R66). -/
structure HostRun where
  /-- The engine. -/
  machine : State
  /-- The position of the host's next statement. -/
  pos : Nat
  /-- The turns taken since the run began, the latest last. -/
  turns : List Turn
  /-- The encoding of the run: its host accesses in order (30_encoding.md R68). -/
  listed : List Listed
deriving DecidableEq, Repr

/-- The outcome of a piece of a run. -/
abbrev HostResult := Host.Outcome HostRun Fault Refusal

/-- A program at its first statement. -/
def HostRun.start (s : State) : HostRun := { machine := s, pos := 0, turns := [], listed := [] }

/-- The machine's step on the turn `t`, which the run records; `next` says where the host stands after it. -/
def HostRun.takeTurn (t : Turn) (next : State → Nat × List Listed) (r : HostRun) : HostResult :=
  match step { r.machine with turns := [t] } with
  | .next s =>
    .next { machine := s, pos := (next s).1, turns := r.turns ++ [t], listed := r.listed ++ (next s).2 }
  | .fault e => .fault e
  | .refused e => .refused e

/-- The host's move: it evaluates the statement at its position, whose access is one step of the machine. A label is
passed without an access, and a program that is over makes no more moves. -/
def HostRun.hostMove (prog : List Stmt) (r : HostRun) : HostResult :=
  match prog[r.pos]? with
  | none => .next r
  | some st =>
    match stmtListed 0 st with
    | none => .next { r with pos := r.pos + 1 }
    | some e =>
      r.takeTurn (.host (listedAccess r.machine.config e)) fun s =>
        (nextStmt prog r.pos (s.readData.setWidth 32), (stmtListed s.readData st).toList)

/-- The engine's move (00_scope.md R13). -/
def HostRun.engineMove (r : HostRun) : HostResult := r.takeTurn .engine fun _ => (r.pos, [])

/-- A move of one of the two agents. -/
def HostRun.move (prog : List Stmt) (a : Agent) (r : HostRun) : HostResult :=
  match a with
  | .host => r.hostMove prog
  | .engine => r.engineMove

/-- The run of a program under a schedule: the agent of each move (70_reset_and_hazards.md R146). How often a POLL is
evaluated, and listed, depends on it (30_encoding.md R68). -/
def HostRun.run (prog : List Stmt) (schedule : List Agent) (r : HostRun) : HostResult :=
  match schedule with
  | [] => .next r
  | a :: rest =>
    match r.move prog a with
    | .next r' => r'.run prog rest
    | .fault e => .fault e
    | .refused e => .refused e

end Sys2Proof.Machine
end

