-- ==== Sys2Proof/Safety.lean ====
section
/-!
DEFINITION. What holds in every state that a run reaches, in the terms the statements use, and runs that end well.
-/

namespace Sys2Proof.Machine

/-- What the spec says of a pending command (10_state.md R25, R33; 60_exceptions.md R112, R118): its snapshot passed
the start checks, CMD holds its word, and DONE, ERR and ERRCODE were cleared by its start. -/
structure PendingOk (s : State) (p : Pending) : Prop where
  accepted : startCheck p.op s.config p.params = none
  word : s.cmd = encode p.op
  notDone : s.status.done = false
  notErr : s.status.err = false
  noCode : s.errCode = .none

/-- The invariant of the machine. -/
structure Inv (s : State) : Prop where
  /-- The parameters are legal (00_scope.md R6). -/
  legal : s.config.legal = true
  /-- The RAM keeps its canonical form. -/
  memWf : s.mem.wf = true
  /-- Only addresses below `MEM_BYTES` are written (20_memory.md R41). -/
  memBelow : s.mem.below s.config.memBytes = true
  /-- "STATUS.DONE and STATUS.ERR are never both 1" (10_state.md R21). -/
  notBoth : ¬ (s.status.done = true ∧ s.status.err = true)
  /-- A set ERR has a code, and without a code there is no info (10_state.md R23, R24). -/
  errHasCode : s.status.err = true → s.errCode ≠ .none
  noCodeNoInfo : s.errCode = .none → s.errInfo = 0
  /-- A set DONE comes from an accepted command, whose start cleared the code (60_exceptions.md R111). -/
  doneNoCode : s.status.done = true → s.errCode = .none
  /-- The pending command is an accepted one. -/
  pendingOk : ∀ p, s.pending = some p → PendingOk s p

/-- `Inv` of the state after a step, where there is one. -/
def InvAfter (o : Result) : Prop := ∀ t, o = .next t → Inv t

/-- A step that does not fault. -/
def NoFault (o : Result) : Prop := ∀ r, o ≠ .fault r

/-! ## The start checks in terms of byte sets -/

/-- The four base registers, in the order of their offsets, which is the order of the checks (60_exceptions.md R112). -/
def baseRegs : List Reg := [.srcAddr, .bufAddr, .trigAddr, .twAddr]

/-- The snapshot's value of a base register. -/
def baseOf (P : Params) : Reg → Nat
  | .srcAddr => P.srcAddr.toNat
  | .bufAddr => P.bufAddr.toNat
  | .trigAddr => P.trigAddr.toNat
  | .twAddr => P.twAddr.toNat
  | _ => 0

/-- The bytes a command touches through a base register (20_memory.md R51). -/
def regionOf (op : Instr) (P : Params) : Reg → List Block
  | .srcAddr => (footprint op P).src
  | .bufAddr => (footprint op P).buf
  | .trigAddr => (footprint op P).trig
  | .twAddr => (footprint op P).tw
  | _ => []

/-- Which base registers a command reads (10_state.md, table after R31). -/
def readsBase : Instr → Reg → Bool
  | _, .bufAddr => true
  | .prerot, .srcAddr => true
  | .prerot, .trigAddr => true
  | .postrot, .trigAddr => true
  | .bfly3, .twAddr => true
  | .bfly4, .twAddr => true
  | .bfly5, .twAddr => true
  | _, _ => false

/-- The alignment of a base register: 4 for TRIG_ADDR, 8 for the others (20_memory.md R47). -/
def baseUnit : Reg → Nat
  | .trigAddr => 4
  | _ => 8

/-- PREROT or POSTROT. -/
def isRotation (op : Instr) : Prop := op = .prerot ∨ op = .postrot

/-- The span of a group of BFLY3, BFLY4 and BFLY5, whose groups stand `MM` apart (20_memory.md R53(a)). -/
def spacedSpan : Instr → Params → Option Nat
  | .bfly3, _ => some 3
  | .bfly4, P => some (4 * P.m.toNat)
  | .bfly5, _ => some 5
  | _, _ => none

/-- A base register the command reads is misaligned. -/
def Misaligned (op : Instr) (P : Params) (r : Reg) : Prop :=
  readsBase op r = true ∧ baseOf P r % baseUnit r ≠ 0

/-- A byte touched through a base register is at or above `MEM_BYTES`. -/
def OutOfRange (op : Instr) (c : Config) (P : Params) (r : Reg) : Prop :=
  ∃ a, inBlocks (regionOf op P r) a = true ∧ c.memBytes ≤ a

/-- Two groups lie closer than their span. -/
def GroupsTooClose (op : Instr) (P : Params) : Prop :=
  ∃ span, spacedSpan op P = some span ∧ 2 ≤ P.n.toNat ∧ P.mm.toNat < span

/-- The write set shares a byte with what is read through another base register. -/
def OverlapsWrites (op : Instr) (P : Params) (r : Reg) : Prop :=
  r ≠ .bufAddr ∧ ∃ a, inBlocks (footprint op P).writes a = true ∧ inBlocks (regionOf op P r) a = true

/-- `r` is the first base register with the property. -/
def FirstBase (p : Reg → Prop) (r : Reg) : Prop :=
  r ∈ baseRegs ∧ p r ∧ ∀ r' ∈ baseRegs, regOffset r' < regOffset r → ¬ p r'

/-! ## Rounding in terms of exact values (40_numerics.md R69, R70) -/

/-- A finite binary32 pattern. -/
def isFinite32 (x : F32) : Prop := ∃ neg m e, unpack32 x = .fin neg m e

/-- A binary32 NaN. -/
def isNaN32 (x : F32) : Prop := unpack32 x = .nan

/-- `val` of a finite binary32 pattern. -/
def val32 (x : F32) : ℚ := (unpack32 x).rat

/-- `val` of a finite binary64 pattern. -/
def val64 (x : F64) : ℚ := (unpack64 x).rat

/-- `x` is `round32(r)` for a nonzero `r` (40_numerics.md R70): an infinity from `2^128 - 2^103` on, else the nearest
binary32 value, the one with an even fraction where two are nearest; a zero carries the sign of `r`. -/
def IsRounded (r : ℚ) (x : F32) : Prop :=
  (2 ^ 128 - 2 ^ 103 ≤ |r| → x = inf32 (decide (r < 0))) ∧
  (|r| < 2 ^ 128 - 2 ^ 103 →
    isFinite32 x ∧ x.getLsbD 31 = decide (r < 0) ∧
    (∀ y, isFinite32 y → |val32 x - r| ≤ |val32 y - r|) ∧
    (∀ y, isFinite32 y → |val32 y - r| = |val32 x - r| → val32 y ≠ val32 x → x.getLsbD 0 = false))

/-! ## What a completion leaves -/

/-- `t` is `s` after the completion of its pending command, but for the RAM (60_exceptions.md R119). -/
def CompletedBut (s t : State) : Prop :=
  t = { s with mem := t.mem, pending := none, status := { s.status with done := true } }

/-- The engine's step is to complete `op` with the snapshot `P`, which a start accepted, undisturbed. -/
structure Completing (op : Instr) (P : Params) (s : State) : Prop where
  mover : s.mover = .engine
  pending : s.pending = some { op := op, params := P, disturbed := false }
  accepted : startCheck op s.config P = none

/-- The byte at `a` is in the groups of a butterfly at `base`: `n` groups of `span` samples, `spacing` apart. -/
def InGroups (base n spacing span a : Nat) : Prop :=
  ∃ i, i < n ∧ base + 8 * (i * spacing) ≤ a ∧ a < base + 8 * (i * spacing + span)

end Sys2Proof.Machine
end

