-- ==== Sys2Proof/Certificates/Slice0/Obligations.lean ====
section
/-!
DEFINITION. The statements for the provers. A step takes the next turn off the state's list, so `{ s with turns := rest,
mover := .host }` is the state in which a host access is performed (log entries 1 and 7).
-/

open Sys2Proof Sys2Proof.Machine

/-! ## Command words -/

/-- 30_encoding.md R62: encoding a command and decoding its word gives it back. -/
def Obligations.EncodeThenDecodeGivesTheCommand : Prop :=
  ∀ i : Instr, i.wf = true → decode (encode i) = .ok i

/-- 30_encoding.md R62: "A command word selects a command exactly when it equals one of these values (RSV = 0)", over
all 2^32 words. -/
def Obligations.DecodeAcceptsExactlyTheCommandWords : Prop :=
  ∀ (w : Word) (i : Instr), decode w = .ok i ↔
    (w = 0x00000001#32 ∧ i = .prerot) ∨ (w = 0x00000002#32 ∧ i = .postrot) ∨ (w = 0x00000003#32 ∧ i = .bfly3) ∨
    (w = 0x00000004#32 ∧ i = .bfly4m1) ∨ (w = 0x00000005#32 ∧ i = .bfly4) ∨ (w = 0x00000006#32 ∧ i = .bfly5)

/-- 30_encoding.md R62, R63: words written out from the opcode map, and words that spell no command. -/
def Obligations.WrittenOutWordsDecode : Prop :=
  decodeTableWord 32 0x00000001 = some .prerot ∧ decodeTableWord 32 0x00000002 = some .postrot ∧
  decodeTableWord 32 0x00000003 = some .bfly3 ∧ decodeTableWord 32 0x00000004 = some .bfly4m1 ∧
  decodeTableWord 32 0x00000005 = some .bfly4 ∧ decodeTableWord 32 0x00000006 = some .bfly5 ∧
  decodeTableWord 32 0x00000000 = none ∧ decodeTableWord 32 0x00000007 = none ∧ decodeTableWord 32 0x00000011 = none

/-! ## What a step runs -/

/-- 10_state.md R15: a CMD write whose word decodes to `i` runs `i`. -/
def Obligations.StepRunsTheDecodedCommand : Prop :=
  ∀ (s : State) (rest : List Turn) (x : BitVec 64) (i : Instr),
    s.turns = .host (.write 4 (regAddr s.config .cmd) x) :: rest → decode (x.setWidth 32) = .ok i →
    step s = exec i { s with turns := rest, mover := .host }

/-- The word that `withFetchWord` places is run by the very next step (the model's own operation, log entry 2). -/
def Obligations.PlacedCommandRunsNext : Prop :=
  ∀ (s : State) (i : Instr), step (s.withFetchWord 32 (encode i).toNat) = exec i { s with mover := .host }

/-- 00_scope.md R13, 60_exceptions.md R119: the engine's step completes the pending command; with no turn left the
engine has the step (log entry 1). -/
def Obligations.EngineStepRunsThePendingCommand : Prop :=
  ∀ (s : State) (p : Pending), s.pending = some p →
    (s.turns = [] → step s = exec p.op { s with mover := .engine }) ∧
    (∀ rest, s.turns = .engine :: rest → step s = exec p.op { s with turns := rest, mover := .engine })

/-- 00_scope.md R13: the engine's step is enabled only while STATUS.BUSY = 1; an idle machine stays as it is (the
model's choice of how a machine without a step goes on, log entry 12). -/
def Obligations.IdleEngineChangesNothing : Prop :=
  ∀ s : State, s.pending = none →
    (s.turns = [] → step s = .next s) ∧
    (∀ rest, s.turns = .engine :: rest → step s = .next { s with turns := rest })

/-! ## The start of a command -/

/-- 60_exceptions.md R111, R117, R118: the handling of every CMD write, whole. -/
def Obligations.CmdWriteIsDroppedRejectedOrAccepted : Prop :=
  ∀ (s : State) (rest : List Turn) (x : BitVec 64),
    s.turns = .host (.write 4 (regAddr s.config .cmd) x) :: rest →
    (s.busy = true →
      step s = .next { s with turns := rest, mover := .host, status := { s.status with drop := true } }) ∧
    (s.busy = false →
      (∀ e, decode (x.setWidth 32) = .error e →
        step s = .next { s with
          turns := rest, mover := .host, cmd := x.setWidth 32
          status := { done := false, err := true, drop := s.status.drop }, errCode := .illegalOp, errInfo := 0x18 }) ∧
      (∀ i r, decode (x.setWidth 32) = .ok i → startCheck i s.config s.params = some r →
        step s = .next { s with
          turns := rest, mover := .host, cmd := x.setWidth 32
          status := { done := false, err := true, drop := s.status.drop }, errCode := r.code, errInfo := r.info }) ∧
      (∀ i, decode (x.setWidth 32) = .ok i → startCheck i s.config s.params = none →
        step s = .next { s with
          turns := rest, mover := .host, cmd := x.setWidth 32
          status := { done := false, err := false, drop := s.status.drop }, errCode := .none, errInfo := 0
          pending := some { op := i, params := s.params, disturbed := false } }))

/-- 60_exceptions.md R118: an accepted start makes the command pending with its snapshot and changes nothing in the
RAM. -/
def Obligations.AcceptedStartMakesTheCommandPending : Prop :=
  ∀ (i : Instr) (s : State), s.mover = .host → s.pending = none → startCheck i s.config s.params = none →
    exec i s = .next { s with
      cmd := encode i, status := { s.status with done := false, err := false }, errCode := .none, errInfo := 0
      pending := some { op := i, params := s.params, disturbed := false } }

/-- 60_exceptions.md R117: a rejected start reports and does nothing else. -/
def Obligations.RejectedStartReportsAndTouchesNothing : Prop :=
  ∀ (i : Instr) (s : State) (r : Rejection), s.mover = .host → s.pending = none →
    startCheck i s.config s.params = some r →
    exec i s = .next { s with
      cmd := encode i, status := { s.status with done := false, err := true }, errCode := r.code, errInfo := r.info }

/-- 60_exceptions.md R111 step 1: while a command is pending every start is dropped. -/
def Obligations.BusyEngineDropsEveryStart : Prop :=
  ∀ (i : Instr) (s : State) (p : Pending), s.mover = .host → s.pending = some p →
    exec i s = .next { s with status := { s.status with drop := true } }

/-- 20_memory.md R52, R53 with R47, R85 and R115: a start is accepted exactly when its sizes agree and it has no
iteration or its exact footprint is aligned, in the RAM and free of overlap. The byte sets are those of R51; the
checks of the model compare closed forms. -/
def Obligations.StartAcceptedExactlyWhenFootprintIsLegal : Prop :=
  ∀ (op : Instr) (c : Config) (P : Params),
    startCheck op c P = none ↔
      (isRotation op → P.n2.toNat = 2 * P.n4.toNat) ∧
      (zeroIterations op P = true ∨
        ((∀ r ∈ baseRegs, ¬ Misaligned op P r) ∧
         (∀ a, (inBlocks (footprint op P).reads a = true ∨ inBlocks (footprint op P).writes a = true) →
            a < c.memBytes) ∧
         ¬ GroupsTooClose op P ∧
         (∀ r ∈ baseRegs, ¬ OverlapsWrites op P r)))

/-- 60_exceptions.md R112, R114, R116: the error reported is that of the first failing check, and ERRINFO names its
register. -/
def Obligations.FirstFailingCheckDecidesTheReport : Prop :=
  ∀ (op : Instr) (c : Config) (P : Params),
    (isRotation op → P.n2.toNat ≠ 2 * P.n4.toNat → startCheck op c P = some { code := .param, info := 0x20 }) ∧
    ((isRotation op → P.n2.toNat = 2 * P.n4.toNat) → zeroIterations op P = false →
      (∀ r, FirstBase (Misaligned op P) r → startCheck op c P = some { code := .align, info := regInfo r }) ∧
      ((∀ r ∈ baseRegs, ¬ Misaligned op P r) →
        (∀ r, FirstBase (OutOfRange op c P) r → startCheck op c P = some { code := .range, info := regInfo r }) ∧
        ((∀ r ∈ baseRegs, ¬ OutOfRange op c P r) →
          (GroupsTooClose op P → startCheck op c P = some { code := .aliased, info := 0x30 }) ∧
          (¬ GroupsTooClose op P → ∀ r, FirstBase (OverlapsWrites op P) r →
            startCheck op c P = some { code := .aliased, info := regInfo r }))))

/-- 60_exceptions.md R115: a command with zero iterations is accepted whatever the addresses, FSTRIDE and MM hold, has
no footprint, and its completion touches no memory. -/
def Obligations.ZeroIterationCommandTouchesNoMemory : Prop :=
  ∀ (op : Instr) (P : Params), zeroIterations op P = true → (isRotation op → P.n2 = 0) →
    (∀ c, startCheck op c P = none) ∧
    (∀ s : State, s.mover = .host → s.pending = none → s.params = P →
      exec op s = .next { s with
        cmd := encode op, status := { s.status with done := false, err := false }, errCode := .none, errInfo := 0
        pending := some { op := op, params := P, disturbed := false } }) ∧
    (∀ a, inBlocks (footprint op P).reads a = false ∧ inBlocks (footprint op P).writes a = false) ∧
    (∀ s : State, s.mover = .engine → s.pending = some { op := op, params := P, disturbed := false } →
      exec op s = .next { s with pending := none, status := { s.status with done := true } })

/-! ## The six commands: results and frame of an accepted command's completion -/

/-- 41_rotation.md R87 to R89, 60_exceptions.md R119: PREROT. -/
def Obligations.PrerotWritesTheRotatedPairs : Prop :=
  ∀ (s : State) (P : Params), Completing .prerot P s →
    ∃ t, exec .prerot s = .next t ∧ CompletedBut s t ∧
      (∀ i, i < P.n4.toNat →
        let x1 := narrow (s.mem.readF64 (P.srcAddr.toNat + 8 * (2 * i)))
        let x2 := narrow (s.mem.readF64 (P.srcAddr.toNat + 8 * (P.n2.toNat - 1 - 2 * i)))
        let t0 := s.mem.readF32 (P.trigAddr.toNat + 4 * i)
        let t1 := s.mem.readF32 (P.trigAddr.toNat + 4 * (P.n4.toNat + i))
        t.mem.readF32 (P.bufAddr.toNat + 4 * (2 * i)) = sub32 (mul32 x1 t0) (mul32 x2 t1) ∧
        t.mem.readF32 (P.bufAddr.toNat + 4 * (2 * i + 1)) = add32 (mul32 x2 t0) (mul32 x1 t1)) ∧
      (∀ a, a < P.bufAddr.toNat ∨ P.bufAddr.toNat + 4 * P.n2.toNat ≤ a → t.mem.byte a = s.mem.byte a)

/-- 41_rotation.md R90 to R94, 60_exceptions.md R119: POSTROT, its cross-write pattern and its middle pair. -/
def Obligations.PostrotWritesTheCrossPattern : Prop :=
  ∀ (s : State) (P : Params), Completing .postrot P s →
    ∃ t, exec .postrot s = .next t ∧ CompletedBut s t ∧
      (∀ i, i < (P.n4.toNat + 1) / 2 →
        let F := fun k => s.mem.readF32 (P.bufAddr.toNat + 4 * k)
        let T := fun k => s.mem.readF32 (P.trigAddr.toNat + 4 * k)
        let F' := fun k => t.mem.readF32 (P.bufAddr.toNat + 4 * k)
        let low := 2 * i
        let high := P.n2.toNat - 2 - 2 * i
        let t0 := T i
        let t1 := T (P.n4.toNat + i)
        let u0 := T (P.n4.toNat - i - 1)
        let u1 := T (P.n2.toNat - i - 1)
        F' low = add32 (mul32 (F (low + 1)) t0) (mul32 (F low) t1) ∧
        F' (high + 1) = sub32 (mul32 (F (low + 1)) t1) (mul32 (F low) t0) ∧
        F' high = add32 (mul32 (F (high + 1)) u0) (mul32 (F high) u1) ∧
        F' (low + 1) = sub32 (mul32 (F (high + 1)) u1) (mul32 (F high) u0)) ∧
      (∀ a, a < P.bufAddr.toNat ∨ P.bufAddr.toNat + 4 * P.n2.toNat ≤ a → t.mem.byte a = s.mem.byte a)

/-- 42_butterflies.md R97 to R99, 60_exceptions.md R119: BFLY3. -/
def Obligations.Bfly3ComputesEveryGroup : Prop :=
  ∀ (s : State) (P : Params), Completing .bfly3 P s →
    ∃ t, exec .bfly3 s = .next t ∧ CompletedBut s t ∧
      (∀ i, i < P.n.toNat →
        let b := i * P.mm.toNat
        let C := fun k => s.mem.readComplex (P.bufAddr.toNat + 8 * k)
        let C' := fun k => t.mem.readComplex (P.bufAddr.toNat + 8 * k)
        let epi := s.mem.readF32 (P.twAddr.toNat + 8 * P.fstride.toNat + 4)
        let sum := cadd (C (b + 1)) (C (b + 2))
        let diff := csub (C (b + 1)) (C (b + 2))
        let mid := csub (C b) { re := half sum.re, im := half sum.im }
        let u := cscale diff epi
        C' b = cadd (C b) sum ∧ C' (b + 1) = addpj mid u ∧ C' (b + 2) = addmj mid u) ∧
      (∀ a, ¬ InGroups P.bufAddr.toNat P.n.toNat P.mm.toNat 3 a → t.mem.byte a = s.mem.byte a)

/-- 42_butterflies.md R97, R100, R101, 60_exceptions.md R119: BFLY4M1. -/
def Obligations.Bfly4m1ComputesEveryGroup : Prop :=
  ∀ (s : State) (P : Params), Completing .bfly4m1 P s →
    ∃ t, exec .bfly4m1 s = .next t ∧ CompletedBut s t ∧
      (∀ i, i < P.n.toNat →
        let b := 4 * i
        let C := fun k => s.mem.readComplex (P.bufAddr.toNat + 8 * k)
        let C' := fun k => t.mem.readComplex (P.bufAddr.toNat + 8 * k)
        let a := cadd (C b) (C (b + 2))
        let bb := cadd (C (b + 1)) (C (b + 3))
        let s0 := csub (C b) (C (b + 2))
        let s1 := csub (C (b + 1)) (C (b + 3))
        C' b = cadd a bb ∧ C' (b + 1) = addmj s0 s1 ∧ C' (b + 2) = csub a bb ∧ C' (b + 3) = addpj s0 s1) ∧
      (∀ a, a < P.bufAddr.toNat ∨ P.bufAddr.toNat + 32 * P.n.toNat ≤ a → t.mem.byte a = s.mem.byte a)

/-- 42_butterflies.md R97, R102, R103, 60_exceptions.md R119: BFLY4. -/
def Obligations.Bfly4ComputesEveryPosition : Prop :=
  ∀ (s : State) (P : Params), Completing .bfly4 P s →
    ∃ t, exec .bfly4 s = .next t ∧ CompletedBut s t ∧
      (∀ i j, i < P.n.toNat → j < P.m.toNat →
        let b := i * P.mm.toNat + j
        let M := P.m.toNat
        let C := fun k => s.mem.readComplex (P.bufAddr.toNat + 8 * k)
        let C' := fun k => t.mem.readComplex (P.bufAddr.toNat + 8 * k)
        let tw := fun k => s.mem.readComplex (P.twAddr.toNat + 8 * k)
        let p1 := cmul (C (b + M)) (tw (j * P.fstride.toNat))
        let p2 := cmul (C (b + 2 * M)) (tw (2 * j * P.fstride.toNat))
        let p3 := cmul (C (b + 3 * M)) (tw (3 * j * P.fstride.toNat))
        let a := cadd (C b) p2
        let bb := cadd p1 p3
        let s0 := csub (C b) p2
        let s1 := csub p1 p3
        C' b = cadd a bb ∧ C' (b + M) = addmj s0 s1 ∧ C' (b + 2 * M) = csub a bb ∧ C' (b + 3 * M) = addpj s0 s1) ∧
      (∀ a, ¬ InGroups P.bufAddr.toNat P.n.toNat P.mm.toNat (4 * P.m.toNat) a → t.mem.byte a = s.mem.byte a)

/-- 42_butterflies.md R97, R105, R106, 60_exceptions.md R119: BFLY5. -/
def Obligations.Bfly5ComputesEveryGroup : Prop :=
  ∀ (s : State) (P : Params), Completing .bfly5 P s →
    ∃ t, exec .bfly5 s = .next t ∧ CompletedBut s t ∧
      (∀ i, i < P.n.toNat →
        let b := i * P.mm.toNat
        let C := fun k => s.mem.readComplex (P.bufAddr.toNat + 8 * k)
        let C' := fun k => t.mem.readComplex (P.bufAddr.toNat + 8 * k)
        let ya := s.mem.readComplex (P.twAddr.toNat + 8 * P.fstride.toNat)
        let yb := s.mem.readComplex (P.twAddr.toNat + 8 * (2 * P.fstride.toNat))
        let f0 := C b
        let sa := cadd (C (b + 1)) (C (b + 4))
        let da := csub (C (b + 1)) (C (b + 4))
        let sb := cadd (C (b + 2)) (C (b + 3))
        let db := csub (C (b + 2)) (C (b + 3))
        let r1re := add32 f0.re (add32 (mul32 sa.re ya.re) (mul32 sb.re yb.re))
        let r1im := add32 f0.im (add32 (mul32 sa.im ya.re) (mul32 sb.im yb.re))
        let q1re := add32 (mul32 da.im ya.im) (mul32 db.im yb.im)
        let q1im := add32 (mul32 da.re ya.im) (mul32 db.re yb.im)
        let r2re := add32 f0.re (add32 (mul32 sa.re yb.re) (mul32 sb.re ya.re))
        let r2im := add32 f0.im (add32 (mul32 sa.im yb.re) (mul32 sb.im ya.re))
        let q2re := sub32 (mul32 db.im ya.im) (mul32 da.im yb.im)
        let q2im := sub32 (mul32 da.re yb.im) (mul32 db.re ya.im)
        C' b = { re := add32 f0.re (add32 sa.re sb.re), im := add32 f0.im (add32 sa.im sb.im) } ∧
        C' (b + 1) = { re := sub32 r1re q1re, im := add32 r1im q1im } ∧
        C' (b + 2) = { re := add32 r2re q2re, im := add32 r2im q2im } ∧
        C' (b + 3) = { re := sub32 r2re q2re, im := sub32 r2im q2im } ∧
        C' (b + 4) = { re := add32 r1re q1re, im := sub32 r1im q1im }) ∧
      (∀ a, ¬ InGroups P.bufAddr.toNat P.n.toNat P.mm.toNat 5 a → t.mem.byte a = s.mem.byte a)

/-- 41_rotation.md R94: for odd N4 the middle pair of POSTROT is computed alike by both halves. -/
def Obligations.PostrotMiddlePairAgrees : Prop :=
  ∀ (P : Params) (m : Memory), P.n2.toNat = 2 * P.n4.toNat → P.n4.toNat % 2 = 1 →
    postrotHigh P m ((P.n4.toNat - 1) / 2) = postrotLow P m ((P.n4.toNat - 1) / 2)

/-- 40_numerics.md R72: every NaN the engine writes to the RAM is the canonical one, in every 4-byte lane of the write
set. -/
def Obligations.EveryNaNWrittenIsCanonical : Prop :=
  ∀ (op : Instr) (P : Params) (s t : State), Completing op P s → exec op s = .next t →
    ∀ b ∈ (footprint op P).writes, ∀ k, 4 * k < b.len →
      isNaN32 (t.mem.readF32 (b.base + 4 * k)) → t.mem.readF32 (b.base + 4 * k) = 0x7FC00000#32

/-- 20_memory.md R50, R56: a completion is a function of the snapshot and of the bytes of the read set alone, and
writes only the write set. -/
def Obligations.CompletionReadsOnlyTheReadSet : Prop :=
  ∀ (op : Instr) (P : Params) (s s' t t' : State),
    Completing op P s → Completing op P s' →
    (∀ a, inBlocks (footprint op P).reads a = true → s.mem.byte a = s'.mem.byte a) →
    exec op s = .next t → exec op s' = .next t' →
    (∀ a, inBlocks (footprint op P).writes a = true → t.mem.byte a = t'.mem.byte a) ∧
    (∀ a, inBlocks (footprint op P).writes a = false → t.mem.byte a = s.mem.byte a)

/-- 70_reset_and_hazards.md R139, 10_state.md R32: the live parameter registers do not reach a pending command. -/
def Obligations.CompletionIgnoresTheLiveParameters : Prop :=
  ∀ (op : Instr) (s : State) (Q : Params), s.mover = .engine →
    (∀ t, exec op s = .next t → exec op { s with params := Q } = .next { t with params := Q }) ∧
    (∀ r, exec op s = .fault r → exec op { s with params := Q } = .fault r)

/-- 20_memory.md R58(b): the completion of a command whose footprint the host wrote leaves a free draw in every byte of
its write set, and every other byte as it was. The number of the draw is the model's (log entry 5). -/
def Obligations.DisturbedCompletionLeavesFreeDraws : Prop :=
  ∀ (op : Instr) (P : Params) (s : State), s.mover = .engine →
    s.pending = some { op := op, params := P, disturbed := true } → startCheck op s.config P = none →
    ∃ t, exec op s = .next t ∧
      t = { s with mem := t.mem, pending := none, status := { s.status with done := true }, draws := s.draws + 1 } ∧
      (∀ a, inBlocks (footprint op P).writes a = true → t.mem.byte a = Config.freeByte s.draws a) ∧
      (∀ a, inBlocks (footprint op P).writes a = false → t.mem.byte a = s.mem.byte a)

/-! ## Reset -/

/-- 10_state.md R39: every register after a power-on reset and after a soft reset, for every machine; after power-on
every RAM byte is its free draw (log entries 4 and 5; the RAM after a soft reset is the next statement's). -/
def Obligations.BothResetsLeaveTheResetValues : Prop :=
  (∀ (c : Config) (d : Nat),
    readReg .id (State.powerOn c d) = 0x494D4443#32 ∧ readReg .version (State.powerOn c d) = 0x00010000#32 ∧
    (∀ r, r ≠ .id → r ≠ .version → readReg r (State.powerOn c d) = 0) ∧
    (State.powerOn c d).pending = none ∧ (State.powerOn c d).irq = false ∧
    (∀ a, (State.powerOn c d).mem.byte a = Config.freeByte d a)) ∧
  (∀ (s : State) (rest : List Turn) (x : BitVec 64),
    s.turns = .host (.write 4 (regAddr s.config .ctrl) x) :: rest → x.getLsbD 1 = true →
    ∃ t, step s = .next t ∧
      readReg .id t = 0x494D4443#32 ∧ readReg .version t = 0x00010000#32 ∧
      (∀ r, r ≠ .id → r ≠ .version → readReg r t = 0) ∧ t.pending = none ∧ t.irq = false)

/-- 70_reset_and_hazards.md R135: soft reset by a host write to CTRL with bit 1 = 1, idle or busy. The number of the
draw and the fields `turns`, `mover`, `readData` and `draws` are the model's own (log entries 1 and 5 to 7). -/
def Obligations.SoftResetRestoresTheRegisters : Prop :=
  ∀ (s : State) (rest : List Turn) (x : BitVec 64),
    s.turns = .host (.write 4 (regAddr s.config .ctrl) x) :: rest → x.getLsbD 1 = true →
    ∃ t, step s = .next t ∧
      t = { State.powerOn s.config 0 with
            mem := t.mem, turns := rest, mover := .host, readData := s.readData, draws := t.draws } ∧
      t.irq = false ∧
      (s.pending = none → t.mem = s.mem) ∧
      (∀ p, s.pending = some p →
        (∀ a, inBlocks p.writes a = true → t.mem.byte a = Config.freeByte s.draws a) ∧
        (∀ a, inBlocks p.writes a = false → t.mem.byte a = s.mem.byte a))

/-- 70_reset_and_hazards.md R133, as an event of a running machine (the model's turn, log entry 16). -/
def Obligations.PowerOnResetForgetsTheRam : Prop :=
  ∀ (s : State) (rest : List Turn), s.turns = .powerOn :: rest →
    ∃ t, step s = .next t ∧ (∀ a, t.mem.byte a = Config.freeByte s.draws a) ∧
      t = { State.powerOn s.config s.draws with turns := rest, mover := s.mover, readData := s.readData }

/-! ## Registers, status and interrupt -/

/-- 10_state.md R17: ID and VERSION read their constants in every state, and ignore writes. -/
def Obligations.IdAndVersionAreConstant : Prop :=
  ∀ s : State,
    readReg .id s = 0x494D4443#32 ∧ readReg .version s = 0x00010000#32 ∧
    ((readReg .version s).extractLsb' 16 16).toNat = 1 ∧ ((readReg .version s).extractLsb' 0 16).toNat = 0 ∧
    (∀ (rest : List Turn) (x : BitVec 64) (r : Reg), r = .id ∨ r = .version →
      s.turns = .host (.write 4 (regAddr s.config r) x) :: rest →
      step s = .next { s with turns := rest, mover := .host })

/-- 10_state.md R26 to R31: a parameter or address register holds all 32 bits written, at any time, and nothing else
changes. -/
def Obligations.ParameterRegistersHoldWhatIsWritten : Prop :=
  ∀ (s : State) (rest : List Turn) (x : BitVec 64) (r : Reg),
    r ∈ [Reg.n2, .n4, .n, .m, .mm, .fstride, .srcAddr, .bufAddr, .trigAddr, .twAddr] →
    s.turns = .host (.write 4 (regAddr s.config r) x) :: rest →
    ∃ t, step s = .next t ∧ readReg r t = x.setWidth 32 ∧ (∀ r', r' ≠ r → readReg r' t = readReg r' s) ∧
      t = { s with turns := rest, mover := .host, params := t.params }

/-- 10_state.md R17, R23, R24, R35, R40: read-only registers and reserved offsets ignore writes. -/
def Obligations.ReadOnlyAndReservedOffsetsIgnoreWrites : Prop :=
  ∀ (s : State) (rest : List Turn) (x : BitVec 64) (off : Nat),
    off < 0x10000 → off % 4 = 0 →
    (regAt off = none ∨ regAt off = some .id ∨ regAt off = some .version ∨ regAt off = some .errcode ∨
      regAt off = some .errinfo) →
    s.turns = .host (.write 4 (s.config.engineBase + off) x) :: rest →
    step s = .next { s with turns := rest, mover := .host }

/-- 10_state.md section 2 (the register map), R17 to R31, R35, R38, 60_exceptions.md R113: the address of every register,
and what the host reads at every offset of the register block, bit by bit; the read changes nothing but the value on the
host's port (the field `readData` of log entry 6). -/
def Obligations.RegisterReadsHaveNoSideEffect : Prop :=
  (∀ c : Config,
    regAddr c .id = c.engineBase + 0x000 ∧ regAddr c .version = c.engineBase + 0x004 ∧
    regAddr c .ctrl = c.engineBase + 0x008 ∧ regAddr c .status = c.engineBase + 0x00C ∧
    regAddr c .errcode = c.engineBase + 0x010 ∧ regAddr c .errinfo = c.engineBase + 0x014 ∧
    regAddr c .cmd = c.engineBase + 0x018 ∧
    regAddr c .n2 = c.engineBase + 0x020 ∧ regAddr c .n4 = c.engineBase + 0x024 ∧
    regAddr c .n = c.engineBase + 0x028 ∧ regAddr c .m = c.engineBase + 0x02C ∧
    regAddr c .mm = c.engineBase + 0x030 ∧ regAddr c .fstride = c.engineBase + 0x034 ∧
    regAddr c .srcAddr = c.engineBase + 0x040 ∧ regAddr c .bufAddr = c.engineBase + 0x044 ∧
    regAddr c .trigAddr = c.engineBase + 0x048 ∧ regAddr c .twAddr = c.engineBase + 0x04C) ∧
  (∀ (s : State) (rest : List Turn) (off : Nat), off < 0x10000 → off % 4 = 0 →
    s.turns = .host (.read 4 (s.config.engineBase + off)) :: rest →
    ∃ v : Word, step s = .next { s with turns := rest, mover := .host, readData := v.setWidth 64 } ∧
      (∀ r, regAt off = some r → v = readReg r s) ∧
      (off = 0x000 → v = 0x494D4443) ∧ (off = 0x004 → v = 0x00010000) ∧
      (off = 0x008 → v.getLsbD 0 = s.irqEn ∧ ∀ k, 1 ≤ k → v.getLsbD k = false) ∧
      (off = 0x00C →
        v.getLsbD 0 = s.pending.isSome ∧ v.getLsbD 1 = s.status.done ∧ v.getLsbD 2 = s.status.err ∧
        v.getLsbD 3 = s.status.drop ∧ ∀ k, 4 ≤ k → v.getLsbD k = false) ∧
      (off = 0x010 →
        (s.errCode = .none → v = 0) ∧ (s.errCode = .illegalOp → v = 1) ∧ (s.errCode = .param → v = 2) ∧
        (s.errCode = .align → v = 3) ∧ (s.errCode = .range → v = 4) ∧ (s.errCode = .aliased → v = 5)) ∧
      (off = 0x014 → v.toNat = s.errInfo.toNat) ∧ (off = 0x018 → v = s.cmd) ∧
      (off = 0x020 → v = s.params.n2) ∧ (off = 0x024 → v = s.params.n4) ∧
      (off = 0x028 → v = s.params.n) ∧ (off = 0x02C → v = s.params.m) ∧
      (off = 0x030 → v = s.params.mm) ∧ (off = 0x034 → v = s.params.fstride) ∧
      (off = 0x040 → v = s.params.srcAddr) ∧ (off = 0x044 → v = s.params.bufAddr) ∧
      (off = 0x048 → v = s.params.trigAddr) ∧ (off = 0x04C → v = s.params.twAddr) ∧
      (off = 0x01C ∨ off = 0x038 ∨ off = 0x03C ∨ 0x050 ≤ off → v = 0))

/-- 60_exceptions.md R121: a written 1 in bit 1, 2 or 3 clears DONE, ERR or DROP; every other bit written changes
nothing, and BUSY, ERRCODE and ERRINFO keep their values. -/
def Obligations.StatusWriteClearsWrittenOnes : Prop :=
  ∀ (s : State) (rest : List Turn) (x : BitVec 64),
    s.turns = .host (.write 4 (regAddr s.config .status) x) :: rest →
    ∃ t, step s = .next t ∧ t = { s with turns := rest, mover := .host, status := t.status } ∧
      (x.getLsbD 1 = true → t.status.done = false) ∧ (x.getLsbD 1 = false → t.status.done = s.status.done) ∧
      (x.getLsbD 2 = true → t.status.err = false) ∧ (x.getLsbD 2 = false → t.status.err = s.status.err) ∧
      (x.getLsbD 3 = true → t.status.drop = false) ∧ (x.getLsbD 3 = false → t.status.drop = s.status.drop) ∧
      (readReg .status t).getLsbD 0 = (readReg .status s).getLsbD 0

/-- 10_state.md R18: a CTRL write with bit 1 = 0 sets IRQ_EN to bit 0 at once and does nothing else. -/
def Obligations.CtrlWriteSetsTheInterruptEnable : Prop :=
  ∀ (s : State) (rest : List Turn) (x : BitVec 64),
    s.turns = .host (.write 4 (regAddr s.config .ctrl) x) :: rest → x.getLsbD 1 = false →
    step s = .next { s with turns := rest, mover := .host, irqEn := x.getLsbD 0 }

/-- 10_state.md R34: `irq` is the level CTRL.IRQ_EN AND (STATUS.DONE OR STATUS.ERR), in the words the host reads. -/
def Obligations.IrqFollowsTheReadableBits : Prop :=
  ∀ s : State, s.irq =
    ((readReg .ctrl s).getLsbD 0 && ((readReg .status s).getLsbD 1 || (readReg .status s).getLsbD 2))

/-- 10_state.md R22: DROP is sticky; only a STATUS write with bit 3 or a reset clears it. -/
def Obligations.OnlyTheHostOrAResetClearsDrop : Prop :=
  ∀ s t : State, step s = .next t → s.status.drop = true → t.status.drop = false →
    (∃ x rest, s.turns = .host (.write 4 (regAddr s.config .status) x) :: rest ∧ x.getLsbD 3 = true) ∨
    (∃ x rest, s.turns = .host (.write 4 (regAddr s.config .ctrl) x) :: rest ∧ x.getLsbD 1 = true) ∨
    (∃ rest, s.turns = .powerOn :: rest)

/-- 10_state.md R19: BUSY falls only by the command's completion, which sets DONE, or by a reset. -/
def Obligations.BusyEndsOnlyByCompletionOrReset : Prop :=
  ∀ s t : State, step s = .next t → s.busy = true → t.busy = false →
    ((s.turns = [] ∨ ∃ rest, s.turns = .engine :: rest) ∧ t.status.done = true) ∨
    (∃ x rest, s.turns = .host (.write 4 (regAddr s.config .ctrl) x) :: rest ∧ x.getLsbD 1 = true) ∨
    (∃ rest, s.turns = .powerOn :: rest)

/-! ## The RAM window -/

/-- 20_memory.md R49, R43: a host write changes exactly the bytes it names, little-endian. No register
changes: a pending command stays pending with its opcode and its snapshot. -/
def Obligations.HostRamWriteChangesExactlyItsBytes : Prop :=
  ∀ (s : State) (rest : List Turn) (n a : Nat) (v : BitVec 64),
    ramAccessOk s.config n a = true → s.turns = .host (.write n (ramAddr s.config a) v) :: rest →
    ∃ t, step s = .next t ∧ t = { s with turns := rest, mover := .host, mem := t.mem, pending := t.pending } ∧
      (s.pending = none → t.pending = none) ∧
      (∀ p, s.pending = some p → ∃ d, t.pending = some { p with disturbed := d }) ∧
      (∀ k, k < n → t.mem.byte (a + k) = v.extractLsb' (8 * k) 8) ∧
      (∀ b, b < a ∨ a + n ≤ b → t.mem.byte b = s.mem.byte b)

/-- 20_memory.md R43, R49, R55: with no command running, a host read returns the bytes, little-endian and zero-extended,
and changes nothing. -/
def Obligations.HostRamReadReturnsTheBytes : Prop :=
  ∀ (s : State) (rest : List Turn) (n a : Nat), s.pending = none →
    ramAccessOk s.config n a = true → s.turns = .host (.read n (ramAddr s.config a)) :: rest →
    ∃ t, step s = .next t ∧ t = { s with turns := rest, mover := .host, readData := t.readData } ∧
      (∀ k, k < n → t.readData.extractLsb' (8 * k) 8 = s.mem.byte (a + k)) ∧ t.readData.toNat < 2 ^ (8 * n)

/-- 20_memory.md R57, R43: what the host writes it reads back, in the next step. -/
def Obligations.HostReadsBackWhatItWrote : Prop :=
  ∀ (s : State) (rest : List Turn) (n a : Nat) (v : BitVec 64), s.pending = none →
    ramAccessOk s.config n a = true →
    s.turns = .host (.write n (ramAddr s.config a) v) :: .host (.read n (ramAddr s.config a)) :: rest →
    ∃ t, Host.Core.run Sys2Proof.core 2 s = .next t ∧ t.turns = rest ∧ t.readData.toNat = v.toNat % 2 ^ (8 * n)

/-- 20_memory.md R58(a): a host read of the running command's write set returns a free draw in those bytes, and the RAM's
bytes elsewhere. That a read draws once, byte by byte, is the model's form (log entries 5 and 14). -/
def Obligations.HostReadOfTheRunningWriteSetIsAFreeDraw : Prop :=
  ∀ (s : State) (rest : List Turn) (n a : Nat) (p : Pending), s.pending = some p →
    ramAccessOk s.config n a = true → s.turns = .host (.read n (ramAddr s.config a)) :: rest →
    ∃ t, step s = .next t ∧
      t = { s with turns := rest, mover := .host, readData := t.readData, draws := t.draws } ∧
      (∀ k, k < n → inBlocks p.writes (a + k) = true →
        t.readData.extractLsb' (8 * k) 8 = Config.freeByte s.draws (a + k)) ∧
      (∀ k, k < n → inBlocks p.writes (a + k) = false → t.readData.extractLsb' (8 * k) 8 = s.mem.byte (a + k)) ∧
      ((∃ k, k < n ∧ inBlocks p.writes (a + k) = true) → t.draws = s.draws + 1)

/-- 20_memory.md R58(b): exactly a host write of a byte of the running command's footprint disturbs it. -/
def Obligations.HostWriteIntoTheFootprintDisturbs : Prop :=
  ∀ (s : State) (rest : List Turn) (n a : Nat) (v : BitVec 64) (p : Pending), s.pending = some p →
    ramAccessOk s.config n a = true → s.turns = .host (.write n (ramAddr s.config a) v) :: rest →
    ∃ t, step s = .next t ∧
      ((∃ k, k < n ∧ inBlocks p.bytes (a + k) = true) → t.pending = some { p with disturbed := true }) ∧
      ((∀ k, k < n → inBlocks p.bytes (a + k) = false) → t.pending = some p)

/-- 60_exceptions.md R132, 10_state.md R38, 20_memory.md R42, R49: a host access is the engine's exactly when it is 32 bits
wide and aligned in the register block, or 1, 2, 4 or 8 bytes wide, aligned and inside the RAM window; then the step
answers a next state, and otherwise it is refused. That alignment is by offset
and that an access outside the aperture is refused too are the model's reading (log entries 10 and 11). -/
def Obligations.ExactlyTheIllFormedAccessesAreRefused : Prop :=
  ∀ (s : State) (rest : List Turn) (x : Access), s.turns = .host x :: rest →
    let isAccess := ∃ off, x.addr = s.config.engineBase + off ∧
      ((off < 0x10000 ∧ x.width = 4 ∧ off % 4 = 0) ∨
        (∃ a, off = 0x10000 + a ∧ (x.width = 1 ∨ x.width = 2 ∨ x.width = 4 ∨ x.width = 8) ∧ a % x.width = 0 ∧
          a + x.width ≤ s.config.memBytes))
    (x.wf s.config = true ↔ isAccess) ∧ (isAccess → ∃ t, step s = .next t) ∧
    (¬ isAccess → ∃ r, step s = .refused r)

/-! ## Arithmetic -/

/-- 40_numerics.md R70: `round32` is IEEE 754 roundTiesToEven, for every exact value `±m * 2^e`. -/
def Obligations.Round32IsRoundTiesToEven : Prop :=
  ∀ (neg : Bool) (m : Nat) (e : Int), m ≠ 0 →
    IsRounded ((if neg then -1 else 1) * (m : ℚ) * (2 : ℚ) ^ e) (round32 neg m e)

/-- 40_numerics.md R73: `add32` on operands that are no NaN. -/
def Obligations.Add32RoundsTheExactSum : Prop :=
  ∀ a b : F32,
    (∀ na nb, unpack32 a = .inf na → unpack32 b = .inf nb → na ≠ nb → add32 a b = 0x7FC00000#32) ∧
    (∀ na nb, unpack32 a = .inf na → unpack32 b = .inf nb → na = nb → add32 a b = a) ∧
    (∀ na, unpack32 a = .inf na → isFinite32 b → add32 a b = a) ∧
    (∀ nb, isFinite32 a → unpack32 b = .inf nb → add32 a b = b) ∧
    (isFinite32 a → isFinite32 b →
      (val32 a + val32 b ≠ 0 → IsRounded (val32 a + val32 b) (add32 a b)) ∧
      (val32 a + val32 b = 0 → a = 0x80000000#32 → b = 0x80000000#32 → add32 a b = 0x80000000#32) ∧
      (val32 a + val32 b = 0 → ¬ (a = 0x80000000#32 ∧ b = 0x80000000#32) → add32 a b = 0x00000000#32))

/-- 40_numerics.md R76: `mul32` on operands that are no NaN. -/
def Obligations.Mul32RoundsTheExactProduct : Prop :=
  ∀ a b : F32, ¬ isNaN32 a → ¬ isNaN32 b →
    (¬ isFinite32 a → isFinite32 b → val32 b = 0 → mul32 a b = 0x7FC00000#32) ∧
    (isFinite32 a → ¬ isFinite32 b → val32 a = 0 → mul32 a b = 0x7FC00000#32) ∧
    (¬ isFinite32 a → (isFinite32 b → val32 b ≠ 0) → mul32 a b = inf32 (a.getLsbD 31 != b.getLsbD 31)) ∧
    (¬ isFinite32 b → (isFinite32 a → val32 a ≠ 0) → mul32 a b = inf32 (a.getLsbD 31 != b.getLsbD 31)) ∧
    (isFinite32 a → isFinite32 b →
      (val32 a * val32 b ≠ 0 → IsRounded (val32 a * val32 b) (mul32 a b)) ∧
      (val32 a * val32 b = 0 → mul32 a b = zero32 (a.getLsbD 31 != b.getLsbD 31)))

/-- 40_numerics.md R77: `narrow`. -/
def Obligations.NarrowRoundsTheExactValue : Prop :=
  ∀ d : F64,
    (unpack64 d = .nan → narrow d = 0x7FC00000#32) ∧
    (∀ neg, unpack64 d = .inf neg → narrow d = inf32 neg) ∧
    (∀ neg m e, unpack64 d = .fin neg m e →
      (m = 0 → narrow d = zero32 neg) ∧ (m ≠ 0 → IsRounded (val64 d) (narrow d)))

/-- 40_numerics.md R72: a NaN operand gives the canonical NaN, and no other NaN is ever a result. -/
def Obligations.OnlyTheCanonicalNaNResults : Prop :=
  ∀ (a b : F32) (d : F64),
    (isNaN32 a ∨ isNaN32 b →
      add32 a b = 0x7FC00000#32 ∧ sub32 a b = 0x7FC00000#32 ∧ mul32 a b = 0x7FC00000#32) ∧
    (isNaN32 (add32 a b) → add32 a b = 0x7FC00000#32) ∧ (isNaN32 (sub32 a b) → sub32 a b = 0x7FC00000#32) ∧
    (isNaN32 (mul32 a b) → mul32 a b = 0x7FC00000#32) ∧ (isNaN32 (narrow d) → narrow d = 0x7FC00000#32)

/-- 40_numerics.md R75, R76: addition and multiplication commute bit for bit. -/
def Obligations.AddAndMulCommute : Prop :=
  ∀ a b : F32, add32 a b = add32 b a ∧ mul32 a b = mul32 b a

/-- 40_numerics.md R74: the differences the rule lists. -/
def Obligations.SubtractionCornersAreSigned : Prop :=
  (∀ x : F32, isFinite32 x → sub32 x x = 0x00000000#32) ∧
  (∀ (x : F32) (neg : Bool), unpack32 x = .inf neg → sub32 x x = 0x7FC00000#32) ∧
  sub32 0x00000000 0x00000000 = 0x00000000#32 ∧ sub32 0x80000000 0x00000000 = 0x80000000#32 ∧
  sub32 0x00000000 0x80000000 = 0x00000000#32

/-- 40_numerics.md R74, R80 to R83: `sub32`, `half` and the complex primitives, lane by lane in `add32`, `sub32` and
`mul32`. -/
def Obligations.ComplexPrimitivesAreTheirLanes : Prop :=
  (∀ x y : F32, sub32 x y = add32 x (y ^^^ 0x80000000#32) ∧ half x = mul32 0x3F000000#32 x) ∧
  (∀ (a b : Complex32) (x : F32),
    cadd a b = { re := add32 a.re b.re, im := add32 a.im b.im } ∧
    csub a b = { re := sub32 a.re b.re, im := sub32 a.im b.im } ∧
    cscale a x = { re := mul32 a.re x, im := mul32 a.im x } ∧
    cmul a b =
      { re := sub32 (mul32 a.re b.re) (mul32 a.im b.im), im := add32 (mul32 a.re b.im) (mul32 a.im b.re) } ∧
    addmj a b = { re := add32 a.re b.im, im := sub32 a.im b.re } ∧
    addpj a b = { re := sub32 a.re b.im, im := add32 a.im b.re })

/-- 42_butterflies.md R99, 40_numerics.md R83: scaling a negated lane before it is added, or subtracting the scaled lane,
gives the same bits, NaNs and signed zeros included. -/
def Obligations.NegatedLaneScalesAlike : Prop :=
  ∀ a x e : F32,
    add32 a (mul32 (neg32 x) e) = sub32 a (mul32 x e) ∧ sub32 a (mul32 (neg32 x) e) = add32 a (mul32 x e)

/-! ## The whole machine -/

/-- The machine after power-on, of every legal size, meets the invariant. -/
def Obligations.PowerOnMeetsTheInvariant : Prop :=
  ∀ (c : Config) (d : Nat), c.legal = true → Inv (State.powerOn c d)

/-- Every step keeps the invariant. -/
def Obligations.EveryStepKeepsTheInvariant : Prop :=
  ∀ s t : State, Inv s → step s = .next t → Inv t

/-- 60_exceptions.md R123: an accepted command never fails. -/
def Obligations.NoStepFaults : Prop :=
  ∀ s : State, Inv s → ∀ r, step s ≠ .fault r

/-- A step keeps the machine's parameters and takes exactly one turn (turns are the model's form of the interleaving,
log entry 1). -/
def Obligations.EveryStepTakesOneTurnAndKeepsTheParameters : Prop :=
  ∀ s t : State, step s = .next t → t.config = s.config ∧ t.turns = s.turns.tail

/-- 70_reset_and_hazards.md R145: a pending command ends after finitely many steps, at most one more than the turns to
come, unless an ill-formed host access stops the run. The bound is the model's: with no turn left the engine has the
step (log entry 1). -/
def Obligations.PendingCommandEndsInBoundedSteps : Prop :=
  ∀ s : State, Inv s → s.busy = true →
    ∃ k, k ≤ s.turns.length + 1 ∧
      ((∃ t, Host.Core.run Sys2Proof.core k s = .next t ∧ t.busy = false) ∨
       (∃ r, Host.Core.run Sys2Proof.core k s = .refused r))

/-! ## Host programs -/

/-- 30_encoding.md R66, R68: what each statement form does at one evaluation. Its access is one step of the machine, its
line joins the encoding, and the host goes on at the next statement, a POLL whose masked value differs at the position
of its label. A label is passed without an access. The last clause is for a label that stands once in the program; where
it stands more than once or nowhere the position is the model's choice (log entry 22). -/
def Obligations.HostStatementsPerformTheirAccesses : Prop :=
  ∀ (prog : List Stmt) (r : HostRun),
    let base := r.machine.config.engineBase
    let evaluates := fun (st : Stmt) (x : Access) (pos : State → Nat) (line : State → Listed) =>
      prog[r.pos]? = some st → ∀ t, step { r.machine with turns := [.host x] } = .next t →
        r.hostMove prog =
          .next { machine := t, pos := pos t, turns := r.turns ++ [.host x], listed := r.listed ++ [line t] }
    (∀ (g : Reg) (v : Word),
      evaluates (.wr g v) (.write 4 (base + regOffset g) (v.setWidth 64)) (fun _ => r.pos + 1)
        (fun _ => { direction := .write, width := 4, offset := regOffset g, value := v.setWidth 64 })) ∧
    (∀ g : Reg,
      evaluates (.rd g) (.read 4 (base + regOffset g)) (fun _ => r.pos + 1)
        (fun t => { direction := .read, width := 4, offset := regOffset g, value := t.readData })) ∧
    (∀ (a : Nat) (v : F32),
      evaluates (.wrf32 a v) (.write 4 (base + (0x10000 + a)) (v.setWidth 64)) (fun _ => r.pos + 1)
        (fun _ => { direction := .write, width := 4, offset := 0x10000 + a, value := v.setWidth 64 })) ∧
    (∀ (a : Nat) (v : F64),
      evaluates (.wrf64 a v) (.write 8 (base + (0x10000 + a)) v) (fun _ => r.pos + 1)
        (fun _ => { direction := .write, width := 8, offset := 0x10000 + a, value := v })) ∧
    (∀ a : Nat,
      evaluates (.rdf32 a) (.read 4 (base + (0x10000 + a))) (fun _ => r.pos + 1)
        (fun t => { direction := .read, width := 4, offset := 0x10000 + a, value := t.readData })) ∧
    (∀ (g : Reg) (mask value : Word) (target : String),
      evaluates (.poll g mask value target) (.read 4 (base + regOffset g))
        (fun t => if t.readData.setWidth 32 &&& mask = value then r.pos + 1 else labelAt target r.pos prog)
        (fun t => { direction := .read, width := 4, offset := regOffset g, value := t.readData })) ∧
    (∀ name, prog[r.pos]? = some (.label name) → r.hostMove prog = .next { r with pos := r.pos + 1 }) ∧
    (∀ (name : String) (k j : Nat), prog[j]? = some (.label name) →
      (∀ j', prog[j']? = some (.label name) → j' = j) → labelAt name k prog = j)

/-- 30_encoding.md R68: the list of a run is the list of its host accesses in order, a POLL once for each evaluation, and
the machine that takes the recorded turns one after the other ends where the run left it. -/
def Obligations.HostRunIsItsAccessesInTurn : Prop :=
  ∀ (prog : List Stmt) (schedule : List Agent) (s : State) (r : HostRun), s.turns = [] →
    (HostRun.start s).run prog schedule = .next r →
    Host.Core.run Sys2Proof.core r.turns.length { s with turns := r.turns } = .next r.machine ∧
    r.listed.map (listedAccess s.config) = r.turns.filterMap fun t =>
      match t with
      | .host x => some x
      | .engine => none
      | .powerOn => none

/-- 30_encoding.md R67: every pseudo-statement, run as a program. A command's pseudo-statement writes only the registers
its command reads and then starts it; CLEAR clears DONE, ERR and DROP; WAIT, wherever it stands and however many others
the program has, reads STATUS again until BUSY = 0 (its label is found by the choice of log entry 22). -/
def Obligations.PseudoStatementsSetTheirRegistersAndStart : Prop :=
  ∀ (s : State), s.turns = [] →
    let writes := fun (off : Nat) (v : Word) =>
      ({ direction := .write, width := 4, offset := off, value := v.setWidth 64 } : Listed)
    let runs := fun (p : Pseudo) (lines : List Listed) (result : State → Prop) =>
      ∃ r, (HostRun.start s).run (expand p) (List.replicate lines.length .host) = .next r ∧
        r.pos = lines.length ∧ r.listed = lines ∧ result r.machine
    let starts := fun (p : Pseudo) (lines : List Listed) (i : Instr) (P : Params) =>
      s.pending = none → runs p lines fun t => exec i { s with mover := .host, params := P } = .next t
    starts (.cmd .prerot) [writes 0x018 1] .prerot s.params ∧
    starts (.cmd .postrot) [writes 0x018 2] .postrot s.params ∧
    starts (.cmd .bfly3) [writes 0x018 3] .bfly3 s.params ∧
    starts (.cmd .bfly4m1) [writes 0x018 4] .bfly4m1 s.params ∧
    starts (.cmd .bfly4) [writes 0x018 5] .bfly4 s.params ∧
    starts (.cmd .bfly5) [writes 0x018 6] .bfly5 s.params ∧
    (∀ a b src buf tr, starts (.prerot a b src buf tr)
      [writes 0x020 a, writes 0x024 b, writes 0x040 src, writes 0x044 buf, writes 0x048 tr, writes 0x018 1] .prerot
      { s.params with n2 := a, n4 := b, srcAddr := src, bufAddr := buf, trigAddr := tr }) ∧
    (∀ a b buf tr, starts (.postrot a b buf tr)
      [writes 0x020 a, writes 0x024 b, writes 0x044 buf, writes 0x048 tr, writes 0x018 2] .postrot
      { s.params with n2 := a, n4 := b, bufAddr := buf, trigAddr := tr }) ∧
    (∀ n mm fs buf tw, starts (.bfly3 n mm fs buf tw)
      [writes 0x028 n, writes 0x030 mm, writes 0x034 fs, writes 0x044 buf, writes 0x04C tw, writes 0x018 3] .bfly3
      { s.params with n := n, mm := mm, fstride := fs, bufAddr := buf, twAddr := tw }) ∧
    (∀ n buf, starts (.bfly4m1 n buf) [writes 0x028 n, writes 0x044 buf, writes 0x018 4] .bfly4m1
      { s.params with n := n, bufAddr := buf }) ∧
    (∀ n m mm fs buf tw, starts (.bfly4 n m mm fs buf tw)
      [writes 0x028 n, writes 0x02C m, writes 0x030 mm, writes 0x034 fs, writes 0x044 buf, writes 0x04C tw,
        writes 0x018 5] .bfly4
      { s.params with n := n, m := m, mm := mm, fstride := fs, bufAddr := buf, twAddr := tw }) ∧
    (∀ n mm fs buf tw, starts (.bfly5 n mm fs buf tw)
      [writes 0x028 n, writes 0x030 mm, writes 0x034 fs, writes 0x044 buf, writes 0x04C tw, writes 0x018 6] .bfly5
      { s.params with n := n, mm := mm, fstride := fs, bufAddr := buf, twAddr := tw }) ∧
    runs .clear [writes 0x00C 0xE]
      (fun t => t = { s with mover := .host, status := { done := false, err := false, drop := false } }) ∧
    (∀ (before after : List Stmt) (r : HostRun),
      let prog := before ++ expand .wait ++ after
      (r.pos = before.length → r.hostMove prog = .next { r with pos := before.length + 1 }) ∧
      (r.pos = before.length + 1 →
        ∃ t, r.hostMove prog = .next t ∧
          t.pos = (if r.machine.busy then before.length else before.length + 2) ∧
          t.machine = { r.machine with turns := [], mover := .host, readData := (readReg .status r.machine).setWidth 64 } ∧
          t.listed = r.listed ++
            [{ direction := .read, width := 4, offset := 0x00C, value := (readReg .status r.machine).setWidth 64 }]))
end

