-- ==== Sys2Proof/Laws/Memory.lean ====
section
/-!
SUPPORT. The laws of the RAM operations: what each byte reads after a write, that every operation keeps the canonical
form and the address range, and reading back whole elements (20_memory.md R43 to R45, R54).
-/

namespace Sys2Proof.Machine

/-! ## Loops -/

@[simp] theorem forRange_zero {α : Type} (body : Nat → α → α) (x : α) : forRange 0 body x = x := rfl

@[simp] theorem forRange_succ {α : Type} (k : Nat) (body : Nat → α → α) (x : α) :
    forRange (k + 1) body x = body k (forRange k body x) := rfl

/-- A loop keeps what every iteration keeps. -/
theorem forRange_keeps {α : Type} (p : α → Prop) (n : Nat) (body : Nat → α → α) (x : α) (hx : p x)
    (h : ∀ i, i < n → ∀ y, p y → p (body i y)) : p (forRange n body x) := by
  induction n with
  | zero => exact hx
  | succ k ih => exact h k (by omega) _ (ih fun i hi => h i (by omega))

/-! ## One byte -/

theorem findCell_putCell (x a : Nat) (b : Byte) (l : List Host.Cell) :
    findCell x (putCell a b l) = if x = a then some b else findCell x l := by
  induction l with
  | nil => simp only [putCell, findCell, eq_comm]
  | cons c t ih =>
    obtain ⟨y, d⟩ := c
    by_cases hlt : a < y
    · simp only [putCell, if_pos hlt, findCell, eq_comm (a := a)]
    · by_cases hay : a = y
      · subst hay
        by_cases hx : x = a
        · simp [putCell, findCell, hx]
        · simp [putCell, findCell, hx, Ne.symm hx]
      · by_cases hx : x = a
        · subst hx; simp [putCell, findCell, hlt, hay, Ne.symm hay, ih]
        · simp [putCell, findCell, hlt, hay, hx, ih]

@[simp] theorem setByte_unwritten (m : Memory) (a : Nat) (b : Byte) : (m.setByte a b).unwritten = m.unwritten := rfl

theorem byte_setByte (m : Memory) (a x : Nat) (b : Byte) :
    (m.setByte a b).byte x = if x = a then b else m.byte x := by
  simp only [Memory.byte, Memory.setByte, Memory.unwrittenByte, findCell_putCell]
  split <;> rfl

theorem risingFrom_mono (lo hi : Nat) (l : List Host.Cell) (h : lo ≤ hi) (r : risingFrom hi l = true) :
    risingFrom lo l = true := by
  cases l with
  | nil => rfl
  | cons c t => simp only [risingFrom, Bool.and_eq_true, decide_eq_true_eq] at r ⊢; exact ⟨by omega, r.2⟩

theorem risingFrom_putCell (lo a : Nat) (b : Byte) (l : List Host.Cell) (h : risingFrom lo l = true) (ha : lo ≤ a) :
    risingFrom lo (putCell a b l) = true := by
  induction l generalizing lo with
  | nil => simp [putCell, risingFrom, ha]
  | cons c t ih =>
    obtain ⟨y, d⟩ := c
    simp only [risingFrom, Bool.and_eq_true, decide_eq_true_eq] at h
    simp only [putCell]
    split
    · simp only [risingFrom, Bool.and_eq_true, decide_eq_true_eq]
      exact ⟨ha, by omega, h.2⟩
    · split
      · subst_vars; simp only [risingFrom, Bool.and_eq_true, decide_eq_true_eq]; exact h
      · simp only [risingFrom, Bool.and_eq_true, decide_eq_true_eq]
        exact ⟨h.1, ih _ h.2 (by omega)⟩

theorem all_putCell (p : Host.Cell → Bool) (a : Nat) (b : Byte) (l : List Host.Cell) (h : l.all p = true)
    (ha : p (a, b) = true) : (putCell a b l).all p = true := by
  induction l with
  | nil => simp [putCell, ha]
  | cons c t ih =>
    simp only [List.all_cons, Bool.and_eq_true] at h
    simp only [putCell]
    split
    · simp [List.all_cons, ha, h.1, h.2]
    · split
      · simp [List.all_cons, ha, h.2]
      · simp [List.all_cons, h.1, ih h.2]

theorem setByte_wf (m : Memory) (a : Nat) (b : Byte) (h : m.wf = true) : (m.setByte a b).wf = true :=
  risingFrom_putCell 0 a b m.cells h (Nat.zero_le a)

theorem setByte_below (m : Memory) (a n : Nat) (b : Byte) (h : m.below n = true) (ha : a < n) :
    (m.setByte a b).below n = true :=
  all_putCell _ a b m.cells h (by simpa using ha)

/-! ## Writing `n` bytes -/

theorem write_succ (m : Memory) (a k : Nat) (v : BitVec 64) :
    m.write a (k + 1) v = (m.write a k v).setByte (a + k) (v.extractLsb' (8 * k) 8) := rfl

/-- Everything a write does: the `n` bytes from `a` take the value's bytes, the lowest first, and every other byte is
unchanged. -/
theorem byte_write (m : Memory) (a n x : Nat) (v : BitVec 64) :
    (m.write a n v).byte x = if a ≤ x ∧ x < a + n then v.extractLsb' (8 * (x - a)) 8 else m.byte x := by
  induction n with
  | zero => simp only [Memory.write, forRange_zero]; rw [if_neg (by omega)]
  | succ k ih =>
    rw [write_succ, byte_setByte, ih]
    by_cases hx : x = a + k
    · subst hx; rw [if_pos rfl, if_pos (by omega), Nat.add_sub_cancel_left]
    · rw [if_neg hx]
      by_cases h : a ≤ x ∧ x < a + k
      · rw [if_pos h, if_pos (by omega)]
      · rw [if_neg h, if_neg (by omega)]

theorem write_wf (m : Memory) (a n : Nat) (v : BitVec 64) (h : m.wf = true) : (m.write a n v).wf = true :=
  forRange_keeps (fun m' => m'.wf = true) n _ m h fun _ _ m' hm => setByte_wf m' _ _ hm

theorem write_below (m : Memory) (a n k : Nat) (v : BitVec 64) (h : m.below k = true) (ha : a + n ≤ k) :
    (m.write a n v).below k = true :=
  forRange_keeps (fun m' => m'.below k = true) n _ m h fun i hi m' hm => setByte_below m' _ k _ hm (by omega)

theorem writeF32_wf (m : Memory) (a : Nat) (v : F32) (h : m.wf = true) : (m.writeF32 a v).wf = true :=
  write_wf m a 4 _ h

theorem writeF32_below (m : Memory) (a k : Nat) (v : F32) (h : m.below k = true) (ha : a + 4 ≤ k) :
    (m.writeF32 a v).below k = true := write_below m a 4 k _ h ha

/-- A lane write leaves every byte outside its four. -/
theorem byte_writeF32_of_outside (m : Memory) (a x : Nat) (v : F32) (h : x < a ∨ a + 4 ≤ x) :
    (m.writeF32 a v).byte x = m.byte x := by
  rw [Memory.writeF32, byte_write, if_neg (by omega)]

/-! ## Reading -/

theorem littleEndian_congr (f g : Nat → Byte) (n : Nat) (h : ∀ i, i < n → f i = g i) :
    littleEndian f n = littleEndian g n := by
  induction n with
  | zero => rfl
  | succ k ih => simp only [littleEndian, ih fun i hi => h i (by omega), h k (by omega)]

/-- Each bit of a little-endian value is a bit of one byte. -/
theorem getLsbD_littleEndian (f : Nat → Byte) (n k : Nat) (hn : n ≤ 8) :
    (littleEndian f n).getLsbD k = (decide (k < 8 * n) && (f (k / 8)).getLsbD (k % 8)) := by
  induction n with
  | zero => simp [littleEndian]
  | succ j ih =>
    rw [littleEndian, BitVec.getLsbD_or, ih (by omega), BitVec.getLsbD_shiftLeft, BitVec.getLsbD_setWidth]
    by_cases h1 : k < 8 * j
    · have h2 : k < 8 * (j + 1) := by omega
      simp [h1, h2]
    · by_cases h2 : k < 8 * (j + 1)
      · have h3 : k / 8 = j := by omega
        have h4 : k % 8 = k - 8 * j := by omega
        have h5 : k < 64 := by omega
        have h6 : k - 8 * j < 64 := by omega
        simp [h1, h2, h3, h4, h5, h6]
      · have h5 : (f j).getLsbD (k - 8 * j) = false := BitVec.getLsbD_of_ge _ _ (by omega)
        simp [h1, h2, h5]

theorem extract_littleEndian (f : Nat → Byte) (n k : Nat) (hn : n ≤ 8) (hk : k < n) :
    (littleEndian f n).extractLsb' (8 * k) 8 = f k := by
  apply BitVec.eq_of_getLsbD_eq
  intro i hi
  rw [BitVec.getLsbD_extractLsb', getLsbD_littleEndian f n _ hn]
  have h1 : (8 * k + i) / 8 = k := by omega
  have h2 : (8 * k + i) % 8 = i := by omega
  have h3 : 8 * k + i < 8 * n := by omega
  simp [h1, h2, h3, hi]

theorem littleEndian_toNat_lt (f : Nat → Byte) (n : Nat) (hn : n ≤ 8) : (littleEndian f n).toNat < 2 ^ (8 * n) := by
  apply Nat.lt_pow_two_of_testBit
  intro i hi
  have h := getLsbD_littleEndian f n i hn
  rw [BitVec.getLsbD] at h
  rw [h]
  simp [Nat.not_lt.mpr hi]

/-- A read sees nothing but its own bytes. -/
theorem readF32_congr (m m' : Memory) (a : Nat) (h : ∀ i, i < 4 → m.byte (a + i) = m'.byte (a + i)) :
    m.readF32 a = m'.readF32 a := by
  simp only [Memory.readF32, Memory.read]
  rw [littleEndian_congr _ _ 4 h]

theorem readF64_congr (m m' : Memory) (a : Nat) (h : ∀ i, i < 8 → m.byte (a + i) = m'.byte (a + i)) :
    m.readF64 a = m'.readF64 a := by
  simp only [Memory.readF64, Memory.read]
  rw [littleEndian_congr _ _ 8 h]

/-- A lane reads back what was written to it. -/
@[simp] theorem readF32_writeF32_same (m : Memory) (a : Nat) (v : F32) : (m.writeF32 a v).readF32 a = v := by
  apply BitVec.eq_of_getLsbD_eq
  intro i hi
  rw [Memory.readF32, BitVec.getLsbD_setWidth, Memory.read, getLsbD_littleEndian _ 4 _ (by omega), Memory.writeF32,
    byte_write, if_pos (by omega), BitVec.getLsbD_extractLsb', BitVec.getLsbD_setWidth]
  have h1 : 8 * (i / 8) + i % 8 = i := by omega
  have h2 : i % 8 < 8 := by omega
  have h3 : i < 64 := by omega
  simp [h1, h2, h3, hi]

/-- A lane write leaves every lane that it does not touch. -/
theorem readF32_writeF32_disjoint (m : Memory) (a b : Nat) (v : F32) (h : a + 4 ≤ b ∨ b + 4 ≤ a) :
    (m.writeF32 a v).readF32 b = m.readF32 b :=
  readF32_congr _ _ b fun i hi => byte_writeF32_of_outside m a (b + i) v (by omega)

/-! ## Unspecified bytes -/

theorem has_iff (b : Block) (x : Nat) : b.has x = true ↔ b.base ≤ x ∧ x < b.base + b.len := by
  simp [Block.has]

theorem byte_scrambleBlock (m : Memory) (draw x : Nat) (b : Block) :
    (m.scrambleBlock draw b).byte x = if b.has x then Config.freeByte draw x else m.byte x := by
  suffices h : ∀ n, (forRange n (fun i m' => m'.setByte (b.base + i) (Config.freeByte draw (b.base + i))) m).byte x =
      if b.base ≤ x ∧ x < b.base + n then Config.freeByte draw x else m.byte x by
    rw [Memory.scrambleBlock, h]
    simp only [has_iff]
  intro n
  induction n with
  | zero => rw [forRange_zero, if_neg (by omega)]
  | succ k ih =>
    rw [forRange_succ, byte_setByte, ih]
    by_cases hx : x = b.base + k
    · subst hx; rw [if_pos rfl, if_pos (by omega)]
    · rw [if_neg hx]
      by_cases h : b.base ≤ x ∧ x < b.base + k
      · rw [if_pos h, if_pos (by omega)]
      · rw [if_neg h, if_neg (by omega)]

/-- Everything that making blocks unspecified does. -/
theorem byte_scramble (m : Memory) (draw x : Nat) (bs : List Block) :
    (m.scramble draw bs).byte x = if inBlocks bs x then Config.freeByte draw x else m.byte x := by
  induction bs generalizing m with
  | nil => simp [Memory.scramble, inBlocks]
  | cons b t ih =>
    have h : m.scramble draw (b :: t) = (m.scrambleBlock draw b).scramble draw t := rfl
    rw [h, ih, byte_scrambleBlock]
    simp only [inBlocks, List.any_cons]
    by_cases h1 : b.has x = true <;> by_cases h2 : (t.any fun b => b.has x) = true <;> simp [h1, h2]

theorem scrambleBlock_wf (m : Memory) (draw : Nat) (b : Block) (h : m.wf = true) : (m.scrambleBlock draw b).wf = true :=
  forRange_keeps (fun m' => m'.wf = true) b.len _ m h fun _ _ m' hm => setByte_wf m' _ _ hm

theorem scramble_wf (m : Memory) (draw : Nat) (bs : List Block) (h : m.wf = true) : (m.scramble draw bs).wf = true := by
  induction bs generalizing m with
  | nil => exact h
  | cons b t ih => exact ih _ (scrambleBlock_wf m draw b h)

theorem scrambleBlock_below (m : Memory) (draw k : Nat) (b : Block) (h : m.below k = true) (hb : b.base + b.len ≤ k) :
    (m.scrambleBlock draw b).below k = true :=
  forRange_keeps (fun m' => m'.below k = true) b.len _ m h fun i hi m' hm => setByte_below m' _ k _ hm (by omega)

theorem scramble_below (m : Memory) (draw k : Nat) (bs : List Block) (h : m.below k = true)
    (hb : ∀ b ∈ bs, b.base + b.len ≤ k) : (m.scramble draw bs).below k = true := by
  induction bs generalizing m with
  | nil => exact h
  | cons b t ih =>
    exact ih _ (scrambleBlock_below m draw k b h (hb b (by simp))) fun b' hb' => hb b' (by simp [hb'])

/-! ## The elements the commands write -/

theorem setFloat_wf (P : Params) (k : Nat) (v : F32) (m : Memory) (h : m.wf = true) : (setFloat P k v m).wf = true :=
  writeF32_wf m _ v h

theorem setSample_wf (P : Params) (k : Nat) (z : Complex32) (m : Memory) (h : m.wf = true) :
    (setSample P k z m).wf = true := writeF32_wf _ _ _ (writeF32_wf m _ _ h)

/-- A sample write leaves every byte outside its eight. -/
theorem byte_setSample_of_outside (P : Params) (k x : Nat) (z : Complex32) (m : Memory)
    (h : x < sampleAddr P k ∨ sampleAddr P k + 8 ≤ x) : (setSample P k z m).byte x = m.byte x := by
  rw [setSample, byte_writeF32_of_outside _ _ _ _ (by omega), byte_writeF32_of_outside _ _ _ _ (by omega)]

/-- A sample reads back what was written to it. -/
@[simp] theorem sample_setSample_same (P : Params) (k : Nat) (z : Complex32) (m : Memory) :
    sample P (setSample P k z m) k = z := by
  simp only [sample, setSample, Memory.readComplex, readF32_writeF32_same]
  rw [readF32_writeF32_disjoint _ _ _ _ (by omega), readF32_writeF32_same]

/-- A sample write leaves every other sample. -/
theorem sample_setSample_other (P : Params) (k j : Nat) (z : Complex32) (m : Memory) (h : j ≠ k) :
    sample P (setSample P k z m) j = sample P m j := by
  simp only [sample, setSample, Memory.readComplex, sampleAddr]
  rw [readF32_writeF32_disjoint _ _ _ _ (by omega), readF32_writeF32_disjoint _ _ _ _ (by omega),
    readF32_writeF32_disjoint _ _ _ _ (by omega), readF32_writeF32_disjoint _ _ _ _ (by omega)]

@[simp] theorem floatAt_setFloat_same (P : Params) (k : Nat) (v : F32) (m : Memory) :
    floatAt P (setFloat P k v m) k = v := readF32_writeF32_same m _ v

theorem floatAt_setFloat_other (P : Params) (k j : Nat) (v : F32) (m : Memory) (h : j ≠ k) :
    floatAt P (setFloat P k v m) j = floatAt P m j :=
  readF32_writeF32_disjoint m _ _ v (by simp only [floatAddr]; omega)

end Sys2Proof.Machine
end

