-- ==== Sys2Proof/Laws/State.lean ====
section
/-!
SUPPORT. The state under each named update, field by field, so that no proof unfolds a record update; and the registers
under them.
-/

namespace Sys2Proof.Machine

/-! ## `dropCommand` -/

@[simp] theorem dropCommand_config (s : State) : s.dropCommand.config = s.config := rfl
@[simp] theorem dropCommand_irqEn (s : State) : s.dropCommand.irqEn = s.irqEn := rfl
@[simp] theorem dropCommand_status (s : State) : s.dropCommand.status = { s.status with drop := true } := rfl
@[simp] theorem dropCommand_errCode (s : State) : s.dropCommand.errCode = s.errCode := rfl
@[simp] theorem dropCommand_errInfo (s : State) : s.dropCommand.errInfo = s.errInfo := rfl
@[simp] theorem dropCommand_cmd (s : State) : s.dropCommand.cmd = s.cmd := rfl
@[simp] theorem dropCommand_params (s : State) : s.dropCommand.params = s.params := rfl
@[simp] theorem dropCommand_pending (s : State) : s.dropCommand.pending = s.pending := rfl
@[simp] theorem dropCommand_mem (s : State) : s.dropCommand.mem = s.mem := rfl
@[simp] theorem dropCommand_mover (s : State) : s.dropCommand.mover = s.mover := rfl
@[simp] theorem dropCommand_turns (s : State) : s.dropCommand.turns = s.turns := rfl
@[simp] theorem dropCommand_readData (s : State) : s.dropCommand.readData = s.readData := rfl
@[simp] theorem dropCommand_draws (s : State) : s.dropCommand.draws = s.draws := rfl

/-! ## `beginStart` -/

@[simp] theorem beginStart_config (v : Word) (s : State) : (s.beginStart v).config = s.config := rfl
@[simp] theorem beginStart_irqEn (v : Word) (s : State) : (s.beginStart v).irqEn = s.irqEn := rfl
@[simp] theorem beginStart_status (v : Word) (s : State) : (s.beginStart v).status = { s.status with done := false, err := false } := rfl
@[simp] theorem beginStart_errCode (v : Word) (s : State) : (s.beginStart v).errCode = .none := rfl
@[simp] theorem beginStart_errInfo (v : Word) (s : State) : (s.beginStart v).errInfo = 0 := rfl
@[simp] theorem beginStart_cmd (v : Word) (s : State) : (s.beginStart v).cmd = v := rfl
@[simp] theorem beginStart_params (v : Word) (s : State) : (s.beginStart v).params = s.params := rfl
@[simp] theorem beginStart_pending (v : Word) (s : State) : (s.beginStart v).pending = s.pending := rfl
@[simp] theorem beginStart_mem (v : Word) (s : State) : (s.beginStart v).mem = s.mem := rfl
@[simp] theorem beginStart_mover (v : Word) (s : State) : (s.beginStart v).mover = s.mover := rfl
@[simp] theorem beginStart_turns (v : Word) (s : State) : (s.beginStart v).turns = s.turns := rfl
@[simp] theorem beginStart_readData (v : Word) (s : State) : (s.beginStart v).readData = s.readData := rfl
@[simp] theorem beginStart_draws (v : Word) (s : State) : (s.beginStart v).draws = s.draws := rfl

/-! ## `reject` -/

@[simp] theorem reject_config (r : Rejection) (s : State) : (s.reject r).config = s.config := rfl
@[simp] theorem reject_irqEn (r : Rejection) (s : State) : (s.reject r).irqEn = s.irqEn := rfl
@[simp] theorem reject_status (r : Rejection) (s : State) : (s.reject r).status = { s.status with err := true } := rfl
@[simp] theorem reject_errCode (r : Rejection) (s : State) : (s.reject r).errCode = r.code := rfl
@[simp] theorem reject_errInfo (r : Rejection) (s : State) : (s.reject r).errInfo = r.info := rfl
@[simp] theorem reject_cmd (r : Rejection) (s : State) : (s.reject r).cmd = s.cmd := rfl
@[simp] theorem reject_params (r : Rejection) (s : State) : (s.reject r).params = s.params := rfl
@[simp] theorem reject_pending (r : Rejection) (s : State) : (s.reject r).pending = s.pending := rfl
@[simp] theorem reject_mem (r : Rejection) (s : State) : (s.reject r).mem = s.mem := rfl
@[simp] theorem reject_mover (r : Rejection) (s : State) : (s.reject r).mover = s.mover := rfl
@[simp] theorem reject_turns (r : Rejection) (s : State) : (s.reject r).turns = s.turns := rfl
@[simp] theorem reject_readData (r : Rejection) (s : State) : (s.reject r).readData = s.readData := rfl
@[simp] theorem reject_draws (r : Rejection) (s : State) : (s.reject r).draws = s.draws := rfl

/-! ## `accept` -/

@[simp] theorem accept_config (op : Instr) (s : State) : (s.accept op).config = s.config := rfl
@[simp] theorem accept_irqEn (op : Instr) (s : State) : (s.accept op).irqEn = s.irqEn := rfl
@[simp] theorem accept_status (op : Instr) (s : State) : (s.accept op).status = s.status := rfl
@[simp] theorem accept_errCode (op : Instr) (s : State) : (s.accept op).errCode = s.errCode := rfl
@[simp] theorem accept_errInfo (op : Instr) (s : State) : (s.accept op).errInfo = s.errInfo := rfl
@[simp] theorem accept_cmd (op : Instr) (s : State) : (s.accept op).cmd = s.cmd := rfl
@[simp] theorem accept_params (op : Instr) (s : State) : (s.accept op).params = s.params := rfl
@[simp] theorem accept_pending (op : Instr) (s : State) : (s.accept op).pending = some { op := op, params := s.params, disturbed := false } := rfl
@[simp] theorem accept_mem (op : Instr) (s : State) : (s.accept op).mem = s.mem := rfl
@[simp] theorem accept_mover (op : Instr) (s : State) : (s.accept op).mover = s.mover := rfl
@[simp] theorem accept_turns (op : Instr) (s : State) : (s.accept op).turns = s.turns := rfl
@[simp] theorem accept_readData (op : Instr) (s : State) : (s.accept op).readData = s.readData := rfl
@[simp] theorem accept_draws (op : Instr) (s : State) : (s.accept op).draws = s.draws := rfl

/-! ## `completeWith` -/

@[simp] theorem completeWith_config (m : Memory) (s : State) : (s.completeWith m).config = s.config := rfl
@[simp] theorem completeWith_irqEn (m : Memory) (s : State) : (s.completeWith m).irqEn = s.irqEn := rfl
@[simp] theorem completeWith_status (m : Memory) (s : State) : (s.completeWith m).status = { s.status with done := true } := rfl
@[simp] theorem completeWith_errCode (m : Memory) (s : State) : (s.completeWith m).errCode = s.errCode := rfl
@[simp] theorem completeWith_errInfo (m : Memory) (s : State) : (s.completeWith m).errInfo = s.errInfo := rfl
@[simp] theorem completeWith_cmd (m : Memory) (s : State) : (s.completeWith m).cmd = s.cmd := rfl
@[simp] theorem completeWith_params (m : Memory) (s : State) : (s.completeWith m).params = s.params := rfl
@[simp] theorem completeWith_pending (m : Memory) (s : State) : (s.completeWith m).pending = none := rfl
@[simp] theorem completeWith_mem (m : Memory) (s : State) : (s.completeWith m).mem = m := rfl
@[simp] theorem completeWith_mover (m : Memory) (s : State) : (s.completeWith m).mover = s.mover := rfl
@[simp] theorem completeWith_turns (m : Memory) (s : State) : (s.completeWith m).turns = s.turns := rfl
@[simp] theorem completeWith_readData (m : Memory) (s : State) : (s.completeWith m).readData = s.readData := rfl
@[simp] theorem completeWith_draws (m : Memory) (s : State) : (s.completeWith m).draws = s.draws := rfl

/-! ## `resetRegisters` -/

@[simp] theorem resetRegisters_config (s : State) : s.resetRegisters.config = s.config := rfl
@[simp] theorem resetRegisters_irqEn (s : State) : s.resetRegisters.irqEn = false := rfl
@[simp] theorem resetRegisters_status (s : State) : s.resetRegisters.status = { done := false, err := false, drop := false } := rfl
@[simp] theorem resetRegisters_errCode (s : State) : s.resetRegisters.errCode = .none := rfl
@[simp] theorem resetRegisters_errInfo (s : State) : s.resetRegisters.errInfo = 0 := rfl
@[simp] theorem resetRegisters_cmd (s : State) : s.resetRegisters.cmd = 0 := rfl
@[simp] theorem resetRegisters_params (s : State) : s.resetRegisters.params = Params.zero := rfl
@[simp] theorem resetRegisters_pending (s : State) : s.resetRegisters.pending = none := rfl
@[simp] theorem resetRegisters_mem (s : State) : s.resetRegisters.mem = s.mem := rfl
@[simp] theorem resetRegisters_mover (s : State) : s.resetRegisters.mover = s.mover := rfl
@[simp] theorem resetRegisters_turns (s : State) : s.resetRegisters.turns = s.turns := rfl
@[simp] theorem resetRegisters_readData (s : State) : s.resetRegisters.readData = s.readData := rfl
@[simp] theorem resetRegisters_draws (s : State) : s.resetRegisters.draws = s.draws := rfl

/-! ## `powerOnReset` -/

@[simp] theorem powerOnReset_config (s : State) : s.powerOnReset.config = s.config := rfl
@[simp] theorem powerOnReset_irqEn (s : State) : s.powerOnReset.irqEn = false := rfl
@[simp] theorem powerOnReset_status (s : State) : s.powerOnReset.status = { done := false, err := false, drop := false } := rfl
@[simp] theorem powerOnReset_errCode (s : State) : s.powerOnReset.errCode = .none := rfl
@[simp] theorem powerOnReset_errInfo (s : State) : s.powerOnReset.errInfo = 0 := rfl
@[simp] theorem powerOnReset_cmd (s : State) : s.powerOnReset.cmd = 0 := rfl
@[simp] theorem powerOnReset_params (s : State) : s.powerOnReset.params = Params.zero := rfl
@[simp] theorem powerOnReset_pending (s : State) : s.powerOnReset.pending = none := rfl
@[simp] theorem powerOnReset_mem (s : State) : s.powerOnReset.mem = { cells := [], unwritten := s.draws } := rfl
@[simp] theorem powerOnReset_mover (s : State) : s.powerOnReset.mover = s.mover := rfl
@[simp] theorem powerOnReset_turns (s : State) : s.powerOnReset.turns = s.turns := rfl
@[simp] theorem powerOnReset_readData (s : State) : s.powerOnReset.readData = s.readData := rfl
@[simp] theorem powerOnReset_draws (s : State) : s.powerOnReset.draws = s.draws + 1 := rfl

/-! ## `ramRead` -/

@[simp] theorem ramRead_config (a n : Nat) (s : State) : (s.ramRead a n).config = s.config := rfl
@[simp] theorem ramRead_irqEn (a n : Nat) (s : State) : (s.ramRead a n).irqEn = s.irqEn := rfl
@[simp] theorem ramRead_status (a n : Nat) (s : State) : (s.ramRead a n).status = s.status := rfl
@[simp] theorem ramRead_errCode (a n : Nat) (s : State) : (s.ramRead a n).errCode = s.errCode := rfl
@[simp] theorem ramRead_errInfo (a n : Nat) (s : State) : (s.ramRead a n).errInfo = s.errInfo := rfl
@[simp] theorem ramRead_cmd (a n : Nat) (s : State) : (s.ramRead a n).cmd = s.cmd := rfl
@[simp] theorem ramRead_params (a n : Nat) (s : State) : (s.ramRead a n).params = s.params := rfl
@[simp] theorem ramRead_pending (a n : Nat) (s : State) : (s.ramRead a n).pending = s.pending := rfl
@[simp] theorem ramRead_mem (a n : Nat) (s : State) : (s.ramRead a n).mem = s.mem := rfl
@[simp] theorem ramRead_mover (a n : Nat) (s : State) : (s.ramRead a n).mover = s.mover := rfl
@[simp] theorem ramRead_turns (a n : Nat) (s : State) : (s.ramRead a n).turns = s.turns := rfl
@[simp] theorem ramRead_readData (a n : Nat) (s : State) : (s.ramRead a n).readData = littleEndian (fun i => s.hostByte (a + i)) n := rfl
@[simp] theorem ramRead_draws (a n : Nat) (s : State) : (s.ramRead a n).draws = if s.readDisturbed a n then s.draws + 1 else s.draws := rfl

/-! ## `ramWrite` -/

@[simp] theorem ramWrite_config (a n : Nat) (v : BitVec 64) (s : State) : (s.ramWrite a n v).config = s.config := rfl
@[simp] theorem ramWrite_irqEn (a n : Nat) (v : BitVec 64) (s : State) : (s.ramWrite a n v).irqEn = s.irqEn := rfl
@[simp] theorem ramWrite_status (a n : Nat) (v : BitVec 64) (s : State) : (s.ramWrite a n v).status = s.status := rfl
@[simp] theorem ramWrite_errCode (a n : Nat) (v : BitVec 64) (s : State) : (s.ramWrite a n v).errCode = s.errCode := rfl
@[simp] theorem ramWrite_errInfo (a n : Nat) (v : BitVec 64) (s : State) : (s.ramWrite a n v).errInfo = s.errInfo := rfl
@[simp] theorem ramWrite_cmd (a n : Nat) (v : BitVec 64) (s : State) : (s.ramWrite a n v).cmd = s.cmd := rfl
@[simp] theorem ramWrite_params (a n : Nat) (v : BitVec 64) (s : State) : (s.ramWrite a n v).params = s.params := rfl
@[simp] theorem ramWrite_pending (a n : Nat) (v : BitVec 64) (s : State) : (s.ramWrite a n v).pending = s.pending.map (Pending.afterWrite a n) := rfl
@[simp] theorem ramWrite_mem (a n : Nat) (v : BitVec 64) (s : State) : (s.ramWrite a n v).mem = s.mem.write a n v := rfl
@[simp] theorem ramWrite_mover (a n : Nat) (v : BitVec 64) (s : State) : (s.ramWrite a n v).mover = s.mover := rfl
@[simp] theorem ramWrite_turns (a n : Nat) (v : BitVec 64) (s : State) : (s.ramWrite a n v).turns = s.turns := rfl
@[simp] theorem ramWrite_readData (a n : Nat) (v : BitVec 64) (s : State) : (s.ramWrite a n v).readData = s.readData := rfl
@[simp] theorem ramWrite_draws (a n : Nat) (v : BitVec 64) (s : State) : (s.ramWrite a n v).draws = s.draws := rfl

/-! ## `withFetchWord` -/

@[simp] theorem withFetchWord_config (n w : Nat) (s : State) : (s.withFetchWord n w).config = s.config := rfl
@[simp] theorem withFetchWord_irqEn (n w : Nat) (s : State) : (s.withFetchWord n w).irqEn = s.irqEn := rfl
@[simp] theorem withFetchWord_status (n w : Nat) (s : State) : (s.withFetchWord n w).status = s.status := rfl
@[simp] theorem withFetchWord_errCode (n w : Nat) (s : State) : (s.withFetchWord n w).errCode = s.errCode := rfl
@[simp] theorem withFetchWord_errInfo (n w : Nat) (s : State) : (s.withFetchWord n w).errInfo = s.errInfo := rfl
@[simp] theorem withFetchWord_cmd (n w : Nat) (s : State) : (s.withFetchWord n w).cmd = s.cmd := rfl
@[simp] theorem withFetchWord_params (n w : Nat) (s : State) : (s.withFetchWord n w).params = s.params := rfl
@[simp] theorem withFetchWord_pending (n w : Nat) (s : State) : (s.withFetchWord n w).pending = s.pending := rfl
@[simp] theorem withFetchWord_mem (n w : Nat) (s : State) : (s.withFetchWord n w).mem = s.mem := rfl
@[simp] theorem withFetchWord_mover (n w : Nat) (s : State) : (s.withFetchWord n w).mover = s.mover := rfl
@[simp] theorem withFetchWord_turns (n w : Nat) (s : State) : (s.withFetchWord n w).turns = .host (cmdWrite s.config (BitVec.ofNat 32 w)) :: s.turns := rfl
@[simp] theorem withFetchWord_readData (n w : Nat) (s : State) : (s.withFetchWord n w).readData = s.readData := rfl
@[simp] theorem withFetchWord_draws (n w : Nat) (s : State) : (s.withFetchWord n w).draws = s.draws := rfl

/-! ## `powerOn` -/

@[simp] theorem powerOn_config (c : Config) (d : Nat) : (State.powerOn c d).config = c := rfl
@[simp] theorem powerOn_irqEn (c : Config) (d : Nat) : (State.powerOn c d).irqEn = false := rfl
@[simp] theorem powerOn_status (c : Config) (d : Nat) : (State.powerOn c d).status = { done := false, err := false, drop := false } := rfl
@[simp] theorem powerOn_errCode (c : Config) (d : Nat) : (State.powerOn c d).errCode = .none := rfl
@[simp] theorem powerOn_errInfo (c : Config) (d : Nat) : (State.powerOn c d).errInfo = 0 := rfl
@[simp] theorem powerOn_cmd (c : Config) (d : Nat) : (State.powerOn c d).cmd = 0 := rfl
@[simp] theorem powerOn_params (c : Config) (d : Nat) : (State.powerOn c d).params = Params.zero := rfl
@[simp] theorem powerOn_pending (c : Config) (d : Nat) : (State.powerOn c d).pending = none := rfl
@[simp] theorem powerOn_mem (c : Config) (d : Nat) : (State.powerOn c d).mem = { cells := [], unwritten := d } := rfl
@[simp] theorem powerOn_mover (c : Config) (d : Nat) : (State.powerOn c d).mover = .host := rfl
@[simp] theorem powerOn_turns (c : Config) (d : Nat) : (State.powerOn c d).turns = [] := rfl
@[simp] theorem powerOn_readData (c : Config) (d : Nat) : (State.powerOn c d).readData = 0 := rfl
@[simp] theorem powerOn_draws (c : Config) (d : Nat) : (State.powerOn c d).draws = d + 1 := rfl

/-! ## The pending command under a host write -/

@[simp] theorem afterWrite_op (a n : Nat) (p : Pending) : (p.afterWrite a n).op = p.op := rfl
@[simp] theorem afterWrite_params (a n : Nat) (p : Pending) : (p.afterWrite a n).params = p.params := rfl
@[simp] theorem afterWrite_writes (a n : Nat) (p : Pending) : (p.afterWrite a n).writes = p.writes := rfl
@[simp] theorem afterWrite_bytes (a n : Nat) (p : Pending) : (p.afterWrite a n).bytes = p.bytes := rfl

/-! ## Soft reset -/

theorem softReset_idle (s : State) (h : s.pending = none) : s.softReset = s.resetRegisters := by
  simp only [State.softReset, h]

theorem softReset_busy (s : State) (p : Pending) (h : s.pending = some p) :
    s.softReset = { s.resetRegisters with mem := s.mem.scramble s.draws p.writes, draws := s.draws + 1 } := by
  simp only [State.softReset, h]

@[simp] theorem softReset_config (s : State) : s.softReset.config = s.config := by
  simp only [State.softReset]; split <;> rfl

@[simp] theorem softReset_turns (s : State) : s.softReset.turns = s.turns := by
  simp only [State.softReset]; split <;> rfl

@[simp] theorem softReset_pending (s : State) : s.softReset.pending = none := by
  simp only [State.softReset]; split <;> rfl

end Sys2Proof.Machine
end

