-- ==== Sys2Proof/Laws/Ops.lean ====
section
/-!
SUPPORT. One lemma for each shared operation that says what it can do: block sets, the start of a command, the shared
meaning of the commands, the host's accesses and the step.
-/

namespace Sys2Proof.Machine

/-! ## Byte sets -/

theorem inBlocks_iff (bs : List Block) (a : Nat) : inBlocks bs a = true ↔ ∃ b ∈ bs, b.base ≤ a ∧ a < b.base + b.len := by
  simp only [inBlocks, List.any_eq_true, has_iff]

theorem meets_iff (x y : Block) : x.meets y = true ↔ ∃ a, x.has a = true ∧ y.has a = true := by
  simp only [Block.meets, decide_eq_true_eq, has_iff]
  constructor
  · intro h; exact ⟨max x.base y.base, by omega⟩
  · rintro ⟨a, h1, h2⟩; omega

/-- Blocks meet exactly when they share a byte (20_memory.md R53, "exact byte sets"). -/
theorem blocksMeet_iff (xs ys : List Block) :
    blocksMeet xs ys = true ↔ ∃ a, inBlocks xs a = true ∧ inBlocks ys a = true := by
  simp only [blocksMeet, inBlocks, List.any_eq_true, meets_iff]
  constructor
  · rintro ⟨x, hx, y, hy, a, h1, h2⟩; exact ⟨a, ⟨x, hx, h1⟩, ⟨y, hy, h2⟩⟩
  · rintro ⟨a, ⟨x, hx, h1⟩, ⟨y, hy, h2⟩⟩; exact ⟨x, hx, y, hy, a, h1, h2⟩

/-- The groups of a butterfly as a byte set. -/
theorem inBlocks_groupBlocks (base n spacing span a : Nat) :
    inBlocks (groupBlocks base n spacing span) a = true ↔ InGroups base n spacing span a := by
  simp only [inBlocks_iff, groupBlocks, List.mem_map, List.mem_range, InGroups]
  constructor
  · rintro ⟨_, ⟨i, hi, rfl⟩, h1, h2⟩; exact ⟨i, hi, h1, by simp only at h2; omega⟩
  · rintro ⟨i, hi, h1, h2⟩; exact ⟨_, ⟨i, hi, rfl⟩, h1, by simp only; omega⟩

/-! ## The start of a command -/

theorem startCommand_busy (v : Word) (verdict : Config → Params → Except Rejection Instr) (s : State)
    (h : s.busy = true) : s.startCommand v verdict = s.dropCommand := by
  simp only [State.startCommand, h, if_true]

theorem startCommand_error (v : Word) (verdict : Config → Params → Except Rejection Instr) (s : State) (r : Rejection)
    (h : s.busy = false) (hv : verdict s.config s.params = .error r) :
    s.startCommand v verdict = (s.beginStart v).reject r := by
  simp [State.startCommand, h, hv]

theorem startCommand_ok (v : Word) (verdict : Config → Params → Except Rejection Instr) (s : State) (i : Instr)
    (h : s.busy = false) (hv : verdict s.config s.params = .ok i) :
    s.startCommand v verdict = (s.beginStart v).accept i := by
  simp [State.startCommand, h, hv]

/-- Everything a start can do: drop, reject or accept (60_exceptions.md R111). -/
theorem startCommand_cases (v : Word) (verdict : Config → Params → Except Rejection Instr) (s : State) :
    (s.busy = true ∧ s.startCommand v verdict = s.dropCommand) ∨
    (s.busy = false ∧ ∃ r, verdict s.config s.params = .error r ∧
      s.startCommand v verdict = (s.beginStart v).reject r) ∨
    (s.busy = false ∧ ∃ i, verdict s.config s.params = .ok i ∧
      s.startCommand v verdict = (s.beginStart v).accept i) := by
  cases hb : s.busy with
  | true => exact .inl ⟨rfl, startCommand_busy v verdict s hb⟩
  | false =>
    cases hv : verdict s.config s.params with
    | error r => exact .inr (.inl ⟨rfl, r, rfl, startCommand_error v verdict s r hb hv⟩)
    | ok i => exact .inr (.inr ⟨rfl, i, rfl, startCommand_ok v verdict s i hb hv⟩)

/-! ## The commands -/

/-- The RAM transformation of each command. -/
def commandRam : Instr → Params → Memory → Memory
  | .prerot => prerotRam
  | .postrot => postrotRam
  | .bfly3 => bfly3Ram
  | .bfly4m1 => bfly4m1Ram
  | .bfly4 => bfly4Ram
  | .bfly5 => bfly5Ram

/-- Every command is the shared meaning over its own checks and its own RAM transformation. -/
theorem exec_eq_runCommand (op : Instr) (s : State) : exec op s = runCommand op (startCheck op) (commandRam op) s := by
  cases op <;> rfl

/-- What a command's checks decide at its start. -/
def startVerdict (op : Instr) (c : Config) (P : Params) : Except Rejection Instr :=
  match startCheck op c P with
  | some r => .error r
  | none => .ok op

/-- In the host's step a command is started by its word. -/
theorem exec_host (op : Instr) (s : State) (h : s.mover = .host) :
    exec op s = .next (s.startCommand (encode op) (startVerdict op)) := by
  rw [exec_eq_runCommand]; simp only [runCommand, h]; rfl

/-- Everything a command can do in the engine's step: nothing where it is not the pending one, the fault where no start
accepts the snapshot, else its completion. -/
theorem exec_engine_cases (op : Instr) (s : State) (h : s.mover = .engine) :
    ((∀ p, s.pending = some p → p.op ≠ op) ∧ exec op s = .next s) ∨
    (∃ p, s.pending = some p ∧ p.op = op ∧ startCheck op s.config p.params ≠ none ∧ exec op s = .fault .notAccepted) ∨
    (∃ p, s.pending = some p ∧ p.op = op ∧ startCheck op s.config p.params = none ∧
      exec op s = .next (s.complete p (commandRam op))) := by
  rw [exec_eq_runCommand]
  cases hp : s.pending with
  | none => refine .inl ⟨fun p hc => (by cases hc), ?_⟩; simp only [runCommand, h, hp]
  | some p =>
    by_cases ho : p.op = op
    · cases hc : startCheck op s.config p.params with
      | some r => refine .inr (.inl ⟨p, rfl, ho, ?_, ?_⟩) <;> simp [runCommand, h, hp, ho, hc]
      | none => refine .inr (.inr ⟨p, rfl, ho, hc, ?_⟩); simp only [runCommand, h, hp, ho, hc, if_true]
    · refine .inl ⟨fun q hq => ?_, ?_⟩
      · cases hq; exact ho
      · simp only [runCommand, h, hp, if_neg ho]

/-- The completion of an accepted command that nobody disturbed. -/
theorem exec_completing (op : Instr) (P : Params) (s : State) (h : Completing op P s) :
    exec op s = .next (s.completeWith (commandRam op P s.mem)) := by
  rcases exec_engine_cases op s h.mover with ⟨hn, _⟩ | ⟨p, hp, _, hc, _⟩ | ⟨p, hp, _, _, he⟩
  · exact absurd rfl (hn _ h.pending)
  · rw [h.pending] at hp; cases hp; exact absurd h.accepted hc
  · rw [h.pending] at hp; cases hp; rw [he]; rfl

/-- No command refuses. -/
theorem exec_not_refused (op : Instr) (s : State) (r : Refusal) : exec op s ≠ .refused r := by
  cases hm : s.mover with
  | host => rw [exec_host op s hm]; exact fun h => by cases h
  | engine =>
    rcases exec_engine_cases op s hm with ⟨_, he⟩ | ⟨_, _, _, _, he⟩ | ⟨_, _, _, _, he⟩ <;> rw [he] <;> exact fun h => by cases h

/-! ## The host's accesses -/

@[simp] theorem regAt_regOffset (r : Reg) : regAt (regOffset r) = some r := by cases r <;> rfl

theorem regOffset_of_regAt (off : Nat) (r : Reg) (h : regAt off = some r) : regOffset r = off := by
  have := List.find?_some h
  simpa using this

theorem regOffset_lt (r : Reg) : regOffset r < registerBlockBytes := by cases r <;> decide

theorem regOffset_aligned (r : Reg) : regOffset r % 4 = 0 := by cases r <;> rfl

/-- An offset in the register block decodes to itself. -/
theorem offset?_register (c : Config) (off : Nat) (h : off < registerBlockBytes) :
    c.offset? (c.engineBase + off) = some off := by
  rw [Config.offset?, if_pos (by omega), Nat.add_sub_cancel_left]

/-- A RAM byte's host address decodes to its place in the window. -/
theorem offset?_ram (c : Config) (a : Nat) (h : a < c.memBytes) :
    c.offset? (ramAddr c a) = some (registerBlockBytes + a) := by
  rw [Config.offset?, ramAddr, if_pos (by omega), Nat.add_assoc, Nat.add_sub_cancel_left]

theorem ramAccessOk_bounds (c : Config) (n a : Nat) (h : ramAccessOk c n a = true) :
    0 < n ∧ n ≤ 8 ∧ a + n ≤ c.memBytes := by
  simp only [ramAccessOk, Bool.and_eq_true, Bool.or_eq_true, beq_iff_eq, decide_eq_true_eq] at h
  obtain ⟨⟨h1, _⟩, h3⟩ := h
  omega

theorem hostAction_registerWrite (s : State) (off : Nat) (x : BitVec 64) (h : off < registerBlockBytes)
    (ha : off % 4 = 0) :
    hostAction (.write 4 (s.config.engineBase + off) x) s = writeOffset off (x.setWidth 32) s := by
  simp [hostAction, Access.addr, offset?_register s.config off h, h, registerAction, registerAccessOk, Access.width, ha]

theorem hostAction_registerRead (s : State) (off : Nat) (h : off < registerBlockBytes) (ha : off % 4 = 0) :
    hostAction (.read 4 (s.config.engineBase + off)) s =
      .moved { s with readData := (readOffset off s).setWidth 64 } := by
  simp [hostAction, Access.addr, offset?_register s.config off h, h, registerAction, registerAccessOk, Access.width, ha]

theorem hostAction_ramWrite (s : State) (n a : Nat) (v : BitVec 64) (h : ramAccessOk s.config n a = true) :
    hostAction (.write n (ramAddr s.config a) v) s = .moved (s.ramWrite a n v) := by
  have hb := ramAccessOk_bounds _ _ _ h
  simp [hostAction, Access.addr, offset?_ram s.config a (by omega), ramAction, Access.width, h]

theorem hostAction_ramRead (s : State) (n a : Nat) (h : ramAccessOk s.config n a = true) :
    hostAction (.read n (ramAddr s.config a)) s = .moved (s.ramRead a n) := by
  have hb := ramAccessOk_bounds _ _ _ h
  simp [hostAction, Access.addr, offset?_ram s.config a (by omega), ramAction, Access.width, h]

/-- Everything a register write can do. -/
theorem writeReg_cases (r : Reg) (v : Word) (s : State) :
    (r = .cmd ∧ writeReg r v s = .start v) ∨
    (r = .ctrl ∧ writeReg r v s = .moved (writeCtrl v s)) ∨
    (r = .status ∧ writeReg r v s = .moved { s with status := s.status.writeOneToClear v }) ∨
    (∃ P, writeReg r v s = .moved { s with params := P }) := by
  cases r
  case cmd => exact .inl ⟨rfl, rfl⟩
  case ctrl => exact .inr (.inl ⟨rfl, rfl⟩)
  case status => exact .inr (.inr (.inl ⟨rfl, rfl⟩))
  all_goals exact .inr (.inr (.inr ⟨_, rfl⟩))

/-- Everything a host access can come to. -/
theorem hostAction_cases (x : Access) (s : State) :
    (∃ r, hostAction x s = .refused r ∧ x.wf s.config = false) ∨
    (x.wf s.config = true ∧
      ((∃ v, x = .write 4 (regAddr s.config .cmd) v ∧ hostAction x s = .start (v.setWidth 32)) ∨
       (∃ v, x = .write 4 (regAddr s.config .ctrl) v ∧ hostAction x s = .moved (writeCtrl (v.setWidth 32) s)) ∨
       (∃ v, x = .write 4 (regAddr s.config .status) v ∧
          hostAction x s = .moved { s with status := s.status.writeOneToClear (v.setWidth 32) }) ∨
       (∃ P, hostAction x s = .moved { s with params := P }) ∨
       (∃ d, hostAction x s = .moved { s with readData := d }) ∨
       (∃ n a, ramAccessOk s.config n a = true ∧ hostAction x s = .moved (s.ramRead a n)) ∨
       (∃ n a v, ramAccessOk s.config n a = true ∧ hostAction x s = .moved (s.ramWrite a n v)))) := by
  cases ho : s.config.offset? x.addr with
  | none => exact .inl ⟨.outsideAperture, by simp only [hostAction, ho], by simp only [Access.wf, ho]⟩
  | some off =>
    have haddr : x.addr = s.config.engineBase + off := by
      simp only [Config.offset?] at ho
      split at ho
      · simp only [Option.some.injEq] at ho; omega
      · cases ho
    by_cases hreg : off < registerBlockBytes
    · have hwf : x.wf s.config = registerAccessOk x.width off := by simp only [Access.wf, ho, if_pos hreg]
      have hact : hostAction x s = registerAction x off s := by simp only [hostAction, ho, if_pos hreg]
      rw [hwf, hact]
      cases hok : registerAccessOk x.width off with
      | false => exact .inl ⟨.registerAccess, by simp [registerAction, hok], rfl⟩
      | true =>
        refine .inr ⟨rfl, ?_⟩
        have hw : x.width = 4 := by
          simp only [registerAccessOk, Bool.and_eq_true, beq_iff_eq] at hok; exact hok.1
        cases x with
        | read n a => 
          refine .inr (.inr (.inr (.inr (.inl ⟨(readOffset off s).setWidth 64, ?_⟩))))
          simp only [registerAction, hok, if_true]
        | write n a v =>
          simp only [Access.width] at hw
          simp only [Access.addr] at haddr
          subst hw
          simp only [registerAction, hok, if_true]
          cases hr : regAt off with
          | none =>
            refine .inr (.inr (.inr (.inl ⟨s.params, ?_⟩)))
            simp only [writeOffset, hr]
          | some r =>
            have hoff := regOffset_of_regAt off r hr
            have hsame : a = regAddr s.config r := by rw [haddr, regAddr, hoff]
            simp only [writeOffset, hr]
            rcases writeReg_cases r (v.setWidth 32) s with ⟨rfl, h⟩ | ⟨rfl, h⟩ | ⟨rfl, h⟩ | ⟨P, h⟩
            · exact .inl ⟨v, by rw [hsame], h⟩
            · exact .inr (.inl ⟨v, by rw [hsame], h⟩)
            · exact .inr (.inr (.inl ⟨v, by rw [hsame], h⟩))
            · exact .inr (.inr (.inr (.inl ⟨P, h⟩)))
    · have hwf : x.wf s.config = ramAccessOk s.config x.width (off - registerBlockBytes) := by
        simp only [Access.wf, ho, if_neg hreg]
      have hact : hostAction x s = ramAction x (off - registerBlockBytes) s := by
        simp only [hostAction, ho, if_neg hreg]
      rw [hwf, hact]
      cases hok : ramAccessOk s.config x.width (off - registerBlockBytes) with
      | false => exact .inl ⟨.ramAccess, by simp [ramAction, hok], rfl⟩
      | true =>
        refine .inr ⟨rfl, ?_⟩
        cases x with
        | read n a =>
          exact .inr (.inr (.inr (.inr (.inr (.inl ⟨n, _, hok, by simp only [ramAction, hok, if_true]⟩)))))
        | write n a v =>
          exact .inr (.inr (.inr (.inr (.inr (.inr ⟨n, _, v, hok, by simp only [ramAction, hok, if_true]⟩)))))

/-! ## The step -/

theorem step_nil (s : State) (h : s.turns = []) : step s = engineStep s := by simp only [step, h, idleStep]

theorem step_host (s : State) (x : Access) (rest : List Turn) (h : s.turns = .host x :: rest) :
    step s = hostStep x { s with turns := rest, mover := .host } := by simp only [step, h, turnStep]

theorem step_engine (s : State) (rest : List Turn) (h : s.turns = .engine :: rest) :
    step s = engineStep { s with turns := rest } := by simp only [step, h, turnStep]

theorem step_powerOn (s : State) (rest : List Turn) (h : s.turns = .powerOn :: rest) :
    step s = .next { s with turns := rest }.powerOnReset := by simp only [step, h, turnStep]

end Sys2Proof.Machine
end

