-- ==== Sys2Proof/Laws/Turns.lean ====
section
/-!
SUPPORT. A step reads no turn but its own: with other turns to come it answers the same, and leaves those
(70_reset_and_hazards.md R146).
-/

namespace Sys2Proof.Machine

/-- The outcome of a step with the turns to come replaced. -/
def withTurns (rest : List Turn) : Result → Result
  | .next t => .next { t with turns := rest }
  | .fault e => .fault e
  | .refused e => .refused e

theorem startCommand_turns (v : Word) (verdict : Config → Params → Except Rejection Instr) (s : State) (rest : List Turn) :
    ({ s with turns := rest } : State).startCommand v verdict = { s.startCommand v verdict with turns := rest } := by
  cases h1 : s.pending <;> cases h2 : verdict s.config s.params <;>
    simp [State.startCommand, State.busy, h1, h2, State.dropCommand, State.beginStart, State.reject, State.accept]

theorem exec_turns (op : Instr) (s : State) (rest : List Turn) :
    exec op { s with turns := rest } = withTurns rest (exec op s) := by
  rw [exec_eq_runCommand, exec_eq_runCommand]
  unfold runCommand
  simp only
  split
  · rw [startCommand_turns]; rfl
  · split
    · rfl
    · split
      · split
        · rfl
        · rename_i p _ _ _ _
          unfold State.complete; split <;> rfl
      · rfl

theorem engineStep_turns (s : State) (rest : List Turn) :
    engineStep { s with turns := rest } = withTurns rest (engineStep s) := by
  unfold engineStep
  simp only
  split
  · rfl
  · rename_i p _; exact exec_turns p.op { s with mover := .engine } rest

theorem runWord_turns (v : Word) (s : State) (rest : List Turn) :
    runWord v { s with turns := rest } = withTurns rest (runWord v s) := by
  unfold runWord
  split
  · exact exec_turns _ s rest
  · exact congrArg _ (startCommand_turns v _ s rest)

theorem softReset_withTurns (s : State) (rest : List Turn) :
    ({ s with turns := rest } : State).softReset = { s.softReset with turns := rest } := by
  unfold State.softReset; simp only; split <;> rfl

theorem writeCtrl_withTurns (v : Word) (s : State) (rest : List Turn) :
    writeCtrl v { s with turns := rest } = { writeCtrl v s with turns := rest } := by
  unfold writeCtrl; split
  · exact softReset_withTurns s rest
  · rfl

theorem hostStep_turns (x : Access) (s : State) (rest : List Turn) :
    hostStep x { s with turns := rest } = withTurns rest (hostStep x s) := by
  unfold hostStep hostAction
  simp only
  cases s.config.offset? x.addr with
  | none => rfl
  | some off =>
    simp only
    by_cases hr : off < registerBlockBytes
    · simp only [if_pos hr, registerAction]
      cases registerAccessOk x.width off with
      | false => rfl
      | true =>
        cases x with
        | read n a =>
          simp only [if_true, readOffset, withTurns]
          cases hg : regAt off with
          | none => rfl
          | some r => cases r <;> rfl
        | write n a v =>
          simp only [if_true, writeOffset]
          cases regAt off with
          | none => rfl
          | some r =>
            cases r
            case cmd => exact runWord_turns _ s rest
            case ctrl => exact congrArg Host.Outcome.next (writeCtrl_withTurns _ s rest)
            all_goals rfl
    · simp only [if_neg hr, ramAction]
      cases ramAccessOk s.config x.width (off - registerBlockBytes) with
      | false => rfl
      | true => cases x <;> rfl

/-- A step reads no later turn: it takes its own and leaves the others. -/
theorem step_cons (s : State) (t : Turn) (rest : List Turn) :
    step { s with turns := t :: rest } = withTurns rest (step { s with turns := [t] }) := by
  cases t with
  | host x =>
    rw [step_host _ x rest rfl, step_host _ x [] rfl]
    exact hostStep_turns x { s with turns := [], mover := .host } rest
  | engine =>
    rw [step_engine _ rest rfl, step_engine _ [] rfl]
    exact engineStep_turns { s with turns := [] } rest
  | powerOn => rw [step_powerOn _ rest rfl, step_powerOn _ [] rfl]; rfl

end Sys2Proof.Machine
end

