-- ==== Sys2Proof/Laws/HostProgram.lean ====
section
/-!
SUPPORT. What a host program's moves and labels can do (30_encoding.md R66 to R68), said once.
-/

namespace Sys2Proof.Machine

/-! ## Labels -/

theorem lastLabel_append (name : String) (xs ys : List Stmt) :
    lastLabel name (xs ++ ys) =
      match lastLabel name ys with
      | some j => some (xs.length + j)
      | none => lastLabel name xs := by
  induction xs with
  | nil => cases h : lastLabel name ys <;> simp [lastLabel, h]
  | cons st rest ih =>
    rw [List.cons_append, lastLabel, ih]
    cases h : lastLabel name ys with
    | none => rfl
    | some j => simp only [List.length_cons, Option.some.injEq]; omega

/-- Where a label is found, it stands, and nowhere later. -/
theorem lastLabel_spec (name : String) (prog : List Stmt) :
    (∀ j, lastLabel name prog = some j → prog[j]? = some (.label name)) ∧
    (lastLabel name prog = none → ∀ j : Nat, prog[j]? ≠ some (.label name)) := by
  induction prog with
  | nil => simp [lastLabel]
  | cons st rest ih =>
    cases h : lastLabel name rest with
    | some k => simpa [lastLabel, h] using ih.1 k h
    | none =>
      by_cases hs : st = .label name
      · simp [lastLabel, h, hs]
      · refine ⟨by simp [lastLabel, h, hs], fun _ j => ?_⟩
        cases j with
        | zero => simpa using hs
        | succ j => simpa using ih.2 h j

/-! ## Moves -/

/-- Everything a recorded turn can come to. -/
theorem takeTurn_cases (t : Turn) (next : State → Nat × List Listed) (r : HostRun) :
    (∃ s, step { r.machine with turns := [t] } = .next s ∧
      r.takeTurn t next =
        .next { machine := s, pos := (next s).1, turns := r.turns ++ [t], listed := r.listed ++ (next s).2 }) ∨
    (∃ e, step { r.machine with turns := [t] } = .fault e ∧ r.takeTurn t next = .fault e) ∨
    (∃ e, step { r.machine with turns := [t] } = .refused e ∧ r.takeTurn t next = .refused e) := by
  cases h : step { r.machine with turns := [t] } with
  | next s => exact .inl ⟨s, rfl, by simp only [HostRun.takeTurn, h]⟩
  | fault e => exact .inr (.inl ⟨e, rfl, by simp only [HostRun.takeTurn, h]⟩)
  | refused e => exact .inr (.inr ⟨e, rfl, by simp only [HostRun.takeTurn, h]⟩)

/-- A run is its first move and the run from there. -/
theorem run_cons (prog : List Stmt) (a : Agent) (rest : List Agent) (r r' : HostRun) (h : r.move prog a = .next r') :
    r.run prog (a :: rest) = r'.run prog rest := by simp only [HostRun.run, h]

end Sys2Proof.Machine
end

