-- ==== Sys2Proof/Laws/PerInstr.lean ====
section
/-!
SUPPORT. A statement made of each command, one lemma a constructor.
-/

namespace Sys2Proof.Laws.CommandWord

/-- The command is well formed, and its word has RSV = 0 and an OP that the opcode map gives to it and to no other
command (30_encoding.md R61, R62). -/
def Statement (i : Instr) : Prop :=
  i.wf = true ∧ rsvField (encode i) = 0 ∧ opcode (opField (encode i)).toNat = some i

theorem prerot : Statement .prerot := ⟨rfl, by decide, by decide⟩
theorem postrot : Statement .postrot := ⟨rfl, by decide, by decide⟩
theorem bfly3 : Statement .bfly3 := ⟨rfl, by decide, by decide⟩
theorem bfly4m1 : Statement .bfly4m1 := ⟨rfl, by decide, by decide⟩
theorem bfly4 : Statement .bfly4 := ⟨rfl, by decide, by decide⟩
theorem bfly5 : Statement .bfly5 := ⟨rfl, by decide, by decide⟩

end Sys2Proof.Laws.CommandWord
end

