-- ==== Sys2Proof/Tests/Slice0.lean ====
section
/-!
SUPPORT. Tests. The expected values are those of the spec: the opcode map (30_encoding.md R62), the vectors of
95_test_vectors.md, named in each comment, and the rules. Then a witness for each statement with hypotheses.
-/

open Sys2Proof Sys2Proof.Machine

namespace Sys2Proof.Tests

/-! ## Well-formedness: a term that each check refuses -/

theorem test_config_refuses_size_not_multiple_of_8 : ({ Config.reference with memBytes := 65537 } : Config).legal = false := by decide
theorem test_config_refuses_size_below_8 : ({ Config.reference with memBytes := 0 } : Config).legal = false := by decide
theorem test_config_refuses_size_above_2_24 : ({ Config.reference with memBytes := 2 ^ 24 + 8 } : Config).legal = false := by decide
theorem test_config_takes_both_ends :
    ({ Config.reference with memBytes := 8 } : Config).legal = true ∧
    ({ Config.reference with memBytes := 2 ^ 24 } : Config).legal = true := by decide
theorem test_access_refuses_narrow_register_read : (Access.read 1 0x0C).wf Config.reference = false := by decide
theorem test_access_refuses_misaligned_register_write : (Access.write 4 0x0E 0).wf Config.reference = false := by decide
theorem test_access_refuses_ram_width_3 : (Access.read 3 0x10000).wf Config.reference = false := by decide
theorem test_access_refuses_misaligned_ram_write : (Access.write 8 0x10004 0).wf Config.reference = false := by decide
theorem test_access_refuses_beyond_the_aperture : (Access.read 4 0x20000).wf Config.reference = false := by decide
theorem test_access_takes_last_ram_bytes : (Access.read 8 0x1FFF8).wf Config.reference = true := by decide

/-! ## Decoding: words written out from the opcode map (OP in bits 3 to 0, RSV in bits 31 to 4) -/

theorem test_decode_prerot : decode 0b00000000000000000000000000000001#32 = .ok .prerot := by decide
theorem test_decode_postrot : decode 0b00000000000000000000000000000010#32 = .ok .postrot := by decide
theorem test_decode_bfly3 : decode 0b00000000000000000000000000000011#32 = .ok .bfly3 := by decide
theorem test_decode_bfly4m1 : decode 0b00000000000000000000000000000100#32 = .ok .bfly4m1 := by decide
theorem test_decode_bfly4 : decode 0b00000000000000000000000000000101#32 = .ok .bfly4 := by decide
theorem test_decode_bfly5 : decode 0b00000000000000000000000000000110#32 = .ok .bfly5 := by decide
theorem test_decode_refuses_op_0_and_7 :
    decode 0x00000000#32 = .error .reservedOp ∧ decode 0x00000007#32 = .error .reservedOp := by decide
theorem test_decode_refuses_rsv :
    decode 0x00000011#32 = .error .reservedBits ∧ decode 0x80000001#32 = .error .reservedBits := by decide

/-! ## Arithmetic (95_test_vectors.md section 2) -/

theorem test_add_signed_zeros : add32 0x00000000 0x80000000 = 0x00000000 ∧ add32 0x80000000 0x80000000 = 0x80000000 := by
  decide -- V-N-1, V-N-2
theorem test_add_overflow_threshold :
    add32 0x7F7FFFFF 0x73000000 = 0x7F800000 ∧ add32 0x7F7FFFFF 0x72FFFFFF = 0x7F7FFFFF := by
  decide +kernel -- V-N-10, V-N-11
theorem test_add_invalid : add32 0x7F800000 0xFF800000 = 0x7FC00000 := by decide -- V-N-6
theorem test_mul_invalid : mul32 0x00000000 0x7F800000 = 0x7FC00000 := by decide -- V-N-7
theorem test_half_ties_to_even : half 0x00000001 = 0x00000000 ∧ half 0x00000003 = 0x00000002 := by
  decide +kernel -- V-N-12, V-N-13
theorem test_narrow_ties_to_even :
    narrow 0x3FF0000010000000 = 0x3F800000 ∧ narrow 0x3FF0000030000000 = 0x3F800002 := by
  decide +kernel -- V-N-18, V-N-19
theorem test_narrow_subnormals :
    narrow 0x3690000000000000 = 0x00000000 ∧ narrow 0x3698000000000000 = 0x00000001 ∧
    narrow 0xB690000000000000 = 0x80000000 := by decide +kernel -- V-N-25 to V-N-27
theorem test_narrow_overflow : narrow 0x47EFFFFFF0000000 = 0x7F800000 ∧ narrow 0x47EFFFFFE0000000 = 0x7F7FFFFF := by
  decide +kernel -- V-N-30, V-N-31
theorem test_cmul_by_one_is_not_identity :
    cmul ⟨0x80000000, 0x80000000⟩ ⟨0x3F800000, 0x00000000⟩ = ⟨0x00000000, 0x80000000⟩ ∧
    cmul ⟨0x3F800000, 0x7F800000⟩ ⟨0x3F800000, 0x00000000⟩ = ⟨0x7FC00000, 0x7F800000⟩ := by
  decide +kernel -- V-C-1, V-C-2
theorem test_rotations :
    addmj ⟨0x3F800000, 0x40000000⟩ ⟨0x40400000, 0x40800000⟩ = ⟨0x40A00000, 0xBF800000⟩ ∧
    addpj ⟨0x3F800000, 0x40000000⟩ ⟨0x40400000, 0x40800000⟩ = ⟨0xC0400000, 0x40A00000⟩ := by
  decide +kernel -- V-J-1, V-J-2

/-! ## The commands -/

/-- A RAM that holds the given binary32 lanes. -/
def lanes (ws : List (Nat × F32)) : Memory :=
  ws.foldl (fun m w => m.writeF32 w.1 w.2) { cells := [], unwritten := 0 }

/-- A RAM with the given binary64 elements written into it. -/
def doubles (ws : List (Nat × F64)) (m : Memory) : Memory := ws.foldl (fun m' w => m'.write w.1 8 w.2) m

/-- The reference machine in the engine's step, about to complete `op`. -/
def running (op : Instr) (P : Params) (mem : Memory) : State :=
  { State.reset with
    pending := some { op := op, params := P, disturbed := false }, cmd := encode op, mem := mem, mover := .engine }

/-- The lanes of the RAM after a step. -/
def lanesOf (o : Result) (as : List Nat) : List F32 :=
  match o with
  | .next t => as.map t.mem.readF32
  | _ => []

/-- What the host reads after a step. -/
def regsOf (o : Result) (rs : List Reg) : List Word :=
  match o with
  | .next t => rs.map fun r => readReg r t
  | _ => []

/-- The value on the host's read port after a step. -/
def readOf (o : Result) : Option (BitVec 64) :=
  match o with
  | .next t => some t.readData
  | _ => none

/-- The reference machine with one turn to come. -/
def withTurn (t : Turn) (s : State) : State := { s with turns := [t] }

/-- A host write to a register of the reference machine. -/
def wr (r : Reg) (v : Word) : Turn := .host (.write 4 (regOffset r) (v.setWidth 64))

def prerotParams : Params := { Params.zero with n2 := 4, n4 := 2, srcAddr := 0, bufAddr := 0x200, trigAddr := 0x100 }
def prerotMem : Memory :=
  doubles [(0, 0x3FF0000000000000), (8, 0x4000000000000000), (16, 0x4008000000000000), (24, 0x4010000000000000)]
    (lanes [(0x100, 0x3F800000), (0x104, 0x3F000000), (0x108, 0xBF000000), (0x10C, 0x3E800000)])

theorem test_prerot_small : -- V-PRE-1
    lanesOf (exec .prerot (running .prerot prerotParams prerotMem)) [0x200, 0x204, 0x208, 0x20C] =
      [0x40400000, 0x40600000, 0x3F800000, 0x3FE00000] := by decide +kernel

/-- V-PRE-3: narrowing overflow and infinity times zero. -/
def prerotNaN : State :=
  running .prerot { prerotParams with n2 := 2, n4 := 1 }
    (doubles [(0, 0x48078287F49C4A1D), (8, 0x3FF0000000000000)] (lanes [(0x100, 0x3F000000), (0x104, 0)]))

theorem test_prerot_nan : lanesOf (exec .prerot prerotNaN) [0x200, 0x204] = [0x7F800000, 0x7FC00000] := by
  decide +kernel

def postrotParams : Params := { Params.zero with n2 := 6, n4 := 3, bufAddr := 0x200, trigAddr := 0x100 }
def postrotMem : Memory :=
  lanes [(0x200, 0x3F800000), (0x204, 0x40000000), (0x208, 0x40400000), (0x20C, 0x40800000), (0x210, 0x40A00000),
    (0x214, 0x40C00000), (0x100, 0x3F800000), (0x104, 0x3F000000), (0x108, 0x3E800000), (0x10C, 0xBF000000),
    (0x110, 0xBE800000), (0x114, 0x3E000000)]

theorem test_postrot_odd : -- V-POST-2
    lanesOf (exec .postrot (running .postrot postrotParams postrotMem)) [0x200, 0x204, 0x208, 0x20C, 0x210, 0x214] =
      [0x3FC00000, 0xBF000000, 0x3FA00000, 0xC0200000, 0x40080000, 0xC0000000] := by decide +kernel

theorem test_postrot_infinity : -- V-POST-4
    lanesOf (exec .postrot (running .postrot { postrotParams with n2 := 2, n4 := 1 }
      (lanes [(0x200, 0x7F800000), (0x204, 0), (0x100, 0), (0x104, 0x3F800000)]))) [0x200, 0x204] =
      [0x7F800000, 0x7FC00000] := by decide +kernel

def bfly3Params : Params := { Params.zero with n := 1, mm := 3, fstride := 1, bufAddr := 0x200, twAddr := 0x300 }
def bfly3Mem : Memory :=
  lanes [(0x200, 0x3F800000), (0x204, 0x40000000), (0x208, 0x40400000), (0x20C, 0x40800000), (0x210, 0x40A00000),
    (0x214, 0x40C00000), (0x30C, 0xBF000000)]

theorem test_bfly3_small : -- V-B3-1; tw[1].re at 0x308 is not written: it is not read
    lanesOf (exec .bfly3 (running .bfly3 bfly3Params bfly3Mem)) [0x200, 0x204, 0x208, 0x20C, 0x210, 0x214] =
      [0x41100000, 0x41400000, 0xC0800000, 0xC0000000, 0xC0000000, 0xC0800000] := by decide +kernel

theorem test_bfly3_infinities : -- V-B3-5
    lanesOf (exec .bfly3 (running .bfly3 bfly3Params (lanes [(0x200, 0x3F800000), (0x204, 0), (0x208, 0x7F800000),
      (0x20C, 0), (0x210, 0x7F800000), (0x214, 0), (0x30C, 0xBF000000)]))) [0x200, 0x204, 0x208, 0x20C, 0x210, 0x214] =
      [0x7F800000, 0x00000000, 0xFF800000, 0x7FC00000, 0xFF800000, 0x7FC00000] := by decide +kernel

def bfly4m1Params : Params := { Params.zero with n := 1, bufAddr := 0x200 }
def bfly4m1Mem : Memory :=
  lanes [(0x200, 0x3F800000), (0x204, 0), (0x208, 0x40000000), (0x20C, 0), (0x210, 0x40400000), (0x214, 0),
    (0x218, 0x40800000), (0x21C, 0)]

theorem test_bfly4m1_small : -- V-B4M1-1
    lanesOf (exec .bfly4m1 (running .bfly4m1 bfly4m1Params bfly4m1Mem))
      [0x200, 0x204, 0x208, 0x20C, 0x210, 0x214, 0x218, 0x21C] =
      [0x41200000, 0, 0xC0000000, 0x40000000, 0xC0000000, 0, 0xC0000000, 0xC0000000] := by decide +kernel

def bfly4Params : Params := { Params.zero with n := 1, m := 1, mm := 4, bufAddr := 0x200, twAddr := 0x300 }

theorem test_bfly4_multiplies_at_position_0 : -- V-B4-2
    lanesOf (exec .bfly4 (running .bfly4 bfly4Params (lanes [(0x200, 0x80000000), (0x204, 0x80000000),
      (0x208, 0x80000000), (0x20C, 0x80000000), (0x210, 0x80000000), (0x214, 0x80000000), (0x218, 0x80000000),
      (0x21C, 0x80000000), (0x300, 0x3F800000), (0x304, 0)])))
      [0x200, 0x204, 0x208, 0x20C, 0x210, 0x214, 0x218, 0x21C] =
      [0, 0x80000000, 0, 0, 0, 0, 0x80000000, 0] := by decide +kernel

theorem test_bfly4_general : -- V-B4-1
    lanesOf (exec .bfly4 (running .bfly4 { bfly4Params with m := 2, mm := 8, fstride := 1 }
      (lanes [(0x200, 0x3F800000), (0x204, 0), (0x208, 0), (0x20C, 0x3F800000), (0x210, 0x40000000), (0x214, 0),
        (0x218, 0), (0x21C, 0x40000000), (0x220, 0x40400000), (0x224, 0), (0x228, 0), (0x22C, 0x40400000),
        (0x230, 0x40800000), (0x234, 0), (0x238, 0), (0x23C, 0x40800000), (0x300, 0x3F800000), (0x304, 0),
        (0x308, 0), (0x30C, 0xBF800000), (0x310, 0xBF800000), (0x314, 0), (0x318, 0), (0x31C, 0x3F800000)])))
      [0x208, 0x20C, 0x218, 0x21C, 0x228, 0x22C, 0x238, 0x23C] =
      [0xC0000000, 0xC0000000, 0, 0xC0000000, 0x40000000, 0xC0000000, 0, 0x41200000] := by decide +kernel

def bfly5Params : Params := { Params.zero with n := 1, mm := 5, fstride := 1, bufAddr := 0x200, twAddr := 0x300 }
def bfly5Mem : Memory :=
  lanes [(0x200, 0x3F800000), (0x204, 0), (0x208, 0x40000000), (0x20C, 0), (0x210, 0x40400000), (0x214, 0),
    (0x218, 0x40800000), (0x21C, 0), (0x220, 0x40A00000), (0x224, 0), (0x308, 0x3F000000), (0x30C, 0xBF000000),
    (0x310, 0xBE800000), (0x314, 0xBF400000)]

theorem test_bfly5_small : -- V-B5-1
    lanesOf (exec .bfly5 (running .bfly5 bfly5Params bfly5Mem))
      [0x200, 0x204, 0x208, 0x20C, 0x210, 0x214, 0x218, 0x21C, 0x220, 0x224] =
      [0x41700000, 0, 0x40300000, 0x40100000, 0x40300000, 0x3FE00000, 0x40300000, 0xBFE00000, 0x40300000,
       0xC0100000] := by decide +kernel

/-! ## Start checks (95_test_vectors.md section 7) -/

theorem test_check_param : -- E-5, E-38
    startCheck .prerot Config.reference { Params.zero with n2 := 5, n4 := 2 } = some ⟨.param, 0x20⟩ ∧
    startCheck .postrot Config.reference { Params.zero with n4 := 0x80000000 } = some ⟨.param, 0x20⟩ := by decide
theorem test_check_align_before_range : -- E-20
    startCheck .bfly4 Config.reference { bfly4Params with bufAddr := 0x20000, twAddr := 4 } = some ⟨.align, 0x4C⟩ := by
  decide
theorem test_check_range_ends : -- E-14, E-15, E-16, E-17
    startCheck .prerot Config.reference { prerotParams with n2 := 8, n4 := 4, srcAddr := 0xFFC0 } = none ∧
    startCheck .prerot Config.reference { prerotParams with n2 := 8, n4 := 4, srcAddr := 0xFFC8 } =
      some ⟨.range, 0x40⟩ ∧
    startCheck .bfly4m1 Config.reference { Params.zero with n := 0x800 } = none ∧
    startCheck .bfly4m1 Config.reference { Params.zero with n := 0x801 } = some ⟨.range, 0x44⟩ := by decide +kernel
theorem test_check_no_wrap : -- E-36, E-37
    startCheck .prerot Config.reference { prerotParams with n2 := 0xFFFFFFFE, n4 := 0x7FFFFFFF } =
      some ⟨.range, 0x40⟩ ∧
    startCheck .bfly4m1 Config.reference { Params.zero with n := 0x8000000 } = some ⟨.range, 0x44⟩ := by decide +kernel
theorem test_check_exact_overlap : -- E-29, E-30, E-31, E-32
    startCheck .bfly3 Config.reference { bfly3Params with bufAddr := 0x308 } = some ⟨.aliased, 0x4C⟩ ∧
    startCheck .bfly3 Config.reference { bfly3Params with n := 2, mm := 4, fstride := 0, bufAddr := 0x2E8 } = none ∧
    startCheck .bfly5 Config.reference { bfly5Params with fstride := 8, bufAddr := 0x308 } = none ∧
    startCheck .bfly5 Config.reference { bfly5Params with fstride := 8, bufAddr := 0x320 } =
      some ⟨.aliased, 0x4C⟩ := by decide +kernel
theorem test_check_spacing : -- E-21, E-22
    startCheck .bfly3 Config.reference { bfly3Params with n := 2, mm := 2 } = some ⟨.aliased, 0x30⟩ ∧
    startCheck .bfly3 Config.reference { bfly3Params with mm := 0 } = none := by decide +kernel

/-! ## Registers and the host port (95_test_vectors.md section 7) -/

theorem test_illegal_word_is_reported : -- V-REG-7
    regsOf (step (withTurn (wr .cmd 0x11) State.reset)) [.cmd, .status, .errcode, .errinfo] = [0x11, 4, 1, 0x18] := by
  decide
theorem test_busy_drops_even_an_illegal_word : -- V-REG-10
    regsOf (step (withTurn (wr .cmd 0) (running .bfly4m1 bfly4m1Params bfly4m1Mem))) [.status, .cmd, .errcode] =
      [9, 4, 0] := by decide +kernel
theorem test_ctrl_reserved_bits : -- V-REG-4
    regsOf (step (withTurn (wr .ctrl 0xFFFFFFFD) State.reset)) [.ctrl] = [1] := by decide
theorem test_soft_reset_discards_bit_0 : -- V-REG-5
    regsOf (step (withTurn (wr .ctrl 3) { State.reset with params := { Params.zero with n2 := 8 }, irqEn := true }))
      [.ctrl, .n2] = [0, 0] := by decide
theorem test_register_reads : -- V-REG-1, V-REG-3
    readOf (step (withTurn (.host (.read 4 0x000)) State.reset)) = some 0x494D4443 ∧
    readOf (step (withTurn (.host (.read 4 0x004)) State.reset)) = some 0x00010000 ∧
    readOf (step (withTurn (.host (.read 4 0xFFFC)) State.reset)) = some 0 := by decide
theorem test_little_endian_word_of_a_double : -- V-M-1
    readOf (step (withTurn (.host (.read 4 0x10004))
      { State.reset with mem := doubles [(0, 0x3FF0000000000000)] (lanes []) })) = some 0x3FF00000 := by decide +kernel
theorem test_pseudo_wait_polls_busy : -- 30_encoding.md R66, R67
    expand .wait = [.label "w", .poll .status 1 0 "w"] ∧ nextStmt (expand .wait) 1 1 = 0 ∧
    nextStmt (expand .wait) 1 2 = 2 := by decide
theorem test_second_wait_spins_on_itself : -- 95_test_vectors.md P2 has three WAITs; log entry 22
    nextStmt (expand .wait ++ expand .clear ++ expand .wait) 4 1 = 3 ∧
    nextStmt (expand .wait ++ expand .clear ++ expand .wait) 1 1 = 0 := by decide
theorem test_label_ahead_and_nowhere : -- log entry 22
    nextStmt [.poll .status 1 0 "a", .rd .id, .label "a"] 0 1 = 2 ∧ nextStmt [.poll .status 1 0 "a", .rd .id] 0 1 = 2 := by
  decide

/-- The encoding of a run. -/
def listedOf (o : HostResult) : List Listed :=
  match o with
  | .next r => r.listed
  | _ => []

theorem test_wait_lists_one_read_per_iteration : -- 30_encoding.md R68
    listedOf ((HostRun.start (running .bfly4m1 bfly4m1Params bfly4m1Mem)).run (expand .wait)
      [.host, .host, .engine, .host, .host]) = [⟨.read, 4, 0x00C, 1⟩, ⟨.read, 4, 0x00C, 2⟩] := by decide +kernel

/-! ## Witnesses: for each statement with hypotheses, states and operands that meet them all -/

/-- The reference machine meets the invariant. -/
theorem reset_inv : Inv State.reset where
  legal := by decide
  memWf := by decide
  memBelow := by decide
  notBoth := by decide
  errHasCode := by decide
  noCodeNoInfo := by decide
  doneNoCode := by decide
  pendingOk := fun p h => by cases h

/-- A busy machine meets the invariant. -/
theorem running_inv : Inv (running .bfly4m1 bfly4m1Params bfly4m1Mem) where
  legal := by decide
  memWf := by decide +kernel
  memBelow := by decide +kernel
  notBoth := by decide
  errHasCode := by decide
  noCodeNoInfo := by decide
  doneNoCode := by decide
  pendingOk := fun p h => by
    cases h
    exact ⟨by decide, rfl, rfl, rfl, rfl⟩

theorem witness_Completing_prerot : Completing .prerot prerotParams (running .prerot prerotParams prerotMem) :=
  ⟨rfl, rfl, by decide⟩
theorem witness_Completing_postrot : Completing .postrot postrotParams (running .postrot postrotParams postrotMem) :=
  ⟨rfl, rfl, by decide⟩
theorem witness_Completing_bfly3 : Completing .bfly3 bfly3Params (running .bfly3 bfly3Params bfly3Mem) :=
  ⟨rfl, rfl, by decide⟩
theorem witness_Completing_bfly4m1 :
    Completing .bfly4m1 bfly4m1Params (running .bfly4m1 bfly4m1Params bfly4m1Mem) := ⟨rfl, rfl, by decide⟩
theorem witness_Completing_bfly4 : Completing .bfly4 bfly4Params (running .bfly4 bfly4Params (lanes [])) :=
  ⟨rfl, rfl, by decide⟩
theorem witness_Completing_bfly5 : Completing .bfly5 bfly5Params (running .bfly5 bfly5Params bfly5Mem) :=
  ⟨rfl, rfl, by decide⟩

theorem witness_EncodeThenDecode : Instr.bfly5.wf = true := by decide

theorem witness_StepRunsTheDecodedCommand :
    (withTurn (wr .cmd 6) State.reset).turns = .host (.write 4 (regAddr Config.reference .cmd) 6) :: [] ∧
    decode ((6 : BitVec 64).setWidth 32) = .ok .bfly5 := by decide

theorem witness_EngineStep :
    (running .bfly4m1 bfly4m1Params bfly4m1Mem).pending = some ⟨.bfly4m1, bfly4m1Params, false⟩ ∧
    (running .bfly4m1 bfly4m1Params bfly4m1Mem).turns = [] ∧
    (withTurn .engine (running .bfly4m1 bfly4m1Params bfly4m1Mem)).turns = .engine :: [] := ⟨rfl, rfl, rfl⟩

theorem witness_IdleEngine : State.reset.pending = none ∧ State.reset.turns = [] ∧
    (withTurn .engine State.reset).turns = .engine :: [] := ⟨rfl, rfl, rfl⟩

theorem witness_CmdWrite_dropped :
    (withTurn (wr .cmd 4) (running .bfly4m1 bfly4m1Params bfly4m1Mem)).busy = true := rfl
theorem witness_CmdWrite_illegal :
    (withTurn (wr .cmd 7) State.reset).busy = false ∧ decode ((7 : BitVec 64).setWidth 32) = .error .reservedOp := by
  decide
theorem witness_CmdWrite_rejected :
    (withTurn (wr .cmd 4) { State.reset with params := { bfly4m1Params with bufAddr := 4 } }).busy = false ∧
    decode ((4 : BitVec 64).setWidth 32) = .ok .bfly4m1 ∧
    startCheck .bfly4m1 Config.reference { bfly4m1Params with bufAddr := 4 } = some ⟨.align, 0x44⟩ := by decide
theorem witness_CmdWrite_accepted :
    (withTurn (wr .cmd 4) { State.reset with params := bfly4m1Params }).busy = false ∧
    decode ((4 : BitVec 64).setWidth 32) = .ok .bfly4m1 ∧
    startCheck .bfly4m1 Config.reference bfly4m1Params = none := by decide

theorem witness_AcceptedStart : State.reset.mover = .host ∧ State.reset.pending = none ∧
    startCheck .bfly3 State.reset.config State.reset.params = none := by decide
theorem witness_RejectedStart :
    startCheck .prerot Config.reference { Params.zero with n4 := 1 } = some ⟨.param, 0x20⟩ := by decide
theorem witness_BusyDrops :
    ({ running .bfly4m1 bfly4m1Params bfly4m1Mem with mover := .host } : State).pending =
      some ⟨.bfly4m1, bfly4m1Params, false⟩ := rfl

theorem witness_FirstFailing_param : isRotation .postrot ∧ (0 : Nat) ≠ 2 * (0x80000000#32).toNat :=
  ⟨.inr rfl, by decide⟩
theorem witness_FirstFailing_align :
    zeroIterations .prerot { prerotParams with trigAddr := 0x102 } = false ∧
    FirstBase (Misaligned .prerot { prerotParams with trigAddr := 0x102 }) .trigAddr :=
  ⟨by decide, by decide, ⟨by decide, by decide⟩, by
    intro r hr hlt hm
    obtain ⟨_, h2⟩ := hm
    fin_cases hr <;> revert hlt h2 <;> decide⟩
theorem witness_FirstFailing_range :
    zeroIterations .bfly4m1 { Params.zero with n := 0x801 } = false ∧
    (∀ r ∈ baseRegs, ¬ Misaligned .bfly4m1 { Params.zero with n := 0x801 } r) ∧
    FirstBase (OutOfRange .bfly4m1 Config.reference { Params.zero with n := 0x801 }) .bufAddr := by
  refine ⟨by decide, ?_, by decide, ⟨0x10000, by decide, by decide⟩, ?_⟩
  · intro r hr hm
    obtain ⟨_, h2⟩ := hm
    fin_cases hr <;> revert h2 <;> decide
  · intro r hr hlt hm
    obtain ⟨a, ha, _⟩ := hm
    fin_cases hr
    · simp [regionOf, footprint, zeroIterations, bfly4m1Footprint, inBlocks] at ha
    all_goals revert hlt; decide

/-- A snapshot whose regions are empty but for BUF and TW is in range. -/
theorem not_outOfRange_of_blocks (op : Instr) (c : Config) (P : Params)
    (h : ∀ r ∈ baseRegs, ∀ b ∈ regionOf op P r, b.base + b.len ≤ c.memBytes) : ∀ r ∈ baseRegs, ¬ OutOfRange op c P r := by
  intro r hr ⟨a, ha, hm⟩
  rw [inBlocks_iff] at ha
  obtain ⟨b, hb, _, h2⟩ := ha
  have := h r hr b hb
  omega

theorem witness_FirstFailing_spacing :
    zeroIterations .bfly3 { bfly3Params with n := 2, mm := 2 } = false ∧
    (∀ r ∈ baseRegs, ¬ Misaligned .bfly3 { bfly3Params with n := 2, mm := 2 } r) ∧
    (∀ r ∈ baseRegs, ¬ OutOfRange .bfly3 Config.reference { bfly3Params with n := 2, mm := 2 } r) ∧
    GroupsTooClose .bfly3 { bfly3Params with n := 2, mm := 2 } := by
  refine ⟨by decide, ?_, not_outOfRange_of_blocks _ _ _ (by decide), ⟨3, by decide⟩⟩
  intro r hr hm
  obtain ⟨_, h2⟩ := hm
  fin_cases hr <;> revert h2 <;> decide

theorem witness_FirstFailing_overlap :
    zeroIterations .bfly3 { bfly3Params with bufAddr := 0x308 } = false ∧
    (∀ r ∈ baseRegs, ¬ Misaligned .bfly3 { bfly3Params with bufAddr := 0x308 } r) ∧
    (∀ r ∈ baseRegs, ¬ OutOfRange .bfly3 Config.reference { bfly3Params with bufAddr := 0x308 } r) ∧
    ¬ GroupsTooClose .bfly3 { bfly3Params with bufAddr := 0x308 } ∧
    FirstBase (OverlapsWrites .bfly3 { bfly3Params with bufAddr := 0x308 }) .twAddr := by
  refine ⟨by decide, ?_, not_outOfRange_of_blocks _ _ _ (by decide), ?_, by decide,
    ⟨by decide, 0x30C, by decide, by decide⟩, ?_⟩
  · intro r hr hm
    obtain ⟨_, h2⟩ := hm
    fin_cases hr <;> revert h2 <;> decide
  · rintro ⟨_, _, h2, _⟩; revert h2; decide
  · intro r hr hlt hm
    obtain ⟨hne, a, _, ha⟩ := hm
    fin_cases hr
    · simp [regionOf, footprint, zeroIterations, bfly3Footprint, bfly3Params, inBlocks] at ha
    · exact hne rfl
    · simp [regionOf, footprint, zeroIterations, bfly3Footprint, bfly3Params, inBlocks] at ha
    · revert hlt; decide

theorem witness_ZeroIteration :
    State.reset.mover = .host ∧ State.reset.pending = none ∧
    zeroIterations .prerot { Params.zero with srcAddr := 3, bufAddr := 5, trigAddr := 0x20001 } = true ∧
    zeroIterations .bfly4 { bfly4Params with m := 0 } = true := by decide

theorem witness_PostrotMiddlePair :
    postrotParams.n2.toNat = 2 * postrotParams.n4.toNat ∧ postrotParams.n4.toNat % 2 = 1 := by decide

theorem witness_EveryNaN :
    ∃ t, exec .prerot prerotNaN = .next t ∧
      ({ base := 0x200, len := 8 } : Block) ∈ (footprint .prerot { prerotParams with n2 := 2, n4 := 1 }).writes ∧
      isNaN32 (t.mem.readF32 (0x200 + 4 * 1)) :=
  ⟨_, exec_completing .prerot { prerotParams with n2 := 2, n4 := 1 } prerotNaN ⟨rfl, rfl, by decide⟩, by decide, by
    unfold isNaN32; decide +kernel⟩

theorem witness_CompletionReadsOnly :
    Completing .bfly4m1 bfly4m1Params (running .bfly4m1 bfly4m1Params (bfly4m1Mem.writeF32 0x1000 7)) ∧
    ∀ a, inBlocks (footprint .bfly4m1 bfly4m1Params).reads a = true →
      bfly4m1Mem.byte a = (bfly4m1Mem.writeF32 0x1000 7).byte a := by
  refine ⟨⟨rfl, rfl, by decide⟩, fun a ha => ?_⟩
  rw [inBlocks_iff] at ha
  obtain ⟨b, hb, h1, h2⟩ := ha
  have hb' : b = { base := 0x200, len := 32 } := by revert hb; simp [Footprint.reads, footprint, zeroIterations, bfly4m1Footprint, bfly4m1Params]
  subst hb'
  exact (byte_writeF32_of_outside _ _ _ _ (.inl (by simp only at h2; omega))).symm

theorem witness_CompletionIgnores_fault :
    exec .bfly4m1 (running .bfly4m1 { bfly4m1Params with bufAddr := 4 } bfly4m1Mem) = .fault .notAccepted := rfl

theorem witness_Disturbed :
    ({ running .bfly4m1 bfly4m1Params bfly4m1Mem with
        pending := some ⟨.bfly4m1, bfly4m1Params, true⟩ } : State).mover = .engine ∧
    startCheck .bfly4m1 Config.reference bfly4m1Params = none := by decide

theorem witness_SoftReset :
    (withTurn (wr .ctrl 2) State.reset).turns = .host (.write 4 (regAddr Config.reference .ctrl) 2) :: [] ∧
    (2 : BitVec 64).getLsbD 1 = true := by decide

theorem witness_SoftReset_busy :
    (withTurn (wr .ctrl 2) (running .bfly4m1 bfly4m1Params bfly4m1Mem)).pending =
      some ⟨.bfly4m1, bfly4m1Params, false⟩ := rfl

theorem witness_PowerOn : (withTurn .powerOn State.reset).turns = .powerOn :: [] := rfl

theorem witness_IdAndVersion :
    (withTurn (wr .version 1) State.reset).turns = .host (.write 4 (regAddr Config.reference .version) 1) :: [] := by
  decide

theorem witness_ParameterRegisters :
    (withTurn (wr .twAddr 0xFFFFFFFF) State.reset).turns =
      .host (.write 4 (regAddr Config.reference .twAddr) 0xFFFFFFFF) :: [] := by decide

theorem witness_ReadOnlyAndReserved :
    regAt 0xFFFC = none ∧ regAt 0x01C = none ∧ regAt 0x050 = none ∧ regAt 0 = some .id ∧ regAt 4 = some .version ∧
    regAt 0x10 = some .errcode ∧ regAt 0x14 = some .errinfo := by decide

theorem witness_RegisterReads :
    regAt 0x4C = some .twAddr ∧ regAt 0x3C = none ∧
    (withTurn (.host (.read 4 0xFFFC)) State.reset).turns = .host (.read 4 (Config.reference.engineBase + 0xFFFC)) :: [] := by
  decide
theorem witness_HostRamWrite_busy :
    (withTurn (.host (.write 8 0x1FFF8 5)) (running .bfly4m1 bfly4m1Params bfly4m1Mem)).pending =
      some ⟨.bfly4m1, bfly4m1Params, false⟩ := rfl

theorem witness_StatusWrite :
    (0xE : BitVec 64).getLsbD 1 = true ∧ (0xE : BitVec 64).getLsbD 2 = true ∧ (0xE : BitVec 64).getLsbD 3 = true ∧
    (0x1 : BitVec 64).getLsbD 1 = false ∧ (0x1 : BitVec 64).getLsbD 2 = false ∧ (0x1 : BitVec 64).getLsbD 3 = false := by
  decide

theorem witness_CtrlWrite : (0xFFFFFFFD : BitVec 64).getLsbD 1 = false := by decide

theorem witness_DropCleared_by_status :
    ∃ t, step (withTurn (wr .status 8) { State.reset with status := ⟨false, false, true⟩ }) = .next t ∧
      t.status.drop = false := ⟨_, rfl, by decide⟩
theorem witness_DropCleared_by_softReset :
    ∃ t, step (withTurn (wr .ctrl 2) { State.reset with status := ⟨false, false, true⟩ }) = .next t ∧
      t.status.drop = false := ⟨_, rfl, by decide⟩
theorem witness_DropCleared_by_powerOn :
    ∃ t, step (withTurn .powerOn { State.reset with status := ⟨false, false, true⟩ }) = .next t ∧
      t.status.drop = false := ⟨_, rfl, rfl⟩

theorem witness_BusyEnds_by_completion :
    ∃ t, step (running .bfly4m1 bfly4m1Params bfly4m1Mem) = .next t ∧ t.busy = false := ⟨_, rfl, rfl⟩
theorem witness_BusyEnds_by_softReset :
    ∃ t, step (withTurn (wr .ctrl 2) (running .bfly4m1 bfly4m1Params bfly4m1Mem)) = .next t ∧ t.busy = false :=
  ⟨_, rfl, rfl⟩
theorem witness_BusyEnds_by_powerOn :
    ∃ t, step (withTurn .powerOn (running .bfly4m1 bfly4m1Params bfly4m1Mem)) = .next t ∧ t.busy = false :=
  ⟨_, rfl, rfl⟩

theorem witness_HostRam_ends :
    ramAccessOk Config.reference 8 0xFFF8 = true ∧ ramAccessOk Config.reference 1 0 = true ∧
    (withTurn (.host (.write 8 0x1FFF8 5)) State.reset).turns =
      .host (.write 8 (ramAddr Config.reference 0xFFF8) 5) :: [] := by decide

theorem witness_HostReadsBack :
    ({ State.reset with turns := [.host (.write 2 0x10002 5), .host (.read 2 0x10002)] } : State).turns =
      [.host (.write 2 (ramAddr Config.reference 2) 5), .host (.read 2 (ramAddr Config.reference 2))] := by decide

theorem witness_HostRead_of_running_write_set :
    inBlocks (Pending.writes ⟨.bfly4m1, bfly4m1Params, false⟩) 0x21F = true ∧
    inBlocks (Pending.writes ⟨.bfly4m1, bfly4m1Params, false⟩) 0x220 = false ∧
    ramAccessOk Config.reference 8 0x218 = true := by decide

theorem witness_HostWrite_disturbs :
    inBlocks (Pending.bytes ⟨.bfly3, bfly3Params, false⟩) 0x30C = true ∧
    inBlocks (Pending.bytes ⟨.bfly3, bfly3Params, false⟩) 0x30B = false ∧
    ramAccessOk Config.reference 4 0x308 = true ∧ ramAccessOk Config.reference 4 0x30C = true := by decide

theorem witness_Refused : (Access.read 4 0x20000).wf Config.reference = false ∧
    (Access.read 4 0x1FFFC).wf Config.reference = true := by decide

/-! ### Arithmetic witnesses -/

theorem finite_one : unpack32 0x3F800000 = .fin false 8388608 (-23) := by decide
theorem finite_zero : unpack32 0x00000000 = .fin false 0 (-149) := by decide
theorem finite_minus_zero : unpack32 0x80000000 = .fin true 0 (-149) := by decide
theorem infinite_plus : unpack32 0x7F800000 = .inf false := by decide
theorem infinite_minus : unpack32 0xFF800000 = .inf true := by decide
theorem val_one : val32 0x3F800000 = 1 := by rw [val32, finite_one]; norm_num [FloatVal.rat]
theorem val_zero : val32 0x00000000 = 0 := by rw [val32, finite_zero]; norm_num [FloatVal.rat]
theorem val_minus_zero : val32 0x80000000 = 0 := by rw [val32, finite_minus_zero]; norm_num [FloatVal.rat]

theorem witness_Round32 : (1 : Nat) ≠ 0 := by decide
/-- The first magnitude that rounds to an infinity, and one below it. -/
theorem witness_Round32_threshold :
    (2 : ℚ) ^ 128 - 2 ^ 103 ≤ |(if false then -1 else 1) * ((2 ^ 25 - 1 : Nat) : ℚ) * (2 : ℚ) ^ (103 : Int)| ∧
    |(if true then -1 else 1) * ((2 ^ 26 - 3 : Nat) : ℚ) * (2 : ℚ) ^ (102 : Int)| < (2 : ℚ) ^ 128 - 2 ^ 103 := by
  constructor
  · rw [abs_of_nonneg (by norm_num)]; norm_num
  · rw [abs_of_nonpos (by norm_num)]; norm_num
/-- A tie: 2^-150 lies halfway between 0 and the smallest subnormal. -/
theorem witness_Round32_tie :
    |val32 0x00000001 - (2 : ℚ) ^ (-150 : Int)| = |val32 0x00000000 - (2 : ℚ) ^ (-150 : Int)| ∧
    val32 0x00000001 ≠ val32 0x00000000 := by
  have h : unpack32 0x00000001 = .fin false 1 (-149) := by decide
  have h1 : val32 0x00000001 = (2 : ℚ) ^ (-149 : Int) := by rw [val32, h]; norm_num [FloatVal.rat]
  rw [h1, val_zero]
  constructor
  · rw [abs_of_nonneg (by norm_num), abs_of_nonpos (by norm_num)]; norm_num
  · norm_num
theorem witness_Add32_infinities :
    unpack32 0x7F800000 = .inf false ∧ unpack32 0xFF800000 = .inf true ∧ isFinite32 0x3F800000 :=
  ⟨infinite_plus, infinite_minus, _, _, _, finite_one⟩
theorem witness_Add32_nonzero_sum : val32 0x3F800000 + val32 0x00000000 ≠ 0 := by rw [val_one, val_zero]; norm_num
theorem witness_Add32_zero_sums : val32 0x80000000 + val32 0x80000000 = 0 ∧ val32 0x00000000 + val32 0x80000000 = 0 := by
  rw [val_minus_zero, val_zero]; norm_num
theorem witness_Mul32_infinity_times_zero : ¬ isFinite32 0x7F800000 ∧ isFinite32 0x80000000 ∧ val32 0x80000000 = 0 := by
  refine ⟨?_, ⟨_, _, _, finite_minus_zero⟩, val_minus_zero⟩
  rintro ⟨_, _, _, h⟩; rw [infinite_plus] at h; cases h
theorem witness_Mul32_not_nan : ¬ isNaN32 0x7F800000 ∧ ¬ isNaN32 0x3F800000 := by unfold isNaN32; decide
theorem witness_Mul32_products : val32 0x3F800000 * val32 0x3F800000 ≠ 0 ∧ val32 0x3F800000 * val32 0x80000000 = 0 := by
  rw [val_one, val_minus_zero]; norm_num
theorem witness_Narrow :
    unpack64 0x7FF8000000000000 = .nan ∧ unpack64 0xFFF0000000000000 = .inf true ∧
    unpack64 0x8000000000000000 = .fin true 0 (-1074) ∧ unpack64 0x0000000000000001 = .fin false 1 (-1074) := by decide
theorem witness_OnlyCanonicalNaN :
    isNaN32 0x7F800001 ∧ isNaN32 (add32 0x7F800000 0xFF800000) ∧ isNaN32 (sub32 0x7F800000 0x7F800000) ∧
    isNaN32 (mul32 0x00000000 0x7F800000) ∧ isNaN32 (narrow 0xFFF0000000000001) := by unfold isNaN32; decide
theorem witness_SubtractionCorners : isFinite32 0x3F800000 ∧ unpack32 0xFF800000 = .inf true :=
  ⟨⟨_, _, _, finite_one⟩, infinite_minus⟩

/-! ### Whole-machine witnesses -/

theorem witness_PowerOnMeets : Config.reference.legal = true := by decide
theorem witness_EveryStepKeeps : Inv State.reset ∧ ∃ t, step (withTurn (wr .cmd 4) State.reset) = .next t ∧ t.busy = true :=
  ⟨reset_inv, _, rfl, rfl⟩
theorem witness_NoStepFaults : Inv (running .bfly4m1 bfly4m1Params bfly4m1Mem) := running_inv
theorem witness_OneTurn : ∃ t, step (withTurn (wr .n 1) State.reset) = .next t ∧ t.turns = [] := ⟨_, rfl, rfl⟩
theorem witness_PendingEnds : Inv (running .bfly4m1 bfly4m1Params bfly4m1Mem) ∧
    (running .bfly4m1 bfly4m1Params bfly4m1Mem).busy = true := ⟨running_inv, rfl⟩
theorem witness_PseudoStatements : State.reset.turns = [] ∧ State.reset.pending = none := by decide
theorem witness_PseudoStatements_wait_position :
    ({ HostRun.start State.reset with pos := 3 } : HostRun).pos = (expand .clear ++ expand .wait).length := by decide
theorem witness_HostStatements :
    ∃ t, step { State.reset with turns := [.host (.read 4 (State.reset.config.engineBase + (0x10000 + 0xFFFC)))] } =
      .next t := ⟨_, rfl⟩
theorem witness_HostStatements_label :
    ([.rd .id, .label "a"] : List Stmt)[1]? = some (.label "a") ∧
    ∀ j' : Nat, ([.rd .id, .label "a"] : List Stmt)[j']? = some (.label "a") → j' = 1 := by
  refine ⟨rfl, fun j' h => ?_⟩
  match j', h with
  | 0, h => simp at h
  | 1, _ => rfl
  | j + 2, h => simp at h
theorem witness_HostRunIsItsAccesses :
    ∃ r, (HostRun.start State.reset).run (expand .wait) [.host, .host, .engine] = .next r ∧ r.turns.length = 2 :=
  ⟨_, rfl, rfl⟩

end Sys2Proof.Tests
end

section
/-!
The two agents' steps and the data that no step touches (00_scope.md R6, R13; 70_reset_and_hazards.md R146): what the
engine's step does idle and busy, and that an operation of either agent keeps the machine's parameters and the turns
to come.
-/

namespace Sys2Proof.Machine

/-! ## The engine's step -/

theorem engineStep_idle (s : State) (h : s.pending = none) : engineStep s = .next s := by
  simp only [engineStep, h]

theorem engineStep_pending (s : State) (p : Pending) (h : s.pending = some p) :
    engineStep s = exec p.op { s with mover := .engine } := by
  simp only [engineStep, h]

/-- Settles O6: with no turn left and on its own turn alike, `step` is the engine's step. -/
theorem engineStepRunsThePendingCommand : Obligations.EngineStepRunsThePendingCommand := by
  intro s p hp
  constructor
  · intro hnil
    rw [step_nil s hnil, engineStep_pending s p hp]
  · intro rest hturns
    rw [step_engine s rest hturns]
    exact engineStep_pending { s with turns := rest } p hp

/-- Settles O7: `step` is the engine's step, which has nothing to complete. -/
theorem idleEngineChangesNothing : Obligations.IdleEngineChangesNothing := by
  intro s hidle
  constructor
  · intro hnil
    rw [step_nil s hnil, engineStep_idle s hidle]
  · intro rest hturns
    rw [step_engine s rest hturns]
    exact engineStep_idle { s with turns := rest } hidle

/-! ## What every operation keeps -/

/-- `t` is a state of the machine of `s`, with the same turns to come. -/
def SameMachineAndTurns (s t : State) : Prop := t.config = s.config ∧ t.turns = s.turns

theorem startCommand_sameMachineAndTurns (v : Word) (verdict : Config → Params → Except Rejection Instr) (s : State) :
    SameMachineAndTurns s (s.startCommand v verdict) := by
  obtain ⟨_, h⟩ | ⟨_, r, _, h⟩ | ⟨_, i, _, h⟩ := startCommand_cases v verdict s <;> rw [h] <;> exact ⟨rfl, rfl⟩

theorem complete_sameMachineAndTurns (p : Pending) (effect : Params → Memory → Memory) (s : State) :
    SameMachineAndTurns s (s.complete p effect) := by
  unfold State.complete
  split <;> exact ⟨rfl, rfl⟩

theorem writeCtrl_sameMachineAndTurns (v : Word) (s : State) : SameMachineAndTurns s (writeCtrl v s) := by
  unfold writeCtrl
  split
  · exact ⟨softReset_config s, softReset_turns s⟩
  · exact ⟨rfl, rfl⟩

theorem exec_sameMachineAndTurns (op : Instr) (s t : State) (h : exec op s = .next t) : SameMachineAndTurns s t := by
  cases hm : s.mover with
  | host =>
    rw [exec_host op s hm] at h
    cases h
    exact startCommand_sameMachineAndTurns _ _ s
  | engine =>
    obtain ⟨_, he⟩ | ⟨p, _, _, _, he⟩ | ⟨p, _, _, _, he⟩ := exec_engine_cases op s hm <;> rw [he] at h <;> cases h
    · exact ⟨rfl, rfl⟩
    · exact complete_sameMachineAndTurns p _ s

theorem runWord_sameMachineAndTurns (v : Word) (s t : State) (h : runWord v s = .next t) :
    SameMachineAndTurns s t := by
  unfold runWord at h
  split at h
  · exact exec_sameMachineAndTurns _ s t h
  · cases h
    exact startCommand_sameMachineAndTurns v _ s

theorem hostAction_moved_sameMachineAndTurns (x : Access) (s t : State) (h : hostAction x s = .moved t) :
    SameMachineAndTurns s t := by
  obtain ⟨_, he, _⟩ | ⟨_, ⟨_, _, he⟩ | ⟨v, _, he⟩ | ⟨_, _, he⟩ | ⟨_, he⟩ | ⟨_, he⟩ | ⟨_, _, _, he⟩ | ⟨_, _, _, _, he⟩⟩ :=
      hostAction_cases x s <;> rw [he] at h <;> cases h
  case inr.inr.inl => exact writeCtrl_sameMachineAndTurns _ s
  all_goals exact ⟨rfl, rfl⟩

theorem hostStep_sameMachineAndTurns (x : Access) (s t : State) (h : hostStep x s = .next t) :
    SameMachineAndTurns s t := by
  unfold hostStep at h
  split at h
  next v _ => exact runWord_sameMachineAndTurns v s t h
  next u hmoved =>
    cases h
    exact hostAction_moved_sameMachineAndTurns x s t hmoved
  next => cases h

theorem engineStep_sameMachineAndTurns (s t : State) (h : engineStep s = .next t) : SameMachineAndTurns s t := by
  cases hp : s.pending with
  | none =>
    rw [engineStep_idle s hp] at h
    cases h
    exact ⟨rfl, rfl⟩
  | some p =>
    rw [engineStep_pending s p hp] at h
    exact exec_sameMachineAndTurns p.op { s with mover := .engine } t h

/-- Settles O56: `step` takes the first turn off, and the agent's own step keeps parameters and turns. -/
theorem everyStepTakesOneTurnAndKeepsTheParameters : Obligations.EveryStepTakesOneTurnAndKeepsTheParameters := by
  intro s t hstep
  cases hturns : s.turns with
  | nil =>
    rw [step_nil s hturns] at hstep
    obtain ⟨hconfig, hrest⟩ := engineStep_sameMachineAndTurns s t hstep
    exact ⟨hconfig, hrest.trans hturns⟩
  | cons turn rest =>
    cases turn with
    | host x =>
      rw [step_host s x rest hturns] at hstep
      exact hostStep_sameMachineAndTurns x { s with turns := rest, mover := .host } t hstep
    | engine =>
      rw [step_engine s rest hturns] at hstep
      exact engineStep_sameMachineAndTurns { s with turns := rest } t hstep
    | powerOn =>
      rw [step_powerOn s rest hturns] at hstep
      cases hstep
      exact ⟨rfl, rfl⟩

end Sys2Proof.Machine
end

section
/-!
What a completion does to the RAM (20_memory.md R50, R51, R56): a command writes only inside its write set, so what
every byte write there keeps, the command keeps; and the write set of an accepted command lies in the RAM.
-/

namespace Sys2Proof.Machine

/-! ## Byte writes inside a set of blocks -/

/-- Writing a byte of the blocks keeps `p`. -/
def KeptInside (bs : List Block) (p : Memory → Prop) : Prop :=
  ∀ (m : Memory) (a : Nat) (b : Byte), inBlocks bs a = true → p m → p (m.setByte a b)

theorem wf_keptInside (bs : List Block) : KeptInside bs fun m => m.wf = true :=
  fun m a b _ hm => setByte_wf m a b hm

theorem below_keptInside (bs : List Block) (n : Nat) (hbs : ∀ b ∈ bs, b.base + b.len ≤ n) :
    KeptInside bs fun m => m.below n = true := by
  intro m a b ha hm
  obtain ⟨block, hblock, _, hlt⟩ := (inBlocks_iff bs a).mp ha
  exact setByte_below m a n b hm (Nat.lt_of_lt_of_le hlt (hbs block hblock))

theorem inBlocks_singleton (base len a : Nat) :
    inBlocks [{ base := base, len := len }] a = true ↔ base ≤ a ∧ a < base + len := by
  simp [inBlocks_iff]

section
variable {bs : List Block} {p : Memory → Prop}

theorem KeptInside.writeF32 (hp : KeptInside bs p) {m : Memory} {a : Nat} (v : F32)
    (hin : ∀ i, i < 4 → inBlocks bs (a + i) = true) (hm : p m) : p (m.writeF32 a v) := by
  unfold Memory.writeF32 Memory.write
  exact forRange_keeps p 4 _ m hm fun i hi m' hm' => hp m' (a + i) _ (hin i hi) hm'

theorem KeptInside.setFloat (hp : KeptInside bs p) {P : Params} {k : Nat} {m : Memory} (v : F32)
    (hin : ∀ i, i < 4 → inBlocks bs (floatAddr P k + i) = true) (hm : p m) : p (setFloat P k v m) :=
  hp.writeF32 v hin hm

theorem KeptInside.setSample (hp : KeptInside bs p) {P : Params} {k : Nat} {m : Memory} (z : Complex32)
    (hin : ∀ i, i < 8 → inBlocks bs (sampleAddr P k + i) = true) (hm : p m) : p (setSample P k z m) := by
  have hre : p (m.writeF32 (sampleAddr P k) z.re) := hp.writeF32 _ (fun i hi => hin i (by omega)) hm
  refine hp.writeF32 _ (fun i hi => ?_) hre
  rw [Nat.add_assoc]
  exact hin (4 + i) (by omega)

end

/-! ## Elements of the write sets -/

/-- Float `k` lies in a complex buffer of `count` floats. -/
theorem float_inBlocks (P : Params) (count k i : Nat) (hk : k < count) (hi : i < 4) :
    inBlocks [{ base := P.bufAddr.toNat, len := 4 * count }] (floatAddr P k + i) = true := by
  rw [inBlocks_singleton, floatAddr]
  omega

/-- Sample `k` lies in a complex buffer of `count` samples. -/
theorem sample_inBlocks (P : Params) (count k i : Nat) (hk : k < count) (hi : i < 8) :
    inBlocks [{ base := P.bufAddr.toNat, len := 8 * count }] (sampleAddr P k + i) = true := by
  rw [inBlocks_singleton, sampleAddr]
  omega

/-- Sample `j` of group `g` lies in the groups of a butterfly. -/
theorem sample_inGroups (P : Params) (n spacing span g j i : Nat) (hg : g < n) (hj : j < span) (hi : i < 8) :
    inBlocks (groupBlocks P.bufAddr.toNat n spacing span) (sampleAddr P (g * spacing + j) + i) = true := by
  rw [inBlocks_groupBlocks, sampleAddr]
  exact ⟨g, hg, by omega, by omega⟩

/-! ## Each command writes inside its write set -/

section
variable {P : Params} {p : Memory → Prop} {m0 : Memory}

theorem prerotRam_keeps (hn2 : P.n2.toNat = 2 * P.n4.toNat) (hp : KeptInside (prerotFootprint P).buf p) (h0 : p m0) :
    p (prerotRam P m0) := by
  refine forRange_keeps p _ _ _ h0 fun i hi m hm => ?_
  have hfloat : ∀ k, k < P.n2.toNat → ∀ m v, p m → p (setFloat P k v m) := fun k hk m v =>
    hp.setFloat v fun j hj => float_inBlocks P _ k j hk hj
  exact hfloat _ (by omega) _ _ (hfloat _ (by omega) _ _ hm)

theorem postrotRam_keeps (hn2 : P.n2.toNat = 2 * P.n4.toNat) (hp : KeptInside (postrotFootprint P).buf p)
    (h0 : p m0) : p (postrotRam P m0) := by
  refine forRange_keeps p _ _ _ h0 fun i hi m hm => ?_
  have hfloat : ∀ k, k < P.n2.toNat → ∀ m v, p m → p (setFloat P k v m) := fun k hk m v =>
    hp.setFloat v fun j hj => float_inBlocks P _ k j hk hj
  exact hfloat _ (by omega) _ _ (hfloat _ (by omega) _ _ (hfloat _ (by omega) _ _ (hfloat _ (by omega) _ _ hm)))

theorem bfly3Ram_keeps (hp : KeptInside (bfly3Footprint P).buf p) (h0 : p m0) : p (bfly3Ram P m0) := by
  refine forRange_keeps p _ _ _ h0 fun g hg m hm => ?_
  have hsample : ∀ j, j < 3 → ∀ m z, p m → p (setSample P (g * P.mm.toNat + j) z m) := fun j hj m z =>
    hp.setSample z fun i hi => sample_inGroups P _ _ _ g j i hg hj hi
  exact hsample 2 (by omega) _ _ (hsample 1 (by omega) _ _ (hsample 0 (by omega) _ _ hm))

theorem bfly4m1Ram_keeps (hp : KeptInside (bfly4m1Footprint P).buf p) (h0 : p m0) : p (bfly4m1Ram P m0) := by
  refine forRange_keeps p _ _ _ h0 fun g hg m hm => ?_
  have hsample : ∀ k, k < 4 * P.n.toNat → ∀ m z, p m → p (setSample P k z m) := fun k hk m z =>
    hp.setSample z fun i hi => sample_inBlocks P _ k i hk hi
  exact hsample _ (by omega) _ _ (hsample _ (by omega) _ _ (hsample _ (by omega) _ _ (hsample _ (by omega) _ _ hm)))

theorem bfly4Ram_keeps (hp : KeptInside (bfly4Footprint P).buf p) (h0 : p m0) : p (bfly4Ram P m0) := by
  refine forRange_keeps p _ _ _ h0 fun g hg m hm => forRange_keeps p _ _ _ hm fun j hj m' hm' => ?_
  have hsample : ∀ k, k < 4 * P.m.toNat → ∀ m z, p m → p (setSample P (g * P.mm.toNat + k) z m) := fun k hk m z =>
    hp.setSample z fun i hi => sample_inGroups P _ _ _ g k i hg hk hi
  simp only [bfly4PositionIter, Nat.add_assoc]
  exact hsample _ (by omega) _ _ (hsample _ (by omega) _ _ (hsample _ (by omega) _ _ (hsample _ (by omega) _ _ hm')))

theorem bfly5Ram_keeps (hp : KeptInside (bfly5Footprint P).buf p) (h0 : p m0) : p (bfly5Ram P m0) := by
  refine forRange_keeps p _ _ _ h0 fun g hg m hm => ?_
  have hsample : ∀ j, j < 5 → ∀ m z, p m → p (setSample P (g * P.mm.toNat + j) z m) := fun j hj m z =>
    hp.setSample z fun i hi => sample_inGroups P _ _ _ g j i hg hj hi
  exact hsample 4 (by omega) _ _ (hsample 3 (by omega) _ _ (hsample 2 (by omega) _ _
    (hsample 1 (by omega) _ _ (hsample 0 (by omega) _ _ hm))))

end

/-! ## The start checks read backwards -/

theorem failIf_none {q : Prop} [Decidable q] {code : ErrCode} {r : Reg} (h : failIf q code r = none) : ¬ q := by
  intro hq
  rw [failIf, if_pos hq] at h
  cases h

theorem orElse_none_iff {x y : Option Rejection} : (x <|> y) = none ↔ x = none ∧ y = none := by
  cases x <;> simp

/-- A passed range check leaves every byte up to the highest one in the RAM. -/
theorem rangeCheck_none {c : Config} {r : Reg} {last : Nat} (h : rangeCheck c r (last - 1) = none) :
    last ≤ c.memBytes := by
  have := failIf_none h
  omega

/-- An accepted rotation has `N2 = 2*N4` (60_exceptions.md R114). -/
theorem accepted_rotation {op : Instr} {c : Config} {P : Params} (hop : isRotation op)
    (h : startCheck op c P = none) : P.n2.toNat = 2 * P.n4.toNat := by
  obtain rfl | rfl := hop <;> exact not_not.mp (failIf_none (orElse_none_iff.mp h).1)

/-- A command with zero iterations leaves the RAM as it is (60_exceptions.md R115). -/
theorem commandRam_zeroIterations {op : Instr} {P : Params} (m0 : Memory) (h : zeroIterations op P = true) :
    commandRam op P m0 = m0 := by
  cases op
  case bfly4 =>
    simp only [zeroIterations, Bool.or_eq_true, beq_iff_eq] at h
    refine forRange_keeps (· = m0) _ _ _ rfl fun g hg m hm => ?_
    obtain hn | hm0 := h
    · simp [hn] at hg
    · simp [bfly4Iter, hm0, hm]
  all_goals
    simp only [zeroIterations, beq_iff_eq] at h
    simp [commandRam, prerotRam, postrotRam, bfly3Ram, bfly4m1Ram, bfly5Ram, h]

theorem footprint_zeroIterations {op : Instr} {P : Params} (h : zeroIterations op P = true) :
    footprint op P = Footprint.empty := by
  simp only [footprint, h, if_true]

/-- An accepted command writes only inside its write set: it keeps whatever every byte write there keeps. -/
theorem commandRam_keeps {op : Instr} {c : Config} {P : Params} {p : Memory → Prop} {m0 : Memory}
    (hacc : startCheck op c P = none) (hp : KeptInside (footprint op P).writes p) (h0 : p m0) :
    p (commandRam op P m0) := by
  cases hz : zeroIterations op P with
  | true => rwa [commandRam_zeroIterations m0 hz]
  | false =>
    simp only [Footprint.writes, footprint, hz, Bool.false_eq_true, if_false] at hp
    cases op with
    | prerot => exact prerotRam_keeps (accepted_rotation (.inl rfl) hacc) hp h0
    | postrot => exact postrotRam_keeps (accepted_rotation (.inr rfl) hacc) hp h0
    | bfly3 => exact bfly3Ram_keeps hp h0
    | bfly4m1 => exact bfly4m1Ram_keeps hp h0
    | bfly4 => exact bfly4Ram_keeps hp h0
    | bfly5 => exact bfly5Ram_keeps hp h0

/-! ## The write set of an accepted command lies in the RAM -/

theorem groupBlocks_below {P : Params} {c : Config} {span : Nat}
    (h : rangeCheck c .bufAddr (groupsHighest P span) = none) :
    ∀ b ∈ groupBlocks P.bufAddr.toNat P.n.toNat P.mm.toNat span, b.base + b.len ≤ c.memBytes := by
  have hlast := rangeCheck_none h
  simp only [groupBlocks, List.mem_map, List.mem_range]
  rintro b ⟨g, hg, rfl⟩
  have hmul : g * P.mm.toNat ≤ (P.n.toNat - 1) * P.mm.toNat := Nat.mul_le_mul_right _ (by omega)
  simp only
  omega

/-- 20_memory.md R52: the write set of an accepted command lies in the RAM. -/
theorem accepted_writes_below {op : Instr} {c : Config} {P : Params} (hacc : startCheck op c P = none) :
    ∀ b ∈ (footprint op P).writes, b.base + b.len ≤ c.memBytes := by
  cases hz : zeroIterations op P with
  | true => simp [footprint_zeroIterations hz, Footprint.writes, Footprint.empty]
  | false =>
    simp only [Footprint.writes, footprint, hz, Bool.false_eq_true, if_false]
    cases op <;>
      simp only [startCheck, prerotCheck, postrotCheck, bfly3Check, bfly4m1Check, bfly4Check, bfly5Check, hz,
        Bool.false_eq_true, if_false, orElse_none_iff] at hacc
    case prerot =>
      obtain ⟨_, _, _, _, _, hbuf, _⟩ := hacc
      simpa [prerotFootprint] using rangeCheck_none hbuf
    case postrot =>
      obtain ⟨_, _, _, hbuf, _⟩ := hacc
      simpa [postrotFootprint] using rangeCheck_none hbuf
    case bfly3 =>
      obtain ⟨_, _, hbuf, _⟩ := hacc
      exact groupBlocks_below hbuf
    case bfly4m1 =>
      obtain ⟨_, hbuf⟩ := hacc
      simpa [bfly4m1Footprint, ← Nat.mul_assoc] using rangeCheck_none hbuf
    case bfly4 =>
      obtain ⟨_, _, hbuf, _⟩ := hacc
      exact groupBlocks_below hbuf
    case bfly5 =>
      obtain ⟨_, _, hbuf, _⟩ := hacc
      exact groupBlocks_below hbuf

theorem commandRam_wf {op : Instr} {c : Config} {P : Params} {m : Memory} (hacc : startCheck op c P = none)
    (hm : m.wf = true) : (commandRam op P m).wf = true :=
  commandRam_keeps (p := fun m => m.wf = true) hacc (wf_keptInside _) hm

theorem commandRam_below {op : Instr} {c : Config} {P : Params} {m : Memory} (hacc : startCheck op c P = none)
    (hm : m.below c.memBytes = true) : (commandRam op P m).below c.memBytes = true :=
  commandRam_keeps (p := fun m => m.below c.memBytes = true) hacc
    (below_keptInside _ _ (accepted_writes_below hacc)) hm

end Sys2Proof.Machine
end

section
/-!
Everything one step can do, said once: the turn it takes, and what a performed host access or the engine's step leaves.
-/

namespace Sys2Proof.Machine

/-! ## Starts -/

theorem orElse_eq_some {x y : Option Rejection} {j : Rejection} (h : (x <|> y) = some j) : x = some j ∨ y = some j := by
  cases x with
  | none => exact .inr (by simpa using h)
  | some _ => exact .inl (by simpa using h)

/-- A check that fails reports a code (60_exceptions.md R113, R114). -/
def ReportsCode (o : Option Rejection) : Prop := ∀ j, o = some j → j.code ≠ .none

theorem failIf_reportsCode {q : Prop} [Decidable q] {code : ErrCode} {r : Reg} (hcode : code ≠ .none) :
    ReportsCode (failIf q code r) := by
  intro j h
  unfold failIf at h
  split at h <;> cases h
  exact hcode

theorem orElse_reportsCode {x y : Option Rejection} (hx : ReportsCode x) (hy : ReportsCode y) :
    ReportsCode (x <|> y) := fun j h => (orElse_eq_some h).elim (hx j) (hy j)

theorem ite_none_reportsCode {b : Bool} {y : Option Rejection} (hy : ReportsCode y) :
    ReportsCode (if b then none else y) := by
  cases b with
  | true => intro j h; cases h
  | false => exact hy

theorem startCheck_reportsCode (op : Instr) (c : Config) (P : Params) : ReportsCode (startCheck op c P) := by
  have hparam : ReportsCode (paramCheck P) := failIf_reportsCode (by decide)
  have halign {r base unit} : ReportsCode (alignCheck r base unit) := failIf_reportsCode (by decide)
  have hrange {r last} : ReportsCode (rangeCheck c r last) := failIf_reportsCode (by decide)
  have hspacing {span} : ReportsCode (spacingCheck P span) := failIf_reportsCode (by decide)
  have hoverlap {r writes reads} : ReportsCode (overlapCheck r writes reads) := failIf_reportsCode (by decide)
  cases op with
  | prerot =>
    exact orElse_reportsCode hparam <| ite_none_reportsCode <| orElse_reportsCode halign <|
      orElse_reportsCode halign <| orElse_reportsCode halign <| orElse_reportsCode hrange <|
      orElse_reportsCode hrange <| orElse_reportsCode hrange <| orElse_reportsCode hoverlap hoverlap
  | postrot =>
    exact orElse_reportsCode hparam <| ite_none_reportsCode <| orElse_reportsCode halign <|
      orElse_reportsCode halign <| orElse_reportsCode hrange <| orElse_reportsCode hrange hoverlap
  | bfly4m1 => exact ite_none_reportsCode <| orElse_reportsCode halign hrange
  | bfly3 | bfly4 | bfly5 =>
    exact ite_none_reportsCode <| orElse_reportsCode halign <| orElse_reportsCode halign <|
      orElse_reportsCode hrange <| orElse_reportsCode hrange <| orElse_reportsCode hspacing hoverlap

/-- A command's verdict rejects with a code, and accepts the command where its checks pass. -/
theorem startVerdict_error {op : Instr} {c : Config} {P : Params} {r : Rejection}
    (h : startVerdict op c P = .error r) : r.code ≠ .none := by
  cases hc : startCheck op c P with
  | some j =>
    simp only [startVerdict, hc, Except.error.injEq] at h
    exact h ▸ startCheck_reportsCode op c P j hc
  | none => simp [startVerdict, hc] at h

theorem startVerdict_ok {op i : Instr} {c : Config} {P : Params} (h : startVerdict op c P = .ok i) :
    i = op ∧ startCheck op c P = none := by
  cases hc : startCheck op c P with
  | some j => simp [startVerdict, hc] at h
  | none =>
    simp only [startVerdict, hc, Except.ok.injEq] at h
    exact ⟨h.symm, rfl⟩

/-! ## The host's step -/

/-- Everything that an access performed by the host can leave of the state `s`. -/
inductive HostEffect (s : State) : Access → State → Prop
  | dropped (x : Access) (hbusy : s.busy = true) : HostEffect s x s.dropCommand
  | rejected (x : Access) (w : Word) (r : Rejection) (hidle : s.busy = false) (hcode : r.code ≠ .none) :
      HostEffect s x ((s.beginStart w).reject r)
  | accepted (x : Access) (op : Instr) (hidle : s.busy = false) (hcheck : startCheck op s.config s.params = none) :
      HostEffect s x ((s.beginStart (encode op)).accept op)
  | ctrl (v : BitVec 64) : HostEffect s (.write 4 (regAddr s.config .ctrl) v) (writeCtrl (v.setWidth 32) s)
  | status (v : BitVec 64) :
      HostEffect s (.write 4 (regAddr s.config .status) v)
        { s with status := s.status.writeOneToClear (v.setWidth 32) }
  | params (x : Access) (P : Params) : HostEffect s x { s with params := P }
  | registerRead (x : Access) (d : BitVec 64) : HostEffect s x { s with readData := d }
  | ramRead (x : Access) (n a : Nat) : HostEffect s x (s.ramRead a n)
  | ramWrite (x : Access) (n a : Nat) (v : BitVec 64) (hok : ramAccessOk s.config n a = true) :
      HostEffect s x (s.ramWrite a n v)

/-- A CMD write drops, rejects or accepts. -/
theorem runWord_effect (x : Access) (v : Word) (s t : State) (hm : s.mover = .host) (h : runWord v s = .next t) :
    HostEffect s x t := by
  unfold runWord at h
  split at h
  next op _ =>
    rw [exec_host op s hm] at h
    cases h
    obtain ⟨hbusy, he⟩ | ⟨hidle, r, hv, he⟩ | ⟨hidle, i, hv, he⟩ := startCommand_cases (encode op) (startVerdict op) s
    · rw [he]
      exact .dropped x hbusy
    · rw [he]
      exact .rejected x _ r hidle (startVerdict_error hv)
    · obtain ⟨rfl, hcheck⟩ := startVerdict_ok hv
      rw [he]
      exact .accepted x i hidle hcheck
  next =>
    cases h
    rw [State.startIllegal]
    obtain ⟨hbusy, he⟩ | ⟨hidle, r, hv, he⟩ | ⟨_, i, hv, _⟩ := startCommand_cases v (fun _ _ => .error illegalWord) s
    · rw [he]
      exact .dropped x hbusy
    · cases hv
      rw [he]
      exact .rejected x _ _ hidle (by decide)
    · cases hv

theorem hostStep_effect (x : Access) (s t : State) (hm : s.mover = .host) (h : hostStep x s = .next t) :
    HostEffect s x t := by
  unfold hostStep at h
  obtain ⟨r, he, _⟩ | ⟨_, ⟨v, _, he⟩ | ⟨v, hx, he⟩ | ⟨v, hx, he⟩ | ⟨P, he⟩ | ⟨d, he⟩ | ⟨n, a, hok, he⟩ |
      ⟨n, a, v, hok, he⟩⟩ := hostAction_cases x s <;> simp only [he] at h
  · cases h
  · exact runWord_effect x _ s t hm h
  · cases h
    rw [hx]
    exact .ctrl v
  · cases h
    rw [hx]
    exact .status v
  · cases h
    exact .params x P
  · cases h
    exact .registerRead x d
  · cases h
    exact .ramRead x n a
  · cases h
    exact .ramWrite x n a v hok

/-! ## The engine's step -/

/-- The engine's step leaves an idle machine, and else completes the accepted command. -/
theorem engineStep_effect (s t : State) (h : engineStep s = .next t) :
    (s.pending = none ∧ t = s) ∨
    (∃ p, s.pending = some p ∧ startCheck p.op s.config p.params = none ∧
      t = { s with mover := .engine }.complete p (commandRam p.op)) := by
  cases hp : s.pending with
  | none =>
    rw [engineStep_idle s hp] at h
    cases h
    exact .inl ⟨rfl, rfl⟩
  | some p =>
    rw [engineStep_pending s p hp] at h
    obtain ⟨hother, _⟩ | ⟨_, _, _, _, he⟩ | ⟨q, hq, _, hcheck, he⟩ :=
      exec_engine_cases p.op { s with mover := .engine } rfl
    · exact absurd rfl (hother p hp)
    · rw [he] at h
      cases h
    · cases hp.symm.trans hq
      rw [he] at h
      cases h
      exact .inr ⟨p, rfl, hcheck, rfl⟩

/-! ## The step -/

/-- Everything that a step which answers a next state can be: the step of the agent whose turn it takes, or the
power-on reset. -/
theorem step_next_cases (s t : State) (h : step s = .next t) :
    (∃ rest, (s.turns = [] ∨ s.turns = .engine :: rest) ∧ engineStep { s with turns := rest } = .next t) ∨
    (∃ x rest, s.turns = .host x :: rest ∧ HostEffect { s with turns := rest, mover := .host } x t) ∨
    (∃ rest, s.turns = .powerOn :: rest ∧ t = { s with turns := rest }.powerOnReset) := by
  cases hturns : s.turns with
  | nil =>
    rw [step_nil s hturns] at h
    exact .inl ⟨[], .inl rfl, hturns ▸ h⟩
  | cons turn rest =>
    cases turn with
    | host x =>
      rw [step_host s x rest hturns] at h
      exact .inr (.inl ⟨x, rest, rfl, hostStep_effect x _ t rfl h⟩)
    | engine =>
      rw [step_engine s rest hturns] at h
      exact .inl ⟨rest, .inr rfl, h⟩
    | powerOn =>
      rw [step_powerOn s rest hturns] at h
      cases h
      exact .inr (.inr ⟨rest, rfl, rfl⟩)

end Sys2Proof.Machine
end

section
/-!
The invariant of the machine (10_state.md R21, R23, R24, R33; 20_memory.md R41; 60_exceptions.md R118): every operation
keeps it, so every step does.
-/

namespace Sys2Proof.Machine

/-! ## What the invariant does not look at -/

/-- The interrupt enable, the live parameters and the model's own fields may take any value. -/
theorem Inv.withUnconstrained {s : State} (h : Inv s) (irqEn : Bool) (params : Params) (mover : Agent)
    (turns : List Turn) (readData : BitVec 64) (draws : Nat) :
    Inv { s with irqEn := irqEn, params := params, mover := mover, turns := turns, readData := readData,
                 draws := draws } where
  legal := h.legal
  memWf := h.memWf
  memBelow := h.memBelow
  notBoth := h.notBoth
  errHasCode := h.errHasCode
  noCodeNoInfo := h.noCodeNoInfo
  doneNoCode := h.doneNoCode
  pendingOk p hp :=
    have ⟨haccepted, hword, hdone, herr, hcode⟩ := h.pendingOk p hp
    ⟨haccepted, hword, hdone, herr, hcode⟩

/-- The RAM may take any contents in canonical form and in range. -/
theorem Inv.withMem {s : State} (h : Inv s) (mem : Memory) (hwf : mem.wf = true)
    (hbelow : mem.below s.config.memBytes = true) : Inv { s with mem := mem } where
  legal := h.legal
  memWf := hwf
  memBelow := hbelow
  notBoth := h.notBoth
  errHasCode := h.errHasCode
  noCodeNoInfo := h.noCodeNoInfo
  doneNoCode := h.doneNoCode
  pendingOk p hp :=
    have ⟨haccepted, hword, hdone, herr, hcode⟩ := h.pendingOk p hp
    ⟨haccepted, hword, hdone, herr, hcode⟩

/-- The status bits may fall, and DROP may take any value. -/
theorem Inv.withStatus {s : State} (h : Inv s) (st : Status) (hdone : st.done = true → s.status.done = true)
    (herr : st.err = true → s.status.err = true) : Inv { s with status := st } where
  legal := h.legal
  memWf := h.memWf
  memBelow := h.memBelow
  notBoth := fun ⟨hd, he⟩ => h.notBoth ⟨hdone hd, herr he⟩
  errHasCode he := h.errHasCode (herr he)
  noCodeNoInfo := h.noCodeNoInfo
  doneNoCode hd := h.doneNoCode (hdone hd)
  pendingOk p hp := by
    obtain ⟨haccepted, hword, hnotDone, hnotErr, hcode⟩ := h.pendingOk p hp
    refine ⟨haccepted, hword, ?_, ?_, hcode⟩
    · exact Bool.eq_false_iff.mpr fun hd => Bool.eq_false_iff.mp hnotDone (hdone hd)
    · exact Bool.eq_false_iff.mpr fun he => Bool.eq_false_iff.mp hnotErr (herr he)

/-! ## The start of a command -/

theorem Inv.dropCommand {s : State} (h : Inv s) : Inv s.dropCommand := h.withStatus _ id id

theorem pending_eq_none_of_not_busy {s : State} (h : s.busy = false) : s.pending = none := by
  simpa [State.busy] using h

theorem Inv.rejected {s : State} (h : Inv s) (w : Word) (r : Rejection) (hidle : s.busy = false)
    (hcode : r.code ≠ .none) : Inv ((s.beginStart w).reject r) where
  legal := h.legal
  memWf := h.memWf
  memBelow := h.memBelow
  notBoth := by simp
  errHasCode _ := hcode
  noCodeNoInfo hnone := absurd hnone hcode
  doneNoCode := by simp
  pendingOk p hp := by simp [pending_eq_none_of_not_busy hidle] at hp

theorem Inv.accepted {s : State} (h : Inv s) (op : Instr) (hcheck : startCheck op s.config s.params = none) :
    Inv ((s.beginStart (encode op)).accept op) where
  legal := h.legal
  memWf := h.memWf
  memBelow := h.memBelow
  notBoth := by simp
  errHasCode := by simp
  noCodeNoInfo _ := rfl
  doneNoCode _ := rfl
  pendingOk p hp := by
    cases hp
    exact ⟨hcheck, rfl, rfl, rfl, rfl⟩

/-! ## The completion -/

/-- The RAM after the completion of an accepted command, disturbed or not, is canonical and in range. -/
theorem Inv.completeWith {s : State} (h : Inv s) {p : Pending} (hp : s.pending = some p) (mem : Memory)
    (hwf : mem.wf = true) (hbelow : mem.below s.config.memBytes = true) : Inv (s.completeWith mem) := by
  have hok := h.pendingOk p hp
  exact
    { legal := h.legal
      memWf := hwf
      memBelow := hbelow
      notBoth := by simp [hok.notErr]
      errHasCode := h.errHasCode
      noCodeNoInfo := h.noCodeNoInfo
      doneNoCode := fun _ => hok.noCode
      pendingOk := fun q hq => by cases hq }

theorem Inv.scramble_below {s : State} (h : Inv s) {p : Pending} (hp : s.pending = some p) (draw : Nat) :
    (s.mem.scramble draw p.writes).below s.config.memBytes = true :=
  Machine.scramble_below _ _ _ _ h.memBelow (accepted_writes_below (h.pendingOk p hp).accepted)

theorem Inv.complete {s : State} (h : Inv s) {p : Pending} (hp : s.pending = some p) :
    Inv (s.complete p (commandRam p.op)) := by
  have hok := h.pendingOk p hp
  unfold State.complete
  split
  · have hdone := h.completeWith hp _ (scramble_wf s.mem s.draws p.writes h.memWf) (h.scramble_below hp s.draws)
    exact hdone.withUnconstrained _ _ _ _ _ _
  · exact h.completeWith hp _ (commandRam_wf hok.accepted h.memWf) (commandRam_below hok.accepted h.memBelow)

/-! ## Resets -/

theorem Inv.resetRegisters {s : State} (h : Inv s) : Inv s.resetRegisters where
  legal := h.legal
  memWf := h.memWf
  memBelow := h.memBelow
  notBoth := by simp
  errHasCode := by simp
  noCodeNoInfo _ := rfl
  doneNoCode _ := rfl
  pendingOk p hp := by cases hp

theorem Inv.softReset {s : State} (h : Inv s) : Inv s.softReset := by
  cases hp : s.pending with
  | none =>
    rw [softReset_idle s hp]
    exact h.resetRegisters
  | some p =>
    rw [softReset_busy s p hp]
    have hmem := h.resetRegisters.withMem _ (scramble_wf s.mem s.draws p.writes h.memWf) (h.scramble_below hp s.draws)
    exact hmem.withUnconstrained _ _ _ _ _ _

theorem Inv.powerOnReset {s : State} (h : Inv s) : Inv s.powerOnReset := by
  have hmem := h.resetRegisters.withMem { cells := [], unwritten := s.draws } rfl rfl
  exact hmem.withUnconstrained _ _ _ _ _ _

/-! ## The host's accesses -/

theorem Inv.writeCtrl {s : State} (h : Inv s) (v : Word) : Inv (writeCtrl v s) := by
  unfold Machine.writeCtrl
  split
  · exact h.softReset
  · exact h.withUnconstrained _ _ _ _ _ _

theorem Inv.writeOneToClear {s : State} (h : Inv s) (v : Word) :
    Inv { s with status := s.status.writeOneToClear v } :=
  h.withStatus _ (fun hd => (Bool.and_eq_true_iff.mp hd).1) fun he => (Bool.and_eq_true_iff.mp he).1

/-- A disturbed pending command stays the accepted one. -/
theorem Inv.afterWrite {s : State} (h : Inv s) (a n : Nat) :
    Inv { s with pending := s.pending.map (Pending.afterWrite a n) } where
  legal := h.legal
  memWf := h.memWf
  memBelow := h.memBelow
  notBoth := h.notBoth
  errHasCode := h.errHasCode
  noCodeNoInfo := h.noCodeNoInfo
  doneNoCode := h.doneNoCode
  pendingOk q hq := by
    obtain ⟨p, hp, rfl⟩ := Option.map_eq_some_iff.mp hq
    obtain ⟨haccepted, hword, hdone, herr, hcode⟩ := h.pendingOk p hp
    exact ⟨haccepted, hword, hdone, herr, hcode⟩

theorem Inv.ramWrite {s : State} (h : Inv s) (a n : Nat) (v : BitVec 64) (hok : ramAccessOk s.config n a = true) :
    Inv (s.ramWrite a n v) :=
  have ⟨_, _, hend⟩ := ramAccessOk_bounds _ _ _ hok
  (h.afterWrite a n).withMem _ (write_wf _ _ _ _ h.memWf) (write_below _ _ _ _ _ h.memBelow hend)

theorem Inv.hostEffect {s t : State} {x : Access} (h : Inv s) (heffect : HostEffect s x t) : Inv t := by
  cases heffect with
  | dropped => exact h.dropCommand
  | rejected _ w r hidle hcode => exact h.rejected w r hidle hcode
  | accepted _ op _ hcheck => exact h.accepted op hcheck
  | ctrl v => exact h.writeCtrl _
  | status v => exact h.writeOneToClear _
  | params _ P => exact h.withUnconstrained _ _ _ _ _ _
  | registerRead _ d => exact h.withUnconstrained _ _ _ _ _ _
  | ramRead _ n a => exact h.withUnconstrained _ _ _ _ _ _
  | ramWrite _ n a v hok => exact h.ramWrite a n v hok

/-! ## Power-on and the step -/

/-- Settles O53: every register is 0 and no byte is listed. -/
theorem powerOnMeetsTheInvariant : Obligations.PowerOnMeetsTheInvariant := by
  intro c d hlegal
  exact
    { legal := hlegal
      memWf := rfl
      memBelow := rfl
      notBoth := by simp
      errHasCode := by simp
      noCodeNoInfo := fun _ => rfl
      doneNoCode := fun _ => rfl
      pendingOk := fun p hp => by cases hp }

/-- Settles O54, by the turn the step takes: each operation keeps the invariant. -/
theorem everyStepKeepsTheInvariant : Obligations.EveryStepKeepsTheInvariant := by
  intro s t hinv hstep
  obtain ⟨rest, _, he⟩ | ⟨x, rest, _, heffect⟩ | ⟨rest, _, rfl⟩ := step_next_cases s t hstep
  · have hstart : Inv { s with turns := rest } := hinv.withUnconstrained _ _ _ _ _ _
    obtain ⟨_, rfl⟩ | ⟨p, hp, _, rfl⟩ := engineStep_effect _ t he
    · exact hstart
    · have hmover : Inv { s with turns := rest, mover := .engine } := hinv.withUnconstrained _ _ _ _ _ _
      exact hmover.complete hp
  · have hstart : Inv { s with turns := rest, mover := .host } := hinv.withUnconstrained _ _ _ _ _ _
    exact hstart.hostEffect heffect
  · have hstart : Inv { s with turns := rest } := hinv.withUnconstrained _ _ _ _ _ _
    exact hstart.powerOnReset

end Sys2Proof.Machine
end

section
/-!
A completion reads its snapshot and never the live parameter registers (10_state.md R32, 70_reset_and_hazards.md R139).
-/

namespace Sys2Proof.Machine

/-- The outcome of a step with the live parameter registers replaced. -/
def withParams (Q : Params) : Result → Result
  | .next t => .next { t with params := Q }
  | .fault e => .fault e
  | .refused e => .refused e

theorem complete_params (p : Pending) (effect : Params → Memory → Memory) (s : State) (Q : Params) :
    ({ s with params := Q } : State).complete p effect = { s.complete p effect with params := Q } := by
  unfold State.complete
  split <;> rfl

section
variable {op : Instr} {s : State} {p : Pending} (hm : s.mover = .engine)
include hm

theorem exec_engine_other (hother : ∀ q, s.pending = some q → q.op ≠ op) : exec op s = .next s := by
  obtain ⟨_, he⟩ | ⟨q, hq, hop, _⟩ | ⟨q, hq, hop, _⟩ := exec_engine_cases op s hm
  · exact he
  · exact absurd hop (hother q hq)
  · exact absurd hop (hother q hq)

theorem exec_engine_notAccepted (hp : s.pending = some p) (hop : p.op = op)
    (hcheck : startCheck op s.config p.params ≠ none) : exec op s = .fault .notAccepted := by
  obtain ⟨hother, _⟩ | ⟨_, _, _, _, he⟩ | ⟨q, hq, _, hnone, _⟩ := exec_engine_cases op s hm
  · exact absurd hop (hother p hp)
  · exact he
  · cases hp.symm.trans hq
    exact absurd hnone hcheck

theorem exec_engine_accepted (hp : s.pending = some p) (hop : p.op = op)
    (hcheck : startCheck op s.config p.params = none) : exec op s = .next (s.complete p (commandRam op)) := by
  obtain ⟨hother, _⟩ | ⟨q, hq, _, hsome, _⟩ | ⟨q, hq, _, _, he⟩ := exec_engine_cases op s hm
  · exact absurd hop (hother p hp)
  · cases hp.symm.trans hq
    exact absurd hcheck hsome
  · cases hp.symm.trans hq
    exact he

end

theorem exec_engine_params (op : Instr) (s : State) (Q : Params) (hm : s.mover = .engine) :
    exec op { s with params := Q } = withParams Q (exec op s) := by
  have hm' : ({ s with params := Q } : State).mover = .engine := hm
  obtain ⟨hother, he⟩ | ⟨p, hp, hop, hcheck, he⟩ | ⟨p, hp, hop, hcheck, he⟩ := exec_engine_cases op s hm
  · rw [he, exec_engine_other hm' hother, withParams]
  · rw [he, exec_engine_notAccepted hm' hp hop hcheck, withParams]
  · rw [he, exec_engine_accepted hm' hp hop hcheck, complete_params, withParams]

/-- Settles O24: exec answers the same, but for the registers themselves. -/
theorem completionIgnoresTheLiveParameters : Obligations.CompletionIgnoresTheLiveParameters := by
  intro op s Q hm
  constructor
  · intro t ht
    rw [exec_engine_params op s Q hm, ht, withParams]
  · intro r hr
    rw [exec_engine_params op s Q hm, hr, withParams]

end Sys2Proof.Machine
end

section
/-!
The sticky status bits (10_state.md R19, R22; 60_exceptions.md R119, R121): which steps let DROP and BUSY fall.
-/

namespace Sys2Proof.Machine

theorem complete_status (p : Pending) (effect : Params → Memory → Memory) (s : State) :
    (s.complete p effect).status = { s.status with done := true } := by
  unfold State.complete
  split <;> rfl

theorem getLsbD_setWidth_word (v : BitVec 64) (k : Nat) (hk : k < 32) :
    (v.setWidth 32 : Word).getLsbD k = v.getLsbD k := by
  simp [hk]

theorem writeCtrl_softReset (v : BitVec 64) (s : State) (h : v.getLsbD 1 = true) :
    writeCtrl (v.setWidth 32) s = s.softReset := by
  rw [writeCtrl, getLsbD_setWidth_word v 1 (by omega), h, if_pos rfl]

theorem writeCtrl_irqEn (v : BitVec 64) (s : State) (h : v.getLsbD 1 = false) :
    writeCtrl (v.setWidth 32) s = { s with irqEn := v.getLsbD 0 } := by
  rw [writeCtrl, getLsbD_setWidth_word v 1 (by omega), h, getLsbD_setWidth_word v 0 (by omega)]
  rfl

/-- A host access that clears DROP is a STATUS write with bit 3, or a soft reset. -/
theorem HostEffect.clears_drop {s t : State} {x : Access} (h : HostEffect s x t) (hset : s.status.drop = true)
    (hclear : t.status.drop = false) :
    (∃ v, x = .write 4 (regAddr s.config .status) v ∧ v.getLsbD 3 = true) ∨
    (∃ v, x = .write 4 (regAddr s.config .ctrl) v ∧ v.getLsbD 1 = true) := by
  cases h with
  | dropped => simp at hclear
  | rejected | accepted | params | registerRead | ramRead | ramWrite => simp [hset] at hclear
  | ctrl v =>
    refine .inr ⟨v, rfl, ?_⟩
    cases hbit : v.getLsbD 1 with
    | true => rfl
    | false => simp [writeCtrl_irqEn v s hbit, hset] at hclear
  | status v =>
    refine .inl ⟨v, rfl, ?_⟩
    simpa [Status.writeOneToClear, hset, getLsbD_setWidth_word] using hclear

/-- Settles O36: the engine's step never clears DROP. -/
theorem onlyTheHostOrAResetClearsDrop : Obligations.OnlyTheHostOrAResetClearsDrop := by
  intro s t hstep hset hclear
  obtain ⟨rest, _, he⟩ | ⟨x, rest, hturns, heffect⟩ | ⟨rest, hturns, _⟩ := step_next_cases s t hstep
  · obtain ⟨_, rfl⟩ | ⟨p, _, _, rfl⟩ := engineStep_effect _ t he
    · simp [hset] at hclear
    · simp [complete_status, hset] at hclear
  · obtain ⟨v, rfl, hbit⟩ | ⟨v, rfl, hbit⟩ := heffect.clears_drop hset hclear
    · exact .inl ⟨v, rest, hturns, hbit⟩
    · exact .inr (.inl ⟨v, rest, hturns, hbit⟩)
  · exact .inr (.inr ⟨rest, hturns⟩)

/-- A host access that ends a command is a soft reset. -/
theorem HostEffect.clears_busy {s t : State} {x : Access} (h : HostEffect s x t) (hset : s.busy = true)
    (hclear : t.busy = false) : ∃ v, x = .write 4 (regAddr s.config .ctrl) v ∧ v.getLsbD 1 = true := by
  cases h with
  | rejected _ _ _ hidle | accepted _ _ hidle => simp [hidle] at hset
  | dropped | params | registerRead | ramRead | ramWrite | status =>
    simp only [State.busy] at hset
    simp [State.busy, hset] at hclear
  | ctrl v =>
    refine ⟨v, rfl, ?_⟩
    cases hbit : v.getLsbD 1 with
    | true => rfl
    | false =>
      simp only [State.busy] at hset
      simp [State.busy, writeCtrl_irqEn v s hbit, hset] at hclear

/-- Settles O37: of the engine's steps only the completion changes BUSY, and it sets DONE. -/
theorem busyEndsOnlyByCompletionOrReset : Obligations.BusyEndsOnlyByCompletionOrReset := by
  intro s t hstep hset hclear
  obtain ⟨rest, hturns, he⟩ | ⟨x, rest, hturns, heffect⟩ | ⟨rest, hturns, _⟩ := step_next_cases s t hstep
  · have hengine : s.turns = [] ∨ ∃ rest, s.turns = .engine :: rest := hturns.imp id fun h => ⟨rest, h⟩
    obtain ⟨hidle, _⟩ | ⟨p, _, _, rfl⟩ := engineStep_effect _ t he
    · simp only [State.busy] at hset
      simp [show s.pending = none from hidle] at hset
    · exact .inl ⟨hengine, by rw [complete_status]⟩
  · obtain ⟨v, rfl, hbit⟩ := heffect.clears_busy hset hclear
    exact .inr (.inl ⟨v, rest, hturns, hbit⟩)
  · exact .inr (.inr ⟨rest, hturns⟩)

end Sys2Proof.Machine
end

section
/-!
The host's register accesses, whole steps (10_state.md R15 to R40): what a 32-bit access at a register's address does,
then what each register reads and takes.
-/

namespace Sys2Proof.Machine

/-! ## A step that is a register access -/

theorem hostStep_moved {x : Access} {s t : State} (h : hostAction x s = .moved t) : hostStep x s = .next t := by
  simp only [hostStep, h]

theorem writeOffset_regOffset (r : Reg) (v : Word) (s : State) : writeOffset (regOffset r) v s = writeReg r v s := by
  simp only [writeOffset, regAt_regOffset]

theorem readOffset_of_reg {off : Nat} (r : Reg) (s : State) (h : off = regOffset r) :
    readOffset off s = readReg r s := by
  rw [h]
  simp only [readOffset, regAt_regOffset]

section
variable {s : State} {rest : List Turn} {x : BitVec 64}

theorem hostAction_writeReg (s : State) (r : Reg) (x : BitVec 64) :
    hostAction (.write 4 (regAddr s.config r) x) s = writeReg r (x.setWidth 32) s := by
  rw [regAddr, hostAction_registerWrite s _ x (regOffset_lt r) (regOffset_aligned r), writeOffset_regOffset]

/-- A register write other than a start leaves what `writeReg` says. -/
theorem step_writeReg {t : State} (r : Reg) (hturns : s.turns = .host (.write 4 (regAddr s.config r) x) :: rest)
    (hw : writeReg r (x.setWidth 32) { s with turns := rest, mover := .host } = .moved t) : step s = .next t := by
  rw [step_host s _ rest hturns]
  exact hostStep_moved ((hostAction_writeReg { s with turns := rest, mover := .host } r x).trans hw)

theorem step_cmdWrite (hturns : s.turns = .host (.write 4 (regAddr s.config .cmd) x) :: rest) :
    step s = runWord (x.setWidth 32) { s with turns := rest, mover := .host } := by
  have hstart : hostAction (.write 4 (regAddr s.config .cmd) x) { s with turns := rest, mover := .host } =
      .start (x.setWidth 32) := hostAction_writeReg { s with turns := rest, mover := .host } .cmd x
  rw [step_host s _ rest hturns]
  simp only [hostStep, hstart]

theorem step_registerRead {off : Nat} (hoff : off < registerBlockBytes) (haligned : off % 4 = 0)
    (hturns : s.turns = .host (.read 4 (s.config.engineBase + off)) :: rest) :
    step s = .next { s with turns := rest, mover := .host, readData := (readOffset off s).setWidth 64 } := by
  rw [step_host s _ rest hturns]
  have hread : readOffset off { s with turns := rest, mover := .host } = readOffset off s := by
    unfold readOffset
    cases regAt off with
    | none => rfl
    | some r => cases r <;> rfl
  rw [← hread]
  exact hostStep_moved (hostAction_registerRead { s with turns := rest, mover := .host } off hoff haligned)

end

/-! ## The command register -/

theorem runWord_of_decode {v : Word} {i : Instr} (s : State) (h : decode v = .ok i) : runWord v s = exec i s := by
  simp only [runWord, h]

theorem decode_encode (i : Instr) : decode (encode i) = .ok i := by cases i <;> rfl

/-- Settles O4: the access is performed at CMD, and its word spells `i`. -/
theorem stepRunsTheDecodedCommand : Obligations.StepRunsTheDecodedCommand := by
  intro s rest x i hturns hdecode
  rw [step_cmdWrite hturns, runWord_of_decode _ hdecode]

/-- Settles O5: the placed turn is a CMD write of the word that decodes to `i`. -/
theorem placedCommandRunsNext : Obligations.PlacedCommandRunsNext := by
  intro s i
  have hword : ((BitVec.ofNat 32 (encode i).toNat).setWidth 64).setWidth 32 = encode i := by
    simp [BitVec.setWidth_setWidth_of_le]
  exact stepRunsTheDecodedCommand (s.withFetchWord 32 (encode i).toNat) s.turns _ i rfl
    (hword.symm ▸ decode_encode i)

/-! ## Reset values -/

theorem readReg_resetRegisters (s : State) (r : Reg) (hid : r ≠ .id) (hversion : r ≠ .version) :
    readReg r s.resetRegisters = 0 := by
  cases r with
  | id => exact absurd rfl hid
  | version => exact absurd rfl hversion
  | status =>
    change bitAt false 0 ||| bitAt false 1 ||| bitAt false 2 ||| bitAt false 3 = 0
    decide
  | _ => rfl

/-- The registers, the pending command and `irq` are at their reset values (10_state.md R39). -/
def RegistersReset (s : State) : Prop := s.resetRegisters = s

theorem powerOn_registersReset (c : Config) (d : Nat) : RegistersReset (State.powerOn c d) := rfl

theorem softReset_registersReset (s : State) : RegistersReset s.softReset := by
  cases hp : s.pending with
  | none => rw [softReset_idle s hp]; rfl
  | some p => rw [softReset_busy s p hp]; rfl

section
variable {s : State}

theorem RegistersReset.readReg (h : RegistersReset s) (r : Reg) (hid : r ≠ .id) (hversion : r ≠ .version) :
    readReg r s = 0 := h ▸ readReg_resetRegisters s r hid hversion

theorem RegistersReset.pending (h : RegistersReset s) : s.pending = none := h ▸ resetRegisters_pending s

theorem RegistersReset.irq (h : RegistersReset s) : s.irq = false := by
  rw [← h, State.irq, resetRegisters_irqEn, Bool.false_and]

end

/-- Settles O26: power-on and soft reset both leave `RegistersReset`. -/
theorem bothResetsLeaveTheResetValues : Obligations.BothResetsLeaveTheResetValues := by
  constructor
  · intro c d
    have h := powerOn_registersReset c d
    exact ⟨rfl, rfl, h.readReg, h.pending, h.irq, fun _ => rfl⟩
  · intro s rest x hturns hbit
    have h := softReset_registersReset { s with turns := rest, mover := .host }
    have hstep : step s = .next ({ s with turns := rest, mover := .host } : State).softReset :=
      step_writeReg .ctrl hturns (congrArg HostAction.moved (writeCtrl_softReset x _ hbit))
    exact ⟨_, hstep, rfl, rfl, h.readReg, h.pending, h.irq⟩

/-! ## Writes -/

/-- Settles O34: bit 1 = 0 leaves the soft reset out. -/
theorem ctrlWriteSetsTheInterruptEnable : Obligations.CtrlWriteSetsTheInterruptEnable := by
  intro s rest x hturns hbit
  exact step_writeReg .ctrl hturns (congrArg HostAction.moved (writeCtrl_irqEn x _ hbit))

/-- Settles O29: `writeReg` leaves the state at both. -/
theorem idAndVersionAreConstant : Obligations.IdAndVersionAreConstant := by
  intro s
  refine ⟨rfl, rfl, by simp [readReg], by simp [readReg], fun rest x r hr hturns => ?_⟩
  obtain rfl | rfl := hr <;> exact step_writeReg _ hturns rfl

/-- A parameter register takes all 32 bits, and no other register reads differently: each of the ten has a field of
its own, which no other register reads. -/
theorem writeReg_parameter (s : State) (v : Word) (r : Reg)
    (hr : r ∈ [Reg.n2, .n4, .n, .m, .mm, .fstride, .srcAddr, .bufAddr, .trigAddr, .twAddr]) :
    ∃ P, writeReg r v s = .moved { s with params := P } ∧ readReg r { s with params := P } = v ∧
      ∀ r', r' ≠ r → readReg r' { s with params := P } = readReg r' s := by
  fin_cases hr
  all_goals
    refine ⟨_, rfl, rfl, fun r' hne => ?_⟩
    cases r' <;> trivial

theorem readReg_turn (r : Reg) (s : State) (rest : List Turn) :
    readReg r { s with turns := rest, mover := .host } = readReg r s := by cases r <;> rfl

/-- Settles O30, for each of the ten registers by `writeReg_parameter`. -/
theorem parameterRegistersHoldWhatIsWritten : Obligations.ParameterRegistersHoldWhatIsWritten := by
  intro s rest x r hr hturns
  obtain ⟨P, hw, hsame, hother⟩ := writeReg_parameter { s with turns := rest, mover := .host } (x.setWidth 32) r hr
  exact ⟨_, step_writeReg r hturns hw, hsame, fun r' hne => (hother r' hne).trans (readReg_turn r' s rest), rfl⟩

/-- Settles O31: `writeOffset` leaves the state at a reserved offset, `writeReg` at a read-only register. -/
theorem readOnlyAndReservedOffsetsIgnoreWrites : Obligations.ReadOnlyAndReservedOffsetsIgnoreWrites := by
  intro s rest x off hoff haligned hignored hturns
  have hwrite : writeOffset off (x.setWidth 32) { s with turns := rest, mover := .host } =
      .moved { s with turns := rest, mover := .host } := by
    obtain h | h | h | h | h := hignored <;> simp only [writeOffset, h, writeReg]
  rw [step_host s _ rest hturns]
  exact hostStep_moved ((hostAction_registerWrite { s with turns := rest, mover := .host } off x hoff haligned).trans
    hwrite)

/-! ## The words the host reads -/

theorem getLsbD_bitAt (b : Bool) (k i : Nat) (hk : k < 32) : (bitAt b k).getLsbD i = (decide (i = k) && b) := by
  rw [bitAt, BitVec.getLsbD_shiftLeft, BitVec.getLsbD_setWidth, BitVec.getLsbD_ofBool]
  by_cases hi : i = k
  · simp [hi, hk]
  · by_cases hlt : i < k
    · simp [hi, hlt]
    · have : i - k ≠ 0 := by omega
      simp [hi, this]

theorem getLsbD_ctrlWord (s : State) (i : Nat) : s.ctrlWord.getLsbD i = (decide (i = 0) && s.irqEn) :=
  getLsbD_bitAt s.irqEn 0 i (by omega)

theorem getLsbD_statusWord (s : State) (i : Nat) :
    s.statusWord.getLsbD i =
      (decide (i = 0) && s.busy || decide (i = 1) && s.status.done || decide (i = 2) && s.status.err ||
        decide (i = 3) && s.status.drop) := by
  simp only [State.statusWord, BitVec.getLsbD_or, getLsbD_bitAt, Nat.reduceLT]

theorem ctrlWord_irqEn (s : State) : s.ctrlWord.getLsbD 0 = s.irqEn := by rw [getLsbD_ctrlWord]; simp

theorem statusWord_busy (s : State) : s.statusWord.getLsbD 0 = s.busy := by rw [getLsbD_statusWord]; simp

theorem statusWord_done (s : State) : s.statusWord.getLsbD 1 = s.status.done := by
  rw [getLsbD_statusWord]; simp

theorem statusWord_err (s : State) : s.statusWord.getLsbD 2 = s.status.err := by
  rw [getLsbD_statusWord]; simp

theorem statusWord_drop (s : State) : s.statusWord.getLsbD 3 = s.status.drop := by
  rw [getLsbD_statusWord]; simp

/-- Settles O35: bit by bit of CTRL and STATUS. -/
theorem irqFollowsTheReadableBits : Obligations.IrqFollowsTheReadableBits := by
  intro s
  rw [readReg, readReg, ctrlWord_irqEn, statusWord_done, statusWord_err, State.irq]

theorem regAt_eq_none {off : Nat} (h : ∀ r, regOffset r ≠ off) : regAt off = none :=
  List.find?_eq_none.mpr fun r _ => by simpa using h r

/-- 10_state.md R35: the gaps of the register map and everything above it. -/
theorem regAt_reserved {off : Nat} (h : off = 0x01C ∨ off = 0x038 ∨ off = 0x03C ∨ 0x050 ≤ off) :
    regAt off = none :=
  regAt_eq_none fun r => by cases r <;> simp only [regOffset] <;> omega

/-- Settles O32: the step answers `readOffset`, which at each register's offset is `readReg`. -/
theorem registerReadsHaveNoSideEffect : Obligations.RegisterReadsHaveNoSideEffect := by
  refine ⟨fun c => by simp [regAddr, regOffset], fun s rest off hoff haligned hturns => ?_⟩
  refine ⟨readOffset off s, step_registerRead hoff haligned hturns,
    fun r hr => readOffset_of_reg r s (regOffset_of_regAt off r hr).symm,
    readOffset_of_reg .id s, readOffset_of_reg .version s, fun h => ?ctrl, fun h => ?status, fun h => ?errcode,
    fun h => ?errinfo, readOffset_of_reg .cmd s,
    readOffset_of_reg .n2 s, readOffset_of_reg .n4 s, readOffset_of_reg .n s, readOffset_of_reg .m s,
    readOffset_of_reg .mm s, readOffset_of_reg .fstride s, readOffset_of_reg .srcAddr s, readOffset_of_reg .bufAddr s,
    readOffset_of_reg .trigAddr s, readOffset_of_reg .twAddr s, fun h => ?reserved⟩
  case ctrl =>
    rw [readOffset_of_reg .ctrl s h, readReg]
    refine ⟨ctrlWord_irqEn s, fun k hk => ?_⟩
    simp [getLsbD_ctrlWord, show k ≠ 0 by omega]
  case status =>
    rw [readOffset_of_reg .status s h, readReg]
    refine ⟨statusWord_busy s, statusWord_done s, statusWord_err s, statusWord_drop s, fun k hk => ?_⟩
    simp [getLsbD_statusWord, show k ≠ 0 by omega, show k ≠ 1 by omega, show k ≠ 2 by omega, show k ≠ 3 by omega]
  case errcode =>
    rw [readOffset_of_reg .errcode s h, readReg]
    refine ⟨?_, ?_, ?_, ?_, ?_, ?_⟩ <;> intro hcode <;> rw [hcode] <;> rfl
  case errinfo =>
    rw [readOffset_of_reg .errinfo s h, readReg, State.errInfoWord, BitVec.toNat_setWidth_of_le (by omega)]
  case reserved => simp only [readOffset, regAt_reserved h]

end Sys2Proof.Machine
end

section
/-!
The host's RAM accesses, whole steps (20_memory.md R43, R49, R55, R57, R58): what a read returns and a write leaves,
beside an idle engine and beside a running command.
-/

namespace Sys2Proof.Machine

/-! ## The bytes of an access -/

/-- An access shares a byte with the blocks exactly where one of its own bytes lies in them. -/
theorem blocksMeet_access_iff (bs : List Block) (a n : Nat) :
    blocksMeet bs [{ base := a, len := n }] = true ↔ ∃ k, k < n ∧ inBlocks bs (a + k) = true := by
  rw [blocksMeet_iff]
  constructor
  · rintro ⟨x, hx, haccess⟩
    obtain ⟨hlo, hhi⟩ := (inBlocks_singleton a n x).mp haccess
    exact ⟨x - a, by omega, by rwa [Nat.add_sub_cancel' hlo]⟩
  · rintro ⟨k, hk, hin⟩
    exact ⟨a + k, hin, (inBlocks_singleton a n (a + k)).mpr (by omega)⟩

theorem byte_write_inside (m : Memory) (a n k : Nat) (v : BitVec 64) (hk : k < n) :
    (m.write a n v).byte (a + k) = v.extractLsb' (8 * k) 8 := by
  rw [byte_write, if_pos (by omega), Nat.add_sub_cancel_left]

theorem byte_write_outside (m : Memory) (a n b : Nat) (v : BitVec 64) (hb : b < a ∨ a + n ≤ b) :
    (m.write a n v).byte b = m.byte b := by
  rw [byte_write, if_neg (by omega)]

/-- Reading back what was written gives the bits that the write moved (20_memory.md R44, R45). -/
theorem read_write_same (m : Memory) (a n : Nat) (v : BitVec 64) (hn : n ≤ 8) :
    ((m.write a n v).read a n).toNat = v.toNat % 2 ^ (8 * n) := by
  apply Nat.eq_of_testBit_eq
  intro i
  rw [Nat.testBit_mod_two_pow, ← BitVec.getLsbD, ← BitVec.getLsbD, Memory.read, getLsbD_littleEndian _ n i hn]
  by_cases hi : i < 8 * n
  · rw [byte_write_inside m a n (i / 8) v (by omega), BitVec.getLsbD_extractLsb',
      show 8 * (i / 8) + i % 8 = i by omega]
    simp [Nat.mod_lt]
  · simp [hi]

/-! ## What a read sees -/

section
variable {s : State} {p : Pending}

theorem hostByte_idle (a : Nat) (hidle : s.pending = none) : s.hostByte a = s.mem.byte a := by
  simp [State.hostByte, State.inRunningWrites, hidle]

theorem hostByte_inWrites {a : Nat} (hp : s.pending = some p) (hin : inBlocks p.writes a = true) :
    s.hostByte a = Config.freeByte s.draws a := by
  simp [State.hostByte, State.inRunningWrites, hp, hin]

theorem hostByte_outsideWrites {a : Nat} (hp : s.pending = some p) (hout : inBlocks p.writes a = false) :
    s.hostByte a = s.mem.byte a := by
  simp [State.hostByte, State.inRunningWrites, hp, hout]

/-- Beside an idle engine a read is the RAM's own value and uses no draw. -/
theorem ramRead_idle (a n : Nat) (hidle : s.pending = none) :
    s.ramRead a n = { s with readData := s.mem.read a n } := by
  have hdraws : s.readDisturbed a n = false := by simp only [State.readDisturbed, hidle]
  simp [State.ramRead, Memory.read, hostByte_idle _ hidle, hdraws]

theorem ramRead_byte (s : State) {a n k : Nat} (hn : n ≤ 8) (hk : k < n) :
    (s.ramRead a n).readData.extractLsb' (8 * k) 8 = s.hostByte (a + k) :=
  extract_littleEndian _ n k hn hk

/-- A read of a byte of the running command's write set uses up a draw. -/
theorem ramRead_draws_disturbed {a n : Nat} (hp : s.pending = some p)
    (hread : ∃ k, k < n ∧ inBlocks p.writes (a + k) = true) : (s.ramRead a n).draws = s.draws + 1 := by
  have hdisturbed : s.readDisturbed a n = true := by
    simpa only [State.readDisturbed, hp] using (blocksMeet_access_iff _ a n).mpr hread
  rw [ramRead_draws, if_pos hdisturbed]

end

/-! ## A write into a footprint -/

theorem afterWrite_touching {p : Pending} {a n : Nat} (h : ∃ k, k < n ∧ inBlocks p.bytes (a + k) = true) :
    p.afterWrite a n = { p with disturbed := true } := by
  simp [Pending.afterWrite, (blocksMeet_access_iff _ a n).mpr h]

theorem afterWrite_apart {p : Pending} {a n : Nat} (h : ∀ k, k < n → inBlocks p.bytes (a + k) = false) :
    p.afterWrite a n = p := by
  have hapart : blocksMeet p.bytes [{ base := a, len := n }] = false := by
    rw [Bool.eq_false_iff, Ne, blocksMeet_access_iff]
    rintro ⟨k, hk, hin⟩
    exact Bool.eq_false_iff.mp (h k hk) hin
  simp [Pending.afterWrite, hapart]

/-! ## The steps -/

section
variable {s : State} {rest : List Turn} {n a : Nat} {v : BitVec 64}

theorem step_ramWrite (hok : ramAccessOk s.config n a = true)
    (hturns : s.turns = .host (.write n (ramAddr s.config a) v) :: rest) :
    step s = .next (({ s with turns := rest, mover := .host } : State).ramWrite a n v) := by
  rw [step_host s _ rest hturns]
  exact hostStep_moved (hostAction_ramWrite { s with turns := rest, mover := .host } n a v hok)

theorem step_ramRead (hok : ramAccessOk s.config n a = true)
    (hturns : s.turns = .host (.read n (ramAddr s.config a)) :: rest) :
    step s = .next (({ s with turns := rest, mover := .host } : State).ramRead a n) := by
  rw [step_host s _ rest hturns]
  exact hostStep_moved (hostAction_ramRead { s with turns := rest, mover := .host } n a hok)

theorem step_ramRead_idle (hidle : s.pending = none) (hok : ramAccessOk s.config n a = true)
    (hturns : s.turns = .host (.read n (ramAddr s.config a)) :: rest) :
    step s = .next { s with turns := rest, mover := .host, readData := s.mem.read a n } := by
  rw [step_ramRead hok hturns]
  exact congrArg _ (ramRead_idle (s := { s with turns := rest, mover := .host }) a n hidle)

end

/-- Settles O38: the write's bytes by `byte_write_inside`, the others by `byte_write_outside`. -/
theorem hostRamWriteChangesExactlyItsBytes : Obligations.HostRamWriteChangesExactlyItsBytes := by
  intro s rest n a v hok hturns
  refine ⟨_, step_ramWrite hok hturns, rfl, fun hidle => ?_, fun p hp => ?_,
    fun k hk => byte_write_inside s.mem a n k v hk, fun b hb => byte_write_outside s.mem a n b v hb⟩
  · simp [hidle]
  · exact ⟨(p.afterWrite a n).disturbed, by simp [hp, Pending.afterWrite]⟩

/-- Settles O39: the read port takes `Memory.read`, whose bytes are the RAM's. -/
theorem hostRamReadReturnsTheBytes : Obligations.HostRamReadReturnsTheBytes := by
  intro s rest n a hidle hok hturns
  obtain ⟨_, hn, _⟩ := ramAccessOk_bounds _ _ _ hok
  exact ⟨_, step_ramRead_idle hidle hok hturns, rfl, fun k hk => extract_littleEndian _ n k hn hk,
    littleEndian_toNat_lt _ n hn⟩

theorem core_run_two {s t u : State} (hfirst : step s = .next t) (hsecond : step t = .next u) :
    Host.Core.run Sys2Proof.core 2 s = .next u := by
  have h1 : Sys2Proof.core.step s = .next t := hfirst
  have h2 : Sys2Proof.core.step t = .next u := hsecond
  simp only [Host.Core.run, h1, h2]

/-- Settles O40: the second step reads the RAM that the first one wrote, by `read_write_same`. -/
theorem hostReadsBackWhatItWrote : Obligations.HostReadsBackWhatItWrote := by
  intro s rest n a v hidle hok hturns
  obtain ⟨_, hn, _⟩ := ramAccessOk_bounds _ _ _ hok
  have hwrite := step_ramWrite hok hturns
  have hread := step_ramRead_idle
    (s := ({ s with turns := .host (.read n (ramAddr s.config a)) :: rest, mover := .host } : State).ramWrite a n v)
    (by simp [hidle]) hok rfl
  exact ⟨_, core_run_two hwrite hread, rfl, read_write_same s.mem a n v hn⟩

/-- Settles O41: byte by byte of `State.hostByte`. -/
theorem hostReadOfTheRunningWriteSetIsAFreeDraw : Obligations.HostReadOfTheRunningWriteSetIsAFreeDraw := by
  intro s rest n a p hp hok hturns
  obtain ⟨_, hn, _⟩ := ramAccessOk_bounds _ _ _ hok
  have hrunning : ({ s with turns := rest, mover := .host } : State).pending = some p := hp
  refine ⟨_, step_ramRead hok hturns, rfl, fun k hk hin => ?_, fun k hk hout => ?_,
    ramRead_draws_disturbed hrunning⟩
  · rw [ramRead_byte _ hn hk, hostByte_inWrites hrunning hin]
  · rw [ramRead_byte _ hn hk, hostByte_outsideWrites hrunning hout]

/-- Settles O42: the pending command after the write is `Pending.afterWrite` of it. -/
theorem hostWriteIntoTheFootprintDisturbs : Obligations.HostWriteIntoTheFootprintDisturbs := by
  intro s rest n a v p hp hok hturns
  have hpending : (({ s with turns := rest, mover := .host } : State).ramWrite a n v).pending =
      some (p.afterWrite a n) := by simp [hp]
  exact ⟨_, step_ramWrite hok hturns, fun htouch => hpending.trans (congrArg some (afterWrite_touching htouch)),
    fun hapart => hpending.trans (congrArg some (afterWrite_apart hapart))⟩

end Sys2Proof.Machine
end

section
/-!
What a completion leaves of the RAM (20_memory.md R50, R56, R58): two RAMs that agree on the read set are transformed
alike, and a disturbed command leaves free draws.
-/

namespace Sys2Proof.Machine

/-! ## RAMs that agree on a set of blocks -/

/-- The two RAMs hold the same bytes in the blocks. -/
def AgreeOn (bs : List Block) (m m' : Memory) : Prop := ∀ a, inBlocks bs a = true → m.byte a = m'.byte a

theorem inBlocks_append (xs ys : List Block) (a : Nat) : inBlocks (xs ++ ys) a = (inBlocks xs a || inBlocks ys a) :=
  List.any_append

/-- Two loops keep a relation, indexed by the iterations done, that every pair of iterations keeps. -/
theorem forRange_relate {α : Type} (R : Nat → α → α → Prop) (n : Nat) (f g : Nat → α → α) (x y : α) (h0 : R 0 x y)
    (hstep : ∀ i, i < n → ∀ x y, R i x y → R (i + 1) (f i x) (g i y)) : R n (forRange n f x) (forRange n g y) := by
  induction n with
  | zero => exact h0
  | succ k ih => exact hstep k (by omega) _ _ (ih fun i hi => hstep i (by omega))

section
variable {bs xs ys : List Block} {m m' : Memory}

theorem AgreeOn.append_left (h : AgreeOn (xs ++ ys) m m') : AgreeOn xs m m' :=
  fun a ha => h a (by rw [inBlocks_append, ha, Bool.true_or])

theorem AgreeOn.append_right (h : AgreeOn (xs ++ ys) m m') : AgreeOn ys m m' :=
  fun a ha => h a (by rw [inBlocks_append, ha, Bool.or_true])

theorem AgreeOn.readF32 (h : AgreeOn bs m m') {a : Nat} (hin : ∀ i, i < 4 → inBlocks bs (a + i) = true) :
    m.readF32 a = m'.readF32 a := readF32_congr m m' a fun i hi => h _ (hin i hi)

theorem AgreeOn.readF64 (h : AgreeOn bs m m') {a : Nat} (hin : ∀ i, i < 8 → inBlocks bs (a + i) = true) :
    m.readF64 a = m'.readF64 a := readF64_congr m m' a fun i hi => h _ (hin i hi)

theorem AgreeOn.readComplex (h : AgreeOn bs m m') {a : Nat} (hin : ∀ i, i < 8 → inBlocks bs (a + i) = true) :
    m.readComplex a = m'.readComplex a := by
  rw [Memory.readComplex, Memory.readComplex, h.readF32 fun i hi => hin i (by omega),
    h.readF32 fun i hi => by rw [Nat.add_assoc]; exact hin (4 + i) (by omega)]

/-- The same lane written into both extends the agreement by the lane. -/
theorem AgreeOn.writeF32_extend (h : AgreeOn bs m m') (a : Nat) (v : F32)
    (hys : ∀ x, inBlocks ys x = true → (a ≤ x ∧ x < a + 4) ∨ inBlocks bs x = true) :
    AgreeOn ys (m.writeF32 a v) (m'.writeF32 a v) := by
  intro x hx
  simp only [Memory.writeF32, byte_write]
  by_cases hlane : a ≤ x ∧ x < a + 4
  · rw [if_pos hlane, if_pos hlane]
  · rw [if_neg hlane, if_neg hlane]
    exact h x ((hys x hx).resolve_left hlane)

theorem AgreeOn.writeF32 (h : AgreeOn bs m m') (a : Nat) (v : F32) :
    AgreeOn bs (m.writeF32 a v) (m'.writeF32 a v) := h.writeF32_extend a v fun _ hx => .inr hx

theorem AgreeOn.setFloat (h : AgreeOn bs m m') (P : Params) (k : Nat) (v : F32) :
    AgreeOn bs (Machine.setFloat P k v m) (Machine.setFloat P k v m') := h.writeF32 _ v

theorem AgreeOn.setSample (h : AgreeOn bs m m') (P : Params) (k : Nat) (z : Complex32) :
    AgreeOn bs (Machine.setSample P k z m) (Machine.setSample P k z m') := (h.writeF32 _ z.re).writeF32 _ z.im

/-- Float `k` written after all those before it. -/
theorem AgreeOn.setFloat_next {P : Params} {k : Nat} (h : AgreeOn [{ base := P.bufAddr.toNat, len := 4 * k }] m m')
    (v : F32) :
    AgreeOn [{ base := P.bufAddr.toNat, len := 4 * (k + 1) }] (Machine.setFloat P k v m)
      (Machine.setFloat P k v m') := by
  refine h.writeF32_extend _ v fun x hx => ?_
  rw [inBlocks_singleton] at hx ⊢
  rw [floatAddr]
  omega

end

/-! ## Elements of the read sets -/

section
variable {P : Params} {m m' : Memory}

theorem AgreeOn.floatAt {count k : Nat} (h : AgreeOn [{ base := P.bufAddr.toNat, len := 4 * count }] m m')
    (hk : k < count) : Machine.floatAt P m k = Machine.floatAt P m' k :=
  h.readF32 fun i hi => float_inBlocks P count k i hk hi

theorem AgreeOn.trig {count k : Nat} (h : AgreeOn [{ base := P.trigAddr.toNat, len := 4 * count }] m m')
    (hk : k < count) : Machine.trig P m k = Machine.trig P m' k := by
  refine h.readF32 fun i hi => ?_
  rw [inBlocks_singleton, trigAddr]
  omega

theorem AgreeOn.spectral {count k : Nat} (h : AgreeOn [{ base := P.srcAddr.toNat, len := 8 * count }] m m')
    (hk : k < count) : Machine.spectral P m k = Machine.spectral P m' k := by
  refine h.readF64 fun i hi => ?_
  rw [inBlocks_singleton, spectralAddr]
  omega

theorem AgreeOn.sample {count k : Nat} (h : AgreeOn [{ base := P.bufAddr.toNat, len := 8 * count }] m m')
    (hk : k < count) : Machine.sample P m k = Machine.sample P m' k :=
  h.readComplex fun i hi => sample_inBlocks P count k i hk hi

theorem AgreeOn.groupSample {n spacing span g j : Nat}
    (h : AgreeOn (groupBlocks P.bufAddr.toNat n spacing span) m m') (hg : g < n) (hj : j < span) :
    Machine.sample P m (g * spacing + j) = Machine.sample P m' (g * spacing + j) :=
  h.readComplex fun i hi => sample_inGroups P n spacing span g j i hg hj hi

theorem AgreeOn.firstSample {n spacing span g : Nat}
    (h : AgreeOn (groupBlocks P.bufAddr.toNat n spacing span) m m') (hg : g < n) (hspan : 0 < span) :
    Machine.sample P m (g * spacing) = Machine.sample P m' (g * spacing) := h.groupSample (j := 0) hg hspan

theorem inBlocks_twiddleBlocks (base : Nat) (ks : List Nat) (a : Nat) :
    inBlocks (twiddleBlocks base ks) a = true ↔ ∃ k ∈ ks, base + 8 * k ≤ a ∧ a < base + 8 * k + 8 := by
  simp [inBlocks_iff, twiddleBlocks]

theorem AgreeOn.twiddle {ks : List Nat} {k : Nat} (h : AgreeOn (twiddleBlocks P.twAddr.toNat ks) m m') (hk : k ∈ ks) :
    twiddle P m k = twiddle P m' k := by
  refine h.readComplex fun i hi => (inBlocks_twiddleBlocks _ _ _).mpr ⟨k, hk, ?_⟩
  rw [twiddleAddr]
  omega

theorem mem_bfly4TwiddleIndices {m fstride k : Nat} :
    k ∈ bfly4TwiddleIndices m fstride ↔ ∃ j, j < m ∧ (k = j * fstride ∨ k = 2 * j * fstride ∨ k = 3 * j * fstride) := by
  simp [bfly4TwiddleIndices]

end

/-! ## Each command's results on RAMs that agree on its read set -/

section
variable {P : Params} {m0 m0' : Memory}

theorem prerotPair_congr (h : AgreeOn (prerotFootprint P).reads m0 m0') (hn2 : P.n2.toNat = 2 * P.n4.toNat) {i : Nat}
    (hi : i < P.n4.toNat) : prerotPair P m0 i = prerotPair P m0' i := by
  have hsrc : AgreeOn (prerotFootprint P).src m0 m0' := h.append_left.append_left.append_left
  have htrig : AgreeOn (prerotFootprint P).trig m0 m0' := h.append_left.append_left.append_right
  simp only [prerotPair]
  rw [hsrc.spectral, hsrc.spectral, htrig.trig, htrig.trig] <;> omega

/-- PREROT reads nothing of its buffer: the agreement grows by the pair of each iteration. -/
theorem prerotRam_agree (hn2 : P.n2.toNat = 2 * P.n4.toNat) (h : AgreeOn (prerotFootprint P).reads m0 m0') :
    AgreeOn (prerotFootprint P).buf (prerotRam P m0) (prerotRam P m0') := by
  have hloop : AgreeOn [{ base := P.bufAddr.toNat, len := 4 * (2 * P.n4.toNat) }] (prerotRam P m0)
      (prerotRam P m0') := by
    refine forRange_relate (fun i => AgreeOn [{ base := P.bufAddr.toNat, len := 4 * (2 * i) }]) _ _ _ _ _
      (fun a ha => ?_) fun i hi m m' hm => ?_
    · rw [inBlocks_singleton] at ha
      omega
    · rw [prerotIter, prerotIter, prerotPair_congr h hn2 hi]
      exact (hm.setFloat_next _).setFloat_next _
  rwa [← hn2] at hloop

theorem postrotPair_congr {k : Nat} (h : AgreeOn [{ base := P.bufAddr.toNat, len := 4 * P.n2.toNat }] m0 m0')
    (hk : k + 1 < P.n2.toNat) (t0 t1 : F32) : postrotPair P m0 k t0 t1 = postrotPair P m0' k t0 t1 := by
  rw [postrotPair, postrotPair, h.floatAt hk, h.floatAt (Nat.lt_of_succ_lt hk)]

theorem postrotRam_agree (hn2 : P.n2.toNat = 2 * P.n4.toNat) (h : AgreeOn (postrotFootprint P).reads m0 m0') :
    AgreeOn (postrotFootprint P).buf (postrotRam P m0) (postrotRam P m0') := by
  have hbuf : AgreeOn (postrotFootprint P).buf m0 m0' := h.append_right
  have htrig : AgreeOn (postrotFootprint P).trig m0 m0' := h.append_left.append_left.append_right
  refine forRange_relate (fun _ => AgreeOn (postrotFootprint P).buf) _ _ _ _ _ hbuf fun i hi m m' hm => ?_
  have hlow : postrotLow P m0 i = postrotLow P m0' i := by
    rw [postrotLow, postrotLow, htrig.trig, htrig.trig, postrotPair_congr hbuf] <;> omega
  have hhigh : postrotHigh P m0 i = postrotHigh P m0' i := by
    rw [postrotHigh, postrotHigh, htrig.trig, htrig.trig, postrotPair_congr hbuf] <;> omega
  rw [postrotIter, postrotIter, hlow, hhigh]
  exact (((hm.setFloat _ _ _).setFloat _ _ _).setFloat _ _ _).setFloat _ _ _

theorem bfly3Group_congr (h : AgreeOn (bfly3Footprint P).reads m0 m0') {g : Nat} (hg : g < P.n.toNat) :
    bfly3Group P m0 (g * P.mm.toNat) = bfly3Group P m0' (g * P.mm.toNat) := by
  have hbuf : AgreeOn (bfly3Footprint P).buf m0 m0' := h.append_right
  have htw : AgreeOn (bfly3Footprint P).tw m0 m0' := h.append_left.append_right
  have hepi : twiddleIm P m0 P.fstride.toNat = twiddleIm P m0' P.fstride.toNat :=
    htw.readF32 fun i hi => (inBlocks_singleton ..).mpr (by rw [twiddleAddr]; omega)
  have hsample {j} (hj : j < 3) := hbuf.groupSample hg hj
  rw [bfly3Group, bfly3Group, hepi, hbuf.firstSample hg, hsample, hsample] <;> omega

theorem bfly3Ram_agree (h : AgreeOn (bfly3Footprint P).reads m0 m0') :
    AgreeOn (bfly3Footprint P).buf (bfly3Ram P m0) (bfly3Ram P m0') := by
  refine forRange_relate (fun _ => AgreeOn (bfly3Footprint P).buf) _ _ _ _ _ h.append_right fun g hg m m' hm => ?_
  rw [bfly3Iter, bfly3Iter, bfly3Group_congr h hg]
  exact ((hm.setSample _ _ _).setSample _ _ _).setSample _ _ _

theorem bfly4m1Group_congr (h : AgreeOn (bfly4m1Footprint P).reads m0 m0') {g : Nat} (hg : g < P.n.toNat) :
    bfly4m1Group P m0 (4 * g) = bfly4m1Group P m0' (4 * g) := by
  have hbuf : AgreeOn (bfly4m1Footprint P).buf m0 m0' := h.append_right
  rw [bfly4m1Group, bfly4m1Group, hbuf.sample, hbuf.sample, hbuf.sample, hbuf.sample] <;> omega

theorem bfly4m1Ram_agree (h : AgreeOn (bfly4m1Footprint P).reads m0 m0') :
    AgreeOn (bfly4m1Footprint P).buf (bfly4m1Ram P m0) (bfly4m1Ram P m0') := by
  refine forRange_relate (fun _ => AgreeOn (bfly4m1Footprint P).buf) _ _ _ _ _ h.append_right fun g hg m m' hm => ?_
  rw [bfly4m1Iter, bfly4m1Iter, bfly4m1Group_congr h hg]
  exact (((hm.setSample _ _ _).setSample _ _ _).setSample _ _ _).setSample _ _ _

theorem bfly4Position_congr (h : AgreeOn (bfly4Footprint P).reads m0 m0') {g j : Nat} (hg : g < P.n.toNat)
    (hj : j < P.m.toNat) : bfly4Position P m0 (g * P.mm.toNat) j = bfly4Position P m0' (g * P.mm.toNat) j := by
  have hbuf : AgreeOn (bfly4Footprint P).buf m0 m0' := h.append_right
  have htw : AgreeOn (bfly4Footprint P).tw m0 m0' := h.append_left.append_right
  have hsample {k} (hk : k < 4 * P.m.toNat) := hbuf.groupSample hg hk
  have htwiddle {k} (hk : k = j * P.fstride.toNat ∨ k = 2 * j * P.fstride.toNat ∨ k = 3 * j * P.fstride.toNat) :=
    htw.twiddle (mem_bfly4TwiddleIndices.mpr ⟨j, hj, hk⟩)
  simp only [bfly4Position, Nat.add_assoc]
  rw [htwiddle (.inl rfl), htwiddle (.inr (.inl rfl)), htwiddle (.inr (.inr rfl)), hsample, hsample, hsample, hsample]
    <;> omega

theorem bfly4Ram_agree (h : AgreeOn (bfly4Footprint P).reads m0 m0') :
    AgreeOn (bfly4Footprint P).buf (bfly4Ram P m0) (bfly4Ram P m0') := by
  refine forRange_relate (fun _ => AgreeOn (bfly4Footprint P).buf) _ _ _ _ _ h.append_right fun g hg m m' hm => ?_
  refine forRange_relate (fun _ => AgreeOn (bfly4Footprint P).buf) _ _ _ _ _ hm fun j hj m m' hm => ?_
  rw [bfly4PositionIter, bfly4PositionIter, bfly4Position_congr h hg hj]
  exact (((hm.setSample _ _ _).setSample _ _ _).setSample _ _ _).setSample _ _ _

theorem bfly5Group_congr (h : AgreeOn (bfly5Footprint P).reads m0 m0') {g : Nat} (hg : g < P.n.toNat) :
    bfly5Group P m0 (g * P.mm.toNat) = bfly5Group P m0' (g * P.mm.toNat) := by
  have hbuf : AgreeOn (bfly5Footprint P).buf m0 m0' := h.append_right
  have htw : AgreeOn (bfly5Footprint P).tw m0 m0' := h.append_left.append_right
  have hsample {j} (hj : j < 5) := hbuf.groupSample hg hj
  rw [bfly5Group, bfly5Group, htw.twiddle (.head _), htw.twiddle (.tail _ (.head _)), hbuf.firstSample hg,
    hsample, hsample, hsample, hsample] <;> omega

theorem bfly5Ram_agree (h : AgreeOn (bfly5Footprint P).reads m0 m0') :
    AgreeOn (bfly5Footprint P).buf (bfly5Ram P m0) (bfly5Ram P m0') := by
  refine forRange_relate (fun _ => AgreeOn (bfly5Footprint P).buf) _ _ _ _ _ h.append_right fun g hg m m' hm => ?_
  rw [bfly5Iter, bfly5Iter, bfly5Group_congr h hg]
  exact ((((hm.setSample _ _ _).setSample _ _ _).setSample _ _ _).setSample _ _ _).setSample _ _ _

end

/-- An accepted command computes the same bytes from RAMs that agree on its read set. -/
theorem commandRam_agree {op : Instr} {c : Config} {P : Params} {m m' : Memory} (hacc : startCheck op c P = none)
    (h : AgreeOn (footprint op P).reads m m') :
    AgreeOn (footprint op P).writes (commandRam op P m) (commandRam op P m') := by
  cases hz : zeroIterations op P with
  | true =>
    rw [footprint_zeroIterations hz]
    intro a ha
    cases ha
  | false =>
    simp only [footprint, hz, Bool.false_eq_true, if_false] at h ⊢
    cases op with
    | prerot => exact prerotRam_agree (accepted_rotation (.inl rfl) hacc) h
    | postrot => exact postrotRam_agree (accepted_rotation (.inr rfl) hacc) h
    | bfly3 => exact bfly3Ram_agree h
    | bfly4m1 => exact bfly4m1Ram_agree h
    | bfly4 => exact bfly4Ram_agree h
    | bfly5 => exact bfly5Ram_agree h

theorem byte_keptInside {bs : List Block} {a : Nat} (b : Byte) (hout : inBlocks bs a = false) :
    KeptInside bs fun m => m.byte a = b := by
  intro m x v hx hm
  have hne : a ≠ x := by
    rintro rfl
    exact Bool.eq_false_iff.mp hout hx
  rw [byte_setByte, if_neg hne, hm]

/-- An accepted command leaves every byte outside its write set. -/
theorem commandRam_frame {op : Instr} {c : Config} {P : Params} {a : Nat} (m : Memory)
    (hacc : startCheck op c P = none) (hout : inBlocks (footprint op P).writes a = false) :
    (commandRam op P m).byte a = m.byte a :=
  commandRam_keeps (p := fun m' => m'.byte a = m.byte a) hacc (byte_keptInside _ hout) rfl

/-- Settles O23: the RAM after a completion is `commandRam`, by `commandRam_agree` and `commandRam_frame`. -/
theorem completionReadsOnlyTheReadSet : Obligations.CompletionReadsOnlyTheReadSet := by
  intro op P s s' t t' hs hs' hreads ht ht'
  rw [exec_completing op P s hs] at ht
  rw [exec_completing op P s' hs'] at ht'
  cases ht
  cases ht'
  exact ⟨commandRam_agree hs.accepted hreads, fun a hout => commandRam_frame s.mem hs.accepted hout⟩

/-! ## A disturbed completion -/

theorem complete_disturbed (effect : Params → Memory → Memory) (s : State) {p : Pending} (h : p.disturbed = true) :
    s.complete p effect = { s.completeWith (s.mem.scramble s.draws p.writes) with draws := s.draws + 1 } := by
  rw [State.complete, if_pos h]

/-- Settles O25: the RAM is scrambled on the write set, by `byte_scramble`. -/
theorem disturbedCompletionLeavesFreeDraws : Obligations.DisturbedCompletionLeavesFreeDraws := by
  intro op P s hmover hp hcheck
  refine ⟨_, (exec_engine_accepted hmover hp rfl hcheck).trans (congrArg _ (complete_disturbed _ s rfl)), rfl,
    fun a hin => ?_, fun a hout => ?_⟩
  · exact (byte_scramble ..).trans (if_pos hin)
  · exact (byte_scramble ..).trans (if_neg (Bool.eq_false_iff.mp hout))

end Sys2Proof.Machine
end

section
/-!
The start checks decide the exact byte sets (20_memory.md R47, R51 to R53; 60_exceptions.md R114, R115): the highest
byte of each region, what each check passes, and then each command's checks.
-/

namespace Sys2Proof.Machine

/-! ## The highest byte of each region -/

/-- `last` is the highest byte of the blocks. -/
def HighestByte (bs : List Block) (last : Nat) : Prop := IsGreatest {a | inBlocks bs a = true} last

theorem highestByte_singleton {base len : Nat} (hlen : 0 < len) :
    HighestByte [{ base := base, len := len }] (base + len - 1) := by
  refine ⟨(inBlocks_singleton ..).mpr (by omega), fun a ha => ?_⟩
  have hin := (inBlocks_singleton ..).mp ha
  omega

/-- The last group holds the highest byte of the groups (60_exceptions.md R114). -/
theorem highestByte_groupBlocks {base n spacing span : Nat} (hn : 0 < n) (hspan : 0 < span) :
    HighestByte (groupBlocks base n spacing span) (base + 8 * ((n - 1) * spacing + span) - 1) := by
  refine ⟨(inBlocks_groupBlocks ..).mpr ⟨n - 1, by omega, by omega, by omega⟩, fun a ha => ?_⟩
  obtain ⟨i, hi, _, hlast⟩ := (inBlocks_groupBlocks ..).mp ha
  have hmul : i * spacing ≤ (n - 1) * spacing := Nat.mul_le_mul_right _ (by omega)
  omega

/-- The entry of the greatest index holds the highest byte of the twiddle entries. -/
theorem highestByte_twiddleBlocks {base k : Nat} {ks : List Nat} (hk : IsGreatest {j | j ∈ ks} k) :
    HighestByte (twiddleBlocks base ks) (base + 8 * k + 7) := by
  obtain ⟨hmem, hgreatest⟩ := hk
  refine ⟨(inBlocks_twiddleBlocks ..).mpr ⟨k, hmem, by omega, by omega⟩, fun a ha => ?_⟩
  obtain ⟨j, hj, _, hlast⟩ := (inBlocks_twiddleBlocks ..).mp ha
  have hle : j ≤ k := hgreatest hj
  omega

theorem bfly4TwiddleIndices_isGreatest {m fstride : Nat} (hm : 0 < m) :
    IsGreatest {k | k ∈ bfly4TwiddleIndices m fstride} (3 * (m - 1) * fstride) := by
  refine ⟨mem_bfly4TwiddleIndices.mpr ⟨m - 1, by omega, .inr (.inr rfl)⟩, fun k hk => ?_⟩
  obtain ⟨j, hj, rfl | rfl | rfl⟩ := mem_bfly4TwiddleIndices.mp hk <;> exact Nat.mul_le_mul_right _ (by omega)

theorem bfly5TwiddleIndices_isGreatest (fstride : Nat) :
    IsGreatest {k | k ∈ [fstride, 2 * fstride]} (2 * fstride) := by
  refine ⟨by simp, fun k hk => ?_⟩
  simp only [List.mem_cons, List.not_mem_nil, or_false, Set.mem_ofPred_eq] at hk
  omega

/-! ## The regions of the footprint -/

/-- The footprint of a command that has iterations (20_memory.md R51). -/
def iterationFootprint : Instr → Params → Footprint
  | .prerot => prerotFootprint
  | .postrot => postrotFootprint
  | .bfly3 => bfly3Footprint
  | .bfly4m1 => bfly4m1Footprint
  | .bfly4 => bfly4Footprint
  | .bfly5 => bfly5Footprint

theorem footprint_of_iterations {op : Instr} {P : Params} (hz : zeroIterations op P = false) :
    footprint op P = iterationFootprint op P := by
  cases op <;> simp only [footprint, hz, Bool.false_eq_true, if_false, iterationFootprint]

/-- A base register that the command does not read has no region. -/
theorem regionOf_unread {op : Instr} {P : Params} {r : Reg} (h : readsBase op r = false) : regionOf op P r = [] := by
  cases hz : zeroIterations op P with
  | true => cases r <;> simp only [regionOf, footprint_zeroIterations hz, Footprint.empty]
  | false =>
    have hfoot := footprint_of_iterations hz
    cases r
    case bufAddr => cases op <;> cases h
    case srcAddr | trigAddr | twAddr =>
      rw [regionOf, hfoot]
      cases op <;> cases h <;> rfl
    all_goals rfl

/-! ## What each check passes -/

theorem failIf_eq_none_iff {q : Prop} [Decidable q] {code : ErrCode} {r : Reg} : failIf q code r = none ↔ ¬ q :=
  ⟨failIf_none, fun h => if_neg h⟩

theorem paramCheck_eq_none_iff {P : Params} : paramCheck P = none ↔ P.n2.toNat = 2 * P.n4.toNat :=
  failIf_eq_none_iff.trans not_not

section
variable {op : Instr} {c : Config} {P : Params} {r : Reg}

theorem alignCheck_eq_none_iff {base : Word} {unit : Nat} (hbase : base.toNat = baseOf P r) (hunit : unit = baseUnit r)
    (hreads : readsBase op r = true) : alignCheck r base unit = none ↔ ¬ Misaligned op P r := by
  rw [alignCheck, failIf_eq_none_iff, Misaligned, hbase, hunit]
  simp [hreads]

theorem alignCheck_srcAddr (hreads : readsBase op .srcAddr = true) :
    alignCheck .srcAddr P.srcAddr 8 = none ↔ ¬ Misaligned op P .srcAddr := alignCheck_eq_none_iff rfl rfl hreads

theorem alignCheck_bufAddr : alignCheck .bufAddr P.bufAddr 8 = none ↔ ¬ Misaligned op P .bufAddr :=
  alignCheck_eq_none_iff rfl rfl (by cases op <;> rfl)

theorem alignCheck_trigAddr (hreads : readsBase op .trigAddr = true) :
    alignCheck .trigAddr P.trigAddr 4 = none ↔ ¬ Misaligned op P .trigAddr := alignCheck_eq_none_iff rfl rfl hreads

theorem alignCheck_twAddr (hreads : readsBase op .twAddr = true) :
    alignCheck .twAddr P.twAddr 8 = none ↔ ¬ Misaligned op P .twAddr := alignCheck_eq_none_iff rfl rfl hreads

/-- The range check of a region by its highest byte is the check of all its bytes (20_memory.md R52). -/
theorem rangeCheck_eq_none_iff {last : Nat} (hlast : HighestByte (regionOf op P r) last) :
    rangeCheck c r last = none ↔ ¬ OutOfRange op c P r := by
  obtain ⟨hin, hgreatest⟩ := hlast
  rw [rangeCheck, failIf_eq_none_iff, not_iff_not]
  constructor
  · intro hout
    exact ⟨last, hin, hout⟩
  · rintro ⟨a, ha, hout⟩
    exact hout.trans (hgreatest ha)

theorem spacingCheck_eq_none_iff {span : Nat} (hspan : spacedSpan op P = some span) :
    spacingCheck P span = none ↔ ¬ GroupsTooClose op P := by
  rw [spacingCheck, failIf_eq_none_iff, GroupsTooClose]
  simp [hspan]

/-- The overlap check decides the exact byte sets (20_memory.md R53). -/
theorem overlapCheck_eq_none_iff (hr : r ≠ .bufAddr) :
    overlapCheck r (footprint op P).writes (regionOf op P r) = none ↔ ¬ OverlapsWrites op P r := by
  rw [overlapCheck, failIf_eq_none_iff, blocksMeet_iff, OverlapsWrites]
  simp [hr]

theorem overlapCheck_srcAddr :
    overlapCheck .srcAddr (footprint op P).buf (footprint op P).src = none ↔ ¬ OverlapsWrites op P .srcAddr :=
  overlapCheck_eq_none_iff (by decide)

theorem overlapCheck_trigAddr :
    overlapCheck .trigAddr (footprint op P).buf (footprint op P).trig = none ↔ ¬ OverlapsWrites op P .trigAddr :=
  overlapCheck_eq_none_iff (by decide)

theorem overlapCheck_twAddr :
    overlapCheck .twAddr (footprint op P).buf (footprint op P).tw = none ↔ ¬ OverlapsWrites op P .twAddr :=
  overlapCheck_eq_none_iff (by decide)

/-! ## What no check is needed for -/

theorem not_misaligned_of_unread (h : readsBase op r = false) : ¬ Misaligned op P r := by
  rintro ⟨hreads, _⟩
  exact Bool.false_ne_true (h.symm.trans hreads)

theorem not_outOfRange_of_unread (h : readsBase op r = false) : ¬ OutOfRange op c P r := by
  rintro ⟨a, ha, _⟩
  rw [regionOf_unread h] at ha
  cases ha

theorem not_overlapsWrites_of_unread (h : readsBase op r = false) : ¬ OverlapsWrites op P r := by
  rintro ⟨_, a, _, ha⟩
  rw [regionOf_unread h] at ha
  cases ha

theorem not_overlapsWrites_bufAddr : ¬ OverlapsWrites op P .bufAddr := fun h => h.1 rfl

theorem not_groupsTooClose_of_unspaced (h : spacedSpan op P = none) : ¬ GroupsTooClose op P := by
  rintro ⟨span, hspan, _⟩
  cases h.symm.trans hspan

/-! ## The footprint as a byte set -/

/-- The read set and the write set are the four regions together. -/
theorem inBlocks_footprint_iff {a : Nat} :
    (inBlocks (footprint op P).reads a = true ∨ inBlocks (footprint op P).writes a = true) ↔
      ∃ r ∈ baseRegs, inBlocks (regionOf op P r) a = true := by
  simp only [Footprint.reads, Footprint.writes, inBlocks_append, baseRegs, List.mem_cons, List.not_mem_nil, or_false,
    exists_eq_or_imp, exists_eq_left, regionOf, Bool.or_eq_true]
  cases (footprint op P).bufRead with
  | true =>
    simp only [if_true]
    tauto
  | false =>
    simp only [Bool.false_eq_true, if_false, inBlocks, List.any_nil]
    tauto

theorem footprint_below_iff :
    (∀ a, (inBlocks (footprint op P).reads a = true ∨ inBlocks (footprint op P).writes a = true) →
        a < c.memBytes) ↔
      ∀ r ∈ baseRegs, ¬ OutOfRange op c P r := by
  simp only [inBlocks_footprint_iff, OutOfRange, not_exists, not_and, not_le]
  exact ⟨fun h r hr a ha => h a ⟨r, hr, ha⟩, fun h a ⟨r, hr, ha⟩ => h r hr a ha⟩

theorem forall_baseRegs {p : Reg → Prop} :
    (∀ r ∈ baseRegs, p r) ↔ p .srcAddr ∧ p .bufAddr ∧ p .trigAddr ∧ p .twAddr := by
  simp [baseRegs]

/-- The exact footprint is aligned, in the RAM and free of overlap. -/
def FootprintLegal (op : Instr) (c : Config) (P : Params) : Prop :=
  (∀ r ∈ baseRegs, ¬ Misaligned op P r) ∧ (∀ r ∈ baseRegs, ¬ OutOfRange op c P r) ∧ ¬ GroupsTooClose op P ∧
    ∀ r ∈ baseRegs, ¬ OverlapsWrites op P r

end

/-! ## Each command's checks -/

section
variable {op : Instr} {c : Config} {P : Params}

theorem prerotCheck_eq_none_iff (hz : zeroIterations .prerot P = false) :
    prerotCheck c P = none ↔ P.n2.toNat = 2 * P.n4.toNat ∧ FootprintLegal .prerot c P := by
  have hfoot : footprint .prerot P = prerotFootprint P := footprint_of_iterations hz
  have hn4 : P.n4.toNat ≠ 0 := by simpa [zeroIterations, ← BitVec.toNat_inj] using hz
  simp only [prerotCheck, hz, Bool.false_eq_true, if_false, orElse_none_iff, paramCheck_eq_none_iff, ← hfoot]
  refine and_congr_right fun hn2 => ?_
  have hsrc : HighestByte (regionOf .prerot P .srcAddr) (P.srcAddr.toNat + 8 * P.n2.toNat - 1) := by
    rw [regionOf, hfoot]
    exact highestByte_singleton (by omega)
  have hbuf : HighestByte (regionOf .prerot P .bufAddr) (P.bufAddr.toNat + 4 * P.n2.toNat - 1) := by
    rw [regionOf, hfoot]
    exact highestByte_singleton (by omega)
  have htrig : HighestByte (regionOf .prerot P .trigAddr) (P.trigAddr.toNat + 4 * P.n2.toNat - 1) := by
    rw [regionOf, hfoot]
    exact highestByte_singleton (by omega)
  rw [alignCheck_srcAddr (op := .prerot) rfl, alignCheck_bufAddr (op := .prerot),
    alignCheck_trigAddr (op := .prerot) rfl, rangeCheck_eq_none_iff hsrc, rangeCheck_eq_none_iff hbuf,
    rangeCheck_eq_none_iff htrig, overlapCheck_srcAddr, overlapCheck_trigAddr]
  have hunreadTw : readsBase .prerot .twAddr = false := rfl
  have hunspaced : spacedSpan .prerot P = none := rfl
  simp only [FootprintLegal, forall_baseRegs, hunreadTw, hunspaced, not_misaligned_of_unread,
    not_outOfRange_of_unread, not_overlapsWrites_of_unread, not_overlapsWrites_bufAddr, not_groupsTooClose_of_unspaced,
    not_false_eq_true, and_true, true_and, and_assoc]

theorem postrotCheck_eq_none_iff (hz : zeroIterations .postrot P = false) :
    postrotCheck c P = none ↔ P.n2.toNat = 2 * P.n4.toNat ∧ FootprintLegal .postrot c P := by
  have hfoot : footprint .postrot P = postrotFootprint P := footprint_of_iterations hz
  have hn4 : P.n4.toNat ≠ 0 := by simpa [zeroIterations, ← BitVec.toNat_inj] using hz
  simp only [postrotCheck, hz, Bool.false_eq_true, if_false, orElse_none_iff, paramCheck_eq_none_iff, ← hfoot]
  refine and_congr_right fun hn2 => ?_
  have hbuf : HighestByte (regionOf .postrot P .bufAddr) (P.bufAddr.toNat + 4 * P.n2.toNat - 1) := by
    rw [regionOf, hfoot]
    exact highestByte_singleton (by omega)
  have htrig : HighestByte (regionOf .postrot P .trigAddr) (P.trigAddr.toNat + 4 * P.n2.toNat - 1) := by
    rw [regionOf, hfoot]
    exact highestByte_singleton (by omega)
  rw [alignCheck_bufAddr (op := .postrot), alignCheck_trigAddr (op := .postrot) rfl, rangeCheck_eq_none_iff hbuf,
    rangeCheck_eq_none_iff htrig, overlapCheck_trigAddr]
  have hunreadSrc : readsBase .postrot .srcAddr = false := rfl
  have hunreadTw : readsBase .postrot .twAddr = false := rfl
  have hunspaced : spacedSpan .postrot P = none := rfl
  simp only [FootprintLegal, forall_baseRegs, hunreadSrc, hunreadTw, hunspaced, not_misaligned_of_unread,
    not_outOfRange_of_unread, not_overlapsWrites_of_unread, not_overlapsWrites_bufAddr, not_groupsTooClose_of_unspaced,
    not_false_eq_true, and_true, true_and, and_assoc]

theorem bfly4m1Check_eq_none_iff (hz : zeroIterations .bfly4m1 P = false) :
    bfly4m1Check c P = none ↔ FootprintLegal .bfly4m1 c P := by
  have hfoot : footprint .bfly4m1 P = bfly4m1Footprint P := footprint_of_iterations hz
  have hn : P.n.toNat ≠ 0 := by simpa [zeroIterations, ← BitVec.toNat_inj] using hz
  have hbuf : HighestByte (regionOf .bfly4m1 P .bufAddr) (P.bufAddr.toNat + 32 * P.n.toNat - 1) := by
    rw [regionOf, hfoot, show 32 * P.n.toNat = 8 * (4 * P.n.toNat) by omega]
    exact highestByte_singleton (by omega)
  simp only [bfly4m1Check, hz, Bool.false_eq_true, if_false, orElse_none_iff]
  rw [alignCheck_bufAddr (op := .bfly4m1), rangeCheck_eq_none_iff hbuf]
  have hunreadSrc : readsBase .bfly4m1 .srcAddr = false := rfl
  have hunreadTrig : readsBase .bfly4m1 .trigAddr = false := rfl
  have hunreadTw : readsBase .bfly4m1 .twAddr = false := rfl
  have hunspaced : spacedSpan .bfly4m1 P = none := rfl
  simp only [FootprintLegal, forall_baseRegs, hunreadSrc, hunreadTrig, hunreadTw, hunspaced, not_misaligned_of_unread,
    not_outOfRange_of_unread, not_overlapsWrites_of_unread, not_overlapsWrites_bufAddr, not_groupsTooClose_of_unspaced,
    not_false_eq_true, and_true, true_and]

/-- The groups of the butterflies whose groups stand `MM` apart. -/
theorem spaced_footprint {span : Nat} (hspan : spacedSpan op P = some span) (hz : zeroIterations op P = false) :
    0 < P.n.toNat ∧ 0 < span ∧ (footprint op P).buf = groupBlocks P.bufAddr.toNat P.n.toNat P.mm.toNat span := by
  rw [footprint_of_iterations hz]
  cases op <;> cases hspan <;> simp [zeroIterations, ← BitVec.toNat_inj] at hz <;> exact ⟨by omega, by omega, rfl⟩

theorem spaced_readsBase {span : Nat} (hspan : spacedSpan op P = some span) :
    readsBase op .srcAddr = false ∧ readsBase op .trigAddr = false ∧ readsBase op .twAddr = true := by
  cases op <;> cases hspan <;> exact ⟨rfl, rfl, rfl⟩

/-- The six checks of BFLY3, BFLY4 and BFLY5. -/
theorem spacedChecks_eq_none_iff {span twLast : Nat} (hspan : spacedSpan op P = some span)
    (hz : zeroIterations op P = false) (htw : HighestByte (footprint op P).tw twLast) :
    (alignCheck .bufAddr P.bufAddr 8 <|>
      alignCheck .twAddr P.twAddr 8 <|>
      rangeCheck c .bufAddr (groupsHighest P span) <|>
      rangeCheck c .twAddr twLast <|>
      spacingCheck P span <|>
      overlapCheck .twAddr (footprint op P).buf (footprint op P).tw) = none ↔ FootprintLegal op c P := by
  obtain ⟨hn, hpos, hgroups⟩ := spaced_footprint hspan hz
  obtain ⟨hunreadSrc, hunreadTrig, hreadsTw⟩ := spaced_readsBase hspan
  have hbuf : HighestByte (regionOf op P .bufAddr) (groupsHighest P span) := by
    rw [regionOf, hgroups]
    exact highestByte_groupBlocks hn hpos
  have htwRegion : HighestByte (regionOf op P .twAddr) twLast := htw
  simp only [orElse_none_iff]
  rw [alignCheck_bufAddr (op := op), alignCheck_twAddr hreadsTw, rangeCheck_eq_none_iff hbuf,
    rangeCheck_eq_none_iff htwRegion, spacingCheck_eq_none_iff hspan, overlapCheck_twAddr]
  simp only [FootprintLegal, forall_baseRegs, hunreadSrc, hunreadTrig, not_misaligned_of_unread,
    not_outOfRange_of_unread, not_overlapsWrites_of_unread, not_overlapsWrites_bufAddr, not_false_eq_true, true_and,
    and_assoc]

theorem bfly3Check_eq_none_iff (hz : zeroIterations .bfly3 P = false) :
    bfly3Check c P = none ↔ FootprintLegal .bfly3 c P := by
  have hfoot : footprint .bfly3 P = bfly3Footprint P := footprint_of_iterations hz
  have htw : HighestByte (footprint .bfly3 P).tw (P.twAddr.toNat + 8 * P.fstride.toNat + 7) := by
    rw [hfoot]
    exact highestByte_singleton (by omega)
  rw [bfly3Check, hz, if_neg Bool.false_ne_true, ← hfoot, spacedChecks_eq_none_iff rfl hz htw]

theorem bfly4Check_eq_none_iff (hz : zeroIterations .bfly4 P = false) :
    bfly4Check c P = none ↔ FootprintLegal .bfly4 c P := by
  have hfoot : footprint .bfly4 P = bfly4Footprint P := footprint_of_iterations hz
  have hm : P.m.toNat ≠ 0 := by
    simp only [zeroIterations, Bool.or_eq_false_iff, beq_eq_false_iff_ne, ne_eq, ← BitVec.toNat_inj] at hz
    exact hz.2
  have htw : HighestByte (footprint .bfly4 P).tw
      (P.twAddr.toNat + 8 * (3 * (P.m.toNat - 1) * P.fstride.toNat) + 7) := by
    rw [hfoot]
    exact highestByte_twiddleBlocks (bfly4TwiddleIndices_isGreatest (by omega))
  rw [bfly4Check, hz, if_neg Bool.false_ne_true, ← hfoot, spacedChecks_eq_none_iff rfl hz htw]

theorem bfly5Check_eq_none_iff (hz : zeroIterations .bfly5 P = false) :
    bfly5Check c P = none ↔ FootprintLegal .bfly5 c P := by
  have hfoot : footprint .bfly5 P = bfly5Footprint P := footprint_of_iterations hz
  have htw : HighestByte (footprint .bfly5 P).tw (P.twAddr.toNat + 16 * P.fstride.toNat + 7) := by
    rw [hfoot, show 16 * P.fstride.toNat = 8 * (2 * P.fstride.toNat) by omega]
    exact highestByte_twiddleBlocks (bfly5TwiddleIndices_isGreatest _)
  rw [bfly5Check, hz, if_neg Bool.false_ne_true, ← hfoot, spacedChecks_eq_none_iff rfl hz htw]

theorem startCheck_zeroIterations (hz : zeroIterations op P = true) :
    startCheck op c P = none ↔ (isRotation op → P.n2.toNat = 2 * P.n4.toNat) := by
  cases op
  case prerot | postrot =>
    simp [startCheck, prerotCheck, postrotCheck, hz, paramCheck_eq_none_iff, isRotation]
  all_goals simp [startCheck, bfly3Check, bfly4m1Check, bfly4Check, bfly5Check, hz, isRotation]

theorem startCheck_iterations (hz : zeroIterations op P = false) :
    startCheck op c P = none ↔ (isRotation op → P.n2.toNat = 2 * P.n4.toNat) ∧ FootprintLegal op c P := by
  cases op with
  | prerot => simpa [startCheck, isRotation] using prerotCheck_eq_none_iff hz
  | postrot => simpa [startCheck, isRotation] using postrotCheck_eq_none_iff hz
  | bfly3 => simpa [startCheck, isRotation] using bfly3Check_eq_none_iff hz
  | bfly4m1 => simpa [startCheck, isRotation] using bfly4m1Check_eq_none_iff hz
  | bfly4 => simpa [startCheck, isRotation] using bfly4Check_eq_none_iff hz
  | bfly5 => simpa [startCheck, isRotation] using bfly5Check_eq_none_iff hz

end

/-- Settles O12, with and without iterations; the reads and writes together are the four regions. -/
theorem startAcceptedExactlyWhenFootprintIsLegal : Obligations.StartAcceptedExactlyWhenFootprintIsLegal := by
  intro op c P
  rw [footprint_below_iff]
  cases hz : zeroIterations op P with
  | true => simpa using startCheck_zeroIterations hz
  | false => simpa [FootprintLegal] using startCheck_iterations hz

end Sys2Proof.Machine
end

section
/-!
Command words (30_encoding.md R61 to R63): the decoder takes the words of the encoder and no other.
-/

namespace Sys2Proof.Machine

theorem opField_toNat (w : Word) : (opField w).toNat = w.toNat % 16 := by
  simp [opField, BitVec.extractLsb'_toNat]

theorem rsvField_toNat (w : Word) : (rsvField w).toNat = w.toNat / 16 := by
  simp only [rsvField, BitVec.extractLsb'_toNat, Nat.shiftRight_eq_div_pow]
  omega

/-- With RSV = 0 a word is the number in its field OP. -/
theorem toNat_eq_opField {w : Word} (h : rsvField w = 0) : w.toNat = (opField w).toNat := by
  have hrsv : w.toNat / 16 = 0 := by rw [← rsvField_toNat, h]; rfl
  rw [opField_toNat]
  omega

theorem opcode_eq_some {op : Nat} {i : Instr} (h : opcode op = some i) : op = (encode i).toNat := by
  unfold opcode at h
  split at h <;> cases h <;> rfl

/-- What the decoder takes: RSV = 0 and an OP of the opcode map. -/
theorem decode_eq_ok {w : Word} {i : Instr} (h : decode w = .ok i) :
    rsvField w = 0 ∧ opcode (opField w).toNat = some i := by
  unfold decode at h
  split at h
  · cases h
  · rename_i hrsv
    split at h
    · rename_i j hop
      cases h
      exact ⟨not_not.mp hrsv, hop⟩
    · cases h

theorem decode_eq_ok_iff (w : Word) (i : Instr) : decode w = .ok i ↔ w = encode i := by
  constructor
  · intro h
    obtain ⟨hrsv, hop⟩ := decode_eq_ok h
    exact BitVec.eq_of_toNat_eq ((toNat_eq_opField hrsv).trans (opcode_eq_some hop))
  · rintro rfl
    exact decode_encode i

theorem decodeTableWord_encode (nbits : Nat) (i : Instr) : decodeTableWord nbits (encode i).toNat = some i := by
  simp only [decodeTableWord, if_pos (encode i).isLt, BitVec.ofNat_toNat, BitVec.setWidth_eq, decode_encode]

/-- Settles O1: no command has a field, so none needs its well-formedness. -/
theorem encodeThenDecodeGivesTheCommand : Obligations.EncodeThenDecodeGivesTheCommand :=
  fun i _ => decode_encode i

/-- Settles O2: `decode_eq_ok_iff`, the words of the encoder written out. -/
theorem decodeAcceptsExactlyTheCommandWords : Obligations.DecodeAcceptsExactlyTheCommandWords := by
  intro w i
  rw [decode_eq_ok_iff]
  cases i <;> simp [encode]

/-- Settles O3: the six words are those of the encoder, and the other three are rejected. -/
theorem writtenOutWordsDecode : Obligations.WrittenOutWordsDecode :=
  ⟨decodeTableWord_encode 32 .prerot, decodeTableWord_encode 32 .postrot, decodeTableWord_encode 32 .bfly3,
    decodeTableWord_encode 32 .bfly4m1, decodeTableWord_encode 32 .bfly4, decodeTableWord_encode 32 .bfly5,
    rfl, rfl, rfl⟩

end Sys2Proof.Machine
end

section
/-!
A host program's moves and runs (30_encoding.md R66 to R68): what one statement does, that a run is the machine's run on
the recorded turns, and what each pseudo-statement comes to.
-/

namespace Sys2Proof.Machine

/-! ## Where the host goes on -/

section
variable {prog : List Stmt} {k : Nat}

theorem nextStmt_of_ne_poll {st : Stmt} (v : Word) (hst : prog[k]? = some st)
    (hpoll : ∀ g mask value target, st ≠ .poll g mask value target) : nextStmt prog k v = k + 1 := by
  unfold nextStmt
  split
  · rename_i g mask value target hp
    exact absurd (Option.some.inj (hst.symm.trans hp)) (hpoll g mask value target)
  · rfl

theorem nextStmt_poll {g : Reg} {mask value : Word} {target : String} (v : Word)
    (hst : prog[k]? = some (.poll g mask value target)) :
    nextStmt prog k v = if v &&& mask = value then k + 1 else labelAt target k prog := by
  simp only [nextStmt, hst, ite_not]

/-- A label that stands once is found, before the POLL or after it. -/
theorem labelAt_unique {name : String} {j : Nat} (hj : prog[j]? = some (.label name))
    (hunique : ∀ j', prog[j']? = some (.label name) → j' = j) : labelAt name k prog = j := by
  unfold labelAt
  split
  · rename_i j' hlast
    have hplace := (lastLabel_spec name (prog.take (k + 1))).1 j' hlast
    rw [List.getElem?_take] at hplace
    split at hplace
    · exact hunique j' hplace
    · cases hplace
  · have hex : ∃ st ∈ prog, (st == Stmt.label name) = true := ⟨_, List.mem_of_getElem? hj, by simp⟩
    have hlt := List.findIdx_lt_length_of_exists hex
    have hat : prog[prog.findIdx fun st => st == .label name] = .label name := by
      simpa using List.findIdx_getElem (w := hlt)
    exact hunique _ (by rw [List.getElem?_eq_getElem hlt, hat])

/-- A label right before its POLL is the one that POLL takes, whatever others of its name there are (log entry 22). -/
theorem labelAt_before_poll (before after : List Stmt) (name : String) (poll : Stmt)
    (hpoll : poll ≠ .label name) :
    labelAt name (before.length + 1) (before ++ [.label name, poll] ++ after) = before.length := by
  have htake : (before ++ [.label name, poll] ++ after).take (before.length + 1 + 1) =
      before ++ [.label name, poll] := List.take_left' (by simp)
  have hlast : lastLabel name [.label name, poll] = some 0 := by simp [lastLabel, hpoll]
  simp only [labelAt, htake, lastLabel_append, hlast, Nat.add_zero]

end

/-! ## One move of the host -/

section
variable {prog : List Stmt} {r : HostRun}

theorem hostMove_label {name : String} (hst : prog[r.pos]? = some (.label name)) :
    r.hostMove prog = .next { r with pos := r.pos + 1 } := by
  simp only [HostRun.hostMove, hst, stmtListed]

theorem hostMove_over (hst : prog[r.pos]? = none) : r.hostMove prog = .next r := by
  simp only [HostRun.hostMove, hst]

/-- A statement that lists a line takes the turn of that line's access. -/
theorem hostMove_takeTurn {st : Stmt} {e : Listed} (hst : prog[r.pos]? = some st) (hline : stmtListed 0 st = some e) :
    r.hostMove prog = r.takeTurn (.host (listedAccess r.machine.config e)) fun s =>
      (nextStmt prog r.pos (s.readData.setWidth 32), (stmtListed s.readData st).toList) := by
  simp only [HostRun.hostMove, hst, hline]

/-- A statement whose access `x` the machine takes. -/
theorem hostMove_access {st : Stmt} {e : Listed} {x : Access} {t : State} (hst : prog[r.pos]? = some st)
    (hline : stmtListed 0 st = some e) (hx : listedAccess r.machine.config e = x)
    (hstep : step { r.machine with turns := [.host x] } = .next t) :
    r.hostMove prog = .next
      { machine := t, pos := nextStmt prog r.pos (t.readData.setWidth 32), turns := r.turns ++ [.host x],
        listed := r.listed ++ (stmtListed t.readData st).toList } := by
  simp only [hostMove_takeTurn hst hline, HostRun.takeTurn, hx, hstep]

/-- `hostMove_access` for the statements that go on at the next one. -/
theorem hostMove_straight {st : Stmt} {e : Listed} {x : Access} {t : State} (hst : prog[r.pos]? = some st)
    (hpoll : ∀ g mask value target, st ≠ .poll g mask value target)
    (hline : stmtListed 0 st = some e) (hx : listedAccess r.machine.config e = x)
    (hstep : step { r.machine with turns := [.host x] } = .next t) :
    r.hostMove prog = .next
      { machine := t, pos := r.pos + 1, turns := r.turns ++ [.host x],
        listed := r.listed ++ (stmtListed t.readData st).toList } := by
  rw [hostMove_access hst hline hx hstep, nextStmt_of_ne_poll _ hst hpoll]

theorem hostMove_poll {g : Reg} {mask value : Word} {target : String} {t : State}
    (hst : prog[r.pos]? = some (.poll g mask value target))
    (hstep : step { r.machine with turns := [.host (.read 4 (regAddr r.machine.config g))] } = .next t) :
    r.hostMove prog = .next
      { machine := t
        pos := if t.readData.setWidth 32 &&& mask = value then r.pos + 1 else labelAt target r.pos prog
        turns := r.turns ++ [.host (.read 4 (regAddr r.machine.config g))]
        listed := r.listed ++ [{ direction := .read, width := 4, offset := regOffset g, value := t.readData }] } := by
  rw [hostMove_access hst rfl rfl hstep, nextStmt_poll _ hst]
  rfl

end

/-- Settles O58: each form by `hostMove_straight` or `hostMove_poll`, the label clauses by `hostMove_label` and
`labelAt_unique`. -/
theorem hostStatementsPerformTheirAccesses : Obligations.HostStatementsPerformTheirAccesses := by
  intro prog r
  refine ⟨fun g v hst t hstep => ?wr, fun g hst t hstep => ?rd, fun a v hst t hstep => ?wrf32,
    fun a v hst t hstep => ?wrf64, fun a hst t hstep => ?rdf32, fun g mask value target hst t hstep => ?poll,
    fun name hst => hostMove_label hst, fun name k j hj hunique => labelAt_unique hj hunique⟩
  case poll => exact hostMove_poll hst hstep
  all_goals exact hostMove_straight hst (by simp) rfl rfl hstep

/-! ## A run -/

theorem core_run_succ {s t : State} (k : Nat) (h : step s = .next t) :
    Host.Core.run Sys2Proof.core (k + 1) s = Host.Core.run Sys2Proof.core k t := by
  have hcore : Sys2Proof.core.step s = .next t := h
  simp only [Host.Core.run, hcore]

/-- The host's access in a turn. -/
def hostAccess? : Turn → Option Access
  | .host x => some x
  | .engine => none
  | .powerOn => none

/-- The access of a statement's line does not depend on what its read returned. -/
theorem listedAccess_returned (c : Config) {st : Stmt} {e : Listed} (v : BitVec 64)
    (hline : stmtListed 0 st = some e) :
    (stmtListed v st).toList.map (listedAccess c) = [listedAccess c e] := by
  cases st <;> cases hline <;> rfl

section
variable {prog : List Stmt} {r r' : HostRun}

/-- From `r` to `r'` the machine takes the turns `ts`, and the run records them and lists their host accesses. -/
structure RunsAlong (r : HostRun) (ts : List Turn) (r' : HostRun) : Prop where
  steps : Host.Core.run Sys2Proof.core ts.length { r.machine with turns := ts } = .next r'.machine
  turns : r'.turns = r.turns ++ ts
  listed : r'.listed.map (listedAccess r.machine.config) =
    r.listed.map (listedAccess r.machine.config) ++ ts.filterMap hostAccess?

theorem RunsAlong.stay (hturns : r.machine.turns = []) (pos : Nat) : RunsAlong r [] { r with pos := pos } where
  steps := by
    change Host.Outcome.next ({ r.machine with turns := [] } : State) = .next r.machine
    rw [← hturns]
  turns := (List.append_nil _).symm
  listed := (List.append_nil _).symm

/-- One step in front of a run: the step leaves the later turns as they are. -/
theorem RunsAlong.cons {t : Turn} {ts : List Turn} {mid : HostRun}
    (hstep : step { r.machine with turns := [t] } = .next mid.machine) (hturns : mid.turns = r.turns ++ [t])
    (hlisted : mid.listed.map (listedAccess r.machine.config) =
      r.listed.map (listedAccess r.machine.config) ++ [t].filterMap hostAccess?)
    (h : RunsAlong mid ts r') : RunsAlong r (t :: ts) r' where
  steps := by
    have hfirst : step { r.machine with turns := t :: ts } = .next { mid.machine with turns := ts } := by
      rw [step_cons, hstep]; rfl
    exact (core_run_succ ts.length hfirst).trans h.steps
  turns := by rw [h.turns, hturns, List.append_assoc]; rfl
  listed := by
    have hconfig : mid.machine.config = r.machine.config :=
      (everyStepTakesOneTurnAndKeepsTheParameters _ _ hstep).1
    have hrest := h.listed
    rw [hconfig, hlisted, List.append_assoc] at hrest
    rw [hrest, ← List.filterMap_append]
    rfl

/-- Everything a move can do: it takes no step, or one step, whose turn it records and whose host access it lists. -/
theorem move_next_cases {a : Agent} (h : r.move prog a = .next r') :
    (∃ pos, r' = { r with pos := pos }) ∨
    (∃ t, step { r.machine with turns := [t] } = .next r'.machine ∧ r'.turns = r.turns ++ [t] ∧
      r'.listed.map (listedAccess r.machine.config) =
        r.listed.map (listedAccess r.machine.config) ++ [t].filterMap hostAccess?) := by
  cases a with
  | engine =>
    obtain ⟨s, hstep, hmove⟩ | ⟨e, _, hmove⟩ | ⟨e, _, hmove⟩ := takeTurn_cases .engine (fun _ => (r.pos, [])) r
    all_goals cases hmove.symm.trans h
    exact .inr ⟨.engine, hstep, rfl, by simp [hostAccess?]⟩
  | host =>
    change r.hostMove prog = .next r' at h
    cases hst : prog[r.pos]? with
    | none =>
      rw [hostMove_over hst] at h
      cases h
      exact .inl ⟨r.pos, rfl⟩
    | some st =>
      cases hline : stmtListed 0 st with
      | none =>
        simp only [HostRun.hostMove, hst, hline] at h
        cases h
        exact .inl ⟨r.pos + 1, rfl⟩
      | some e =>
        rw [hostMove_takeTurn hst hline] at h
        obtain ⟨s, hstep, hmove⟩ | ⟨e, _, hmove⟩ | ⟨e, _, hmove⟩ := takeTurn_cases _ _ r
        all_goals cases hmove.symm.trans h
        refine .inr ⟨_, hstep, rfl, ?_⟩
        rw [List.map_append, listedAccess_returned _ _ hline]
        rfl

theorem step_turns_nil {s t : State} {turn : Turn} (h : step { s with turns := [turn] } = .next t) : t.turns = [] :=
  (everyStepTakesOneTurnAndKeepsTheParameters _ _ h).2

end

theorem run_runsAlong {prog : List Stmt} {r' : HostRun} (schedule : List Agent) :
    ∀ r : HostRun, r.machine.turns = [] → r.run prog schedule = .next r' → ∃ ts, RunsAlong r ts r' := by
  induction schedule with
  | nil =>
    intro r hturns h
    cases h
    exact ⟨[], RunsAlong.stay hturns r'.pos⟩
  | cons a rest ih =>
    intro r hturns h
    cases hmove : r.move prog a with
    | fault e => simp only [HostRun.run, hmove, reduceCtorEq] at h
    | refused e => simp only [HostRun.run, hmove, reduceCtorEq] at h
    | next mid =>
      rw [run_cons prog a rest r mid hmove] at h
      obtain ⟨pos, rfl⟩ | ⟨t, hstep, hrecorded, hlisted⟩ := move_next_cases hmove
      · obtain ⟨ts, along⟩ := ih { r with pos := pos } hturns h
        exact ⟨ts, along.steps, along.turns, along.listed⟩
      · obtain ⟨ts, along⟩ := ih mid (step_turns_nil hstep) h
        exact ⟨t :: ts, RunsAlong.cons hstep hrecorded hlisted along⟩

/-- Settles O59: `run_runsAlong` from the program's start, where nothing is recorded. -/
theorem hostRunIsItsAccessesInTurn : Obligations.HostRunIsItsAccessesInTurn := by
  intro prog schedule s r hturns h
  obtain ⟨ts, steps, turns, listed⟩ := run_runsAlong schedule (HostRun.start s) hturns h
  have hts : r.turns = ts := turns
  rw [hts]
  exact ⟨steps, listed⟩

end Sys2Proof.Machine
end

section
/-!
The pseudo-statements run as programs (30_encoding.md R67): register writes followed by a start, CLEAR, and WAIT.
-/

namespace Sys2Proof.Machine

/-! ## Programs of register writes -/

/-- The parameter and address registers with one of them written. -/
def Params.set (P : Params) (v : Word) : Reg → Params
  | .n2 => { P with n2 := v }
  | .n4 => { P with n4 := v }
  | .n => { P with n := v }
  | .m => { P with m := v }
  | .mm => { P with mm := v }
  | .fstride => { P with fstride := v }
  | .srcAddr => { P with srcAddr := v }
  | .bufAddr => { P with bufAddr := v }
  | .trigAddr => { P with trigAddr := v }
  | .twAddr => { P with twAddr := v }
  | _ => P

/-- The ten registers of `Params`. -/
def parameterRegs : List Reg := [.n2, .n4, .n, .m, .mm, .fstride, .srcAddr, .bufAddr, .trigAddr, .twAddr]

theorem writeReg_eq_set {g : Reg} (v : Word) (s : State) (hg : g ∈ parameterRegs) :
    writeReg g v s = .moved { s with params := s.params.set v g } := by
  fin_cases hg <;> rfl

/-- The statement that writes a value to a register. -/
def writeStmt (w : Reg × Word) : Stmt := .wr w.1 w.2

/-- The line that `writeStmt` lists. -/
def writeLine (w : Reg × Word) : Listed :=
  { direction := .write, width := 4, offset := regOffset w.1, value := w.2.setWidth 64 }

/-- The parameter and address registers after the writes, the first one first. -/
def writeParams (P : Params) (ws : List (Reg × Word)) : Params := ws.foldl (fun Q w => Q.set w.2 w.1) P

theorem setWidth_word (v : Word) : (v.setWidth 64).setWidth 32 = v := by
  simp [BitVec.setWidth_setWidth_of_le]

section
variable {prog : List Stmt} {r : HostRun} {t : State}

/-- A register write as a statement: where the host stands after it, and what it lists. -/
theorem hostMove_wr {g : Reg} {v : Word} (hst : prog[r.pos]? = some (.wr g v))
    (hstep : step { r.machine with turns := [.host (.write 4 (regAddr r.machine.config g) (v.setWidth 64))] } =
      .next t) :
    ∃ r', r.move prog .host = .next r' ∧ r'.pos = r.pos + 1 ∧ r'.listed = r.listed ++ [writeLine (g, v)] ∧
      r'.machine = t :=
  ⟨_, hostMove_straight hst (by simp) rfl rfl hstep, rfl, rfl, rfl⟩

/-- A register write other than a start, on the machine with no other turn. -/
theorem step_wr {s : State} {g : Reg} {v : Word}
    (hw : writeReg g v { s with turns := [], mover := .host } = .moved t) :
    step { s with turns := [.host (.write 4 (regAddr s.config g) (v.setWidth 64))] } = .next t :=
  step_writeReg g rfl ((setWidth_word v).symm ▸ hw)

/-- A command's word written to CMD starts the command. -/
theorem step_wr_cmd (s : State) (i : Instr) :
    step { s with turns := [.host (.write 4 (regAddr s.config .cmd) ((encode i).setWidth 64))] } =
      exec i { s with turns := [], mover := .host } :=
  stepRunsTheDecodedCommand _ [] _ i rfl ((setWidth_word (encode i)).symm ▸ decode_encode i)

end

/-- Parameter writes and then a start, as the rest of any program: the command runs in the state with only these
registers written, and each write is listed. -/
theorem run_writes_start (prog : List Stmt) (i : Instr) (ws : List (Reg × Word))
    (hregs : ∀ w ∈ ws, w.1 ∈ parameterRegs) :
    ∀ r : HostRun, prog.drop r.pos = ws.map writeStmt ++ [.wr .cmd (encode i)] →
      ∃ r', r.run prog (List.replicate (ws.length + 1) .host) = .next r' ∧ r'.pos = r.pos + (ws.length + 1) ∧
        r'.listed = r.listed ++ (ws.map writeLine ++ [writeLine (.cmd, encode i)]) ∧
        exec i { r.machine with turns := [], mover := .host, params := writeParams r.machine.params ws } =
          .next r'.machine := by
  induction ws with
  | nil =>
    intro r hprog
    have hst : prog[r.pos]? = some (.wr .cmd (encode i)) := by
      rw [← List.head?_drop, hprog]; rfl
    have hexec := exec_host i { r.machine with turns := [], mover := .host } rfl
    obtain ⟨r', hmove, hpos, hlisted, hmachine⟩ := hostMove_wr hst ((step_wr_cmd r.machine i).trans hexec)
    exact ⟨r', run_cons prog .host [] r r' hmove, hpos, hlisted, hmachine ▸ hexec⟩
  | cons w rest ih =>
    intro r hprog
    have hst : prog[r.pos]? = some (.wr w.1 w.2) := by
      rw [← List.head?_drop, hprog]; rfl
    obtain ⟨mid, hmove, hpos, hlisted, hmachine⟩ := hostMove_wr hst
      (step_wr (writeReg_eq_set w.2 { r.machine with turns := [], mover := .host } (hregs w List.mem_cons_self)))
    have hdrop : prog.drop mid.pos = rest.map writeStmt ++ [.wr .cmd (encode i)] := by
      rw [hpos, ← List.tail_drop, hprog]; rfl
    obtain ⟨r', hrun, hpos', hlisted', hexec⟩ := ih (fun w' hw' => hregs w' (List.mem_cons_of_mem w hw')) mid hdrop
    refine ⟨r', (run_cons prog .host _ r mid hmove).trans hrun, ?_, ?_, ?_⟩
    · rw [hpos', hpos, List.length_cons]; omega
    · rw [hlisted', hlisted, List.append_assoc]; rfl
    · rw [← hexec, hmachine]; rfl

/-- `run_writes_start` for a whole program. -/
theorem start_run_writes_start {s : State} (hturns : s.turns = []) (i : Instr) (ws : List (Reg × Word))
    (hregs : ∀ w ∈ ws, w.1 ∈ parameterRegs) :
    ∃ r, (HostRun.start s).run (ws.map writeStmt ++ [.wr .cmd (encode i)])
        (List.replicate (ws.length + 1) .host) = .next r ∧ r.pos = ws.length + 1 ∧
      r.listed = ws.map writeLine ++ [writeLine (.cmd, encode i)] ∧
      exec i { s with mover := .host, params := writeParams s.params ws } = .next r.machine := by
  obtain ⟨r, hrun, hpos, hlisted, hexec⟩ := run_writes_start _ i ws hregs (HostRun.start s) rfl
  refine ⟨r, hrun, hpos.trans (Nat.zero_add _), hlisted, ?_⟩
  rw [← hexec, ← hturns]
  rfl

/-! ## CLEAR -/

/-- A 1 written to DONE, ERR and DROP clears all three. -/
theorem writeOneToClear_all (st : Status) :
    st.writeOneToClear 0xE = { done := false, err := false, drop := false } := by
  simp [Status.writeOneToClear]

theorem start_run_clear {s : State} (hturns : s.turns = []) :
    ∃ r, (HostRun.start s).run (expand .clear) [.host] = .next r ∧ r.pos = 1 ∧
      r.listed = [writeLine (.status, 0xE)] ∧
      r.machine = { s with mover := .host, status := { done := false, err := false, drop := false } } := by
  have hw : writeReg .status 0xE { s with turns := [], mover := .host } =
      .moved { s with mover := .host, status := { done := false, err := false, drop := false } } := by
    rw [← writeOneToClear_all s.status, ← hturns]; rfl
  obtain ⟨r, hmove, hpos, hlisted, hmachine⟩ :=
    hostMove_wr (prog := expand .clear) (r := HostRun.start s) rfl (step_wr hw)
  exact ⟨r, run_cons _ .host [] (HostRun.start s) r hmove, hpos, hlisted, hmachine⟩

/-! ## WAIT -/

theorem and_one_eq_zero_iff (v : Word) : v &&& 1 = 0 ↔ v.getLsbD 0 = false := by
  rw [← BitVec.toNat_inj, BitVec.toNat_and, BitVec.getLsbD, Nat.testBit_zero]
  simp [Nat.and_one_is_mod]

/-- The masked value of a WAIT's POLL is 0 exactly while the engine is idle. -/
theorem statusWord_and_one (s : State) : s.statusWord &&& 1 = 0 ↔ s.busy = false := by
  rw [and_one_eq_zero_iff, statusWord_busy]

theorem step_statusRead (s : State) :
    step { s with turns := [.host (.read 4 (regAddr s.config .status))] } =
      .next { s with turns := [], mover := .host, readData := (readReg .status s).setWidth 64 } :=
  step_registerRead (regOffset_lt .status) (regOffset_aligned .status) rfl

section
variable {before after : List Stmt} {r : HostRun}

theorem hostMove_wait_label (hpos : r.pos = before.length) :
    r.hostMove (before ++ expand .wait ++ after) = .next { r with pos := before.length + 1 } := by
  rw [hostMove_label (name := "w") (by simp [hpos, expand]), hpos]

theorem hostMove_wait_poll (hpos : r.pos = before.length + 1) :
    ∃ t, r.hostMove (before ++ expand .wait ++ after) = .next t ∧
      t.pos = (if r.machine.busy then before.length else before.length + 2) ∧
      t.machine = { r.machine with turns := [], mover := .host, readData := (readReg .status r.machine).setWidth 64 } ∧
      t.listed = r.listed ++
        [{ direction := .read, width := 4, offset := regOffset .status,
           value := (readReg .status r.machine).setWidth 64 }] := by
  have hst : (before ++ expand .wait ++ after)[r.pos]? = some (.poll .status 0x1 0x0 "w") := by
    simp [hpos, expand]
  have hlabel : labelAt "w" r.pos (before ++ expand .wait ++ after) = before.length := by
    rw [hpos]; exact labelAt_before_poll before after "w" _ (by simp)
  refine ⟨_, hostMove_poll hst (step_statusRead r.machine), ?_, rfl, rfl⟩
  simp only [setWidth_word, hlabel, readReg, statusWord_and_one]
  cases r.machine.busy <;> simp [hpos]

end

/-- Settles O60: a command's pseudo-statement is parameter writes and a start, `start_run_writes_start`; then CLEAR and
WAIT. -/
theorem pseudoStatementsSetTheirRegistersAndStart : Obligations.PseudoStatementsSetTheirRegistersAndStart := by
  intro s hturns
  have hstart := fun i ws hregs => start_run_writes_start hturns i ws hregs
  refine ⟨fun _ => hstart .prerot [] (by simp), fun _ => hstart .postrot [] (by simp),
    fun _ => hstart .bfly3 [] (by simp), fun _ => hstart .bfly4m1 [] (by simp), fun _ => hstart .bfly4 [] (by simp),
    fun _ => hstart .bfly5 [] (by simp), fun a b src buf tr _ => ?prerot, fun a b buf tr _ => ?postrot,
    fun n mm fs buf tw _ => ?bfly3, fun n buf _ => ?bfly4m1, fun n m mm fs buf tw _ => ?bfly4,
    fun n mm fs buf tw _ => ?bfly5, start_run_clear hturns,
    fun before after r => ⟨hostMove_wait_label, hostMove_wait_poll⟩⟩
  case prerot =>
    exact hstart .prerot [(.n2, a), (.n4, b), (.srcAddr, src), (.bufAddr, buf), (.trigAddr, tr)]
      (by simp [parameterRegs])
  case postrot =>
    exact hstart .postrot [(.n2, a), (.n4, b), (.bufAddr, buf), (.trigAddr, tr)] (by simp [parameterRegs])
  case bfly3 =>
    exact hstart .bfly3 [(.n, n), (.mm, mm), (.fstride, fs), (.bufAddr, buf), (.twAddr, tw)] (by simp [parameterRegs])
  case bfly4m1 =>
    exact hstart .bfly4m1 [(.n, n), (.bufAddr, buf)] (by simp [parameterRegs])
  case bfly4 =>
    exact hstart .bfly4 [(.n, n), (.m, m), (.mm, mm), (.fstride, fs), (.bufAddr, buf), (.twAddr, tw)]
      (by simp [parameterRegs])
  case bfly5 =>
    exact hstart .bfly5 [(.n, n), (.mm, mm), (.fstride, fs), (.bufAddr, buf), (.twAddr, tw)] (by simp [parameterRegs])

end Sys2Proof.Machine
end

section
/-!
Binary32 patterns as exact values (40_numerics.md R69): a pattern is its sign and its magnitude, a finite one is a
number of smallest subnormals, and the values of the patterns lie on ever coarser grids.
-/

namespace Sys2Proof.Machine

/-! ## Sign and magnitude -/

/-- A pattern without its sign bit. -/
def magnitude32 (x : F32) : Nat := x.toNat % 2 ^ 31

/-- The pattern with a sign and a magnitude, as `round32` builds it. -/
def pattern32 (neg : Bool) (g : Nat) : F32 := BitVec.ofNat 32 ((if neg then 2 ^ 31 else 0) + g)

theorem toNat_sign_magnitude (x : F32) : x.toNat = (if x.getLsbD 31 then 2 ^ 31 else 0) + magnitude32 x := by
  have hx := x.isLt
  rw [magnitude32, BitVec.getLsbD, Nat.testBit_eq_decide_div_mod_eq]
  split <;> rename_i h <;> simp only [decide_eq_true_eq] at h <;> omega

theorem eq_of_sign_magnitude {x y : F32} (hsign : x.getLsbD 31 = y.getLsbD 31)
    (hmag : magnitude32 x = magnitude32 y) : x = y :=
  BitVec.eq_of_toNat_eq (by rw [toNat_sign_magnitude, toNat_sign_magnitude y, hsign, hmag])

theorem toNat_pattern32 (neg : Bool) {g : Nat} (hg : g < 2 ^ 31) :
    (pattern32 neg g).toNat = (if neg then 2 ^ 31 else 0) + g := by
  rw [pattern32, BitVec.toNat_ofNat]
  exact Nat.mod_eq_of_lt (by split <;> omega)

theorem magnitude32_pattern32 (neg : Bool) {g : Nat} (hg : g < 2 ^ 31) : magnitude32 (pattern32 neg g) = g := by
  rw [magnitude32, toNat_pattern32 neg hg]
  split <;> omega

theorem sign_pattern32 (neg : Bool) {g : Nat} (hg : g < 2 ^ 31) : (pattern32 neg g).getLsbD 31 = neg := by
  rw [BitVec.getLsbD, toNat_pattern32 neg hg, Nat.testBit_eq_decide_div_mod_eq]
  cases neg <;> simp <;> omega

theorem lsb_pattern32 (neg : Bool) {g : Nat} (hg : g < 2 ^ 31) :
    (pattern32 neg g).getLsbD 0 = decide (g % 2 = 1) := by
  rw [BitVec.getLsbD, toNat_pattern32 neg hg, Nat.testBit_zero]
  cases neg <;> simp [Nat.add_mod]

/-- The fields that `unpack32` reads are those of the sign and the magnitude. -/
theorem unpack32_eq_fields (x : F32) :
    unpack32 x =
      unpackFields (x.getLsbD 31) (magnitude32 x / 2 ^ 23) (magnitude32 x % 2 ^ 23) 255 23 (-149) := by
  have hexp : (x.extractLsb' 23 8).toNat = magnitude32 x / 2 ^ 23 := by
    rw [BitVec.extractLsb'_toNat, Nat.shiftRight_eq_div_pow, magnitude32]
    omega
  have hfrac : (x.extractLsb' 0 23).toNat = magnitude32 x % 2 ^ 23 := by
    rw [BitVec.extractLsb'_toNat, Nat.shiftRight_zero, magnitude32]
    omega
  rw [unpack32, hexp, hfrac]

/-! ## Finite patterns -/

/-- The significand of a finite magnitude: the fraction, with the leading bit of a normal one. -/
def significand32 (g : Nat) : Nat := if g < 2 ^ 23 then g else 2 ^ 23 + g % 2 ^ 23

/-- How many binades a finite magnitude stands above the subnormals. -/
def binade32 (g : Nat) : Nat := g / 2 ^ 23 - 1

/-- A finite magnitude as a number of smallest subnormals, `2^-149`. -/
def subnormalUnits (g : Nat) : Nat := significand32 g * 2 ^ binade32 g

theorem unpack32_of_magnitude_lt {x : F32} (h : magnitude32 x < 0x7F800000) :
    unpack32 x =
      .fin (x.getLsbD 31) (significand32 (magnitude32 x)) ((binade32 (magnitude32 x) : Int) - 149) := by
  rw [unpack32_eq_fields, unpackFields, if_neg (by omega), significand32, binade32]
  by_cases hsub : magnitude32 x < 2 ^ 23
  · rw [if_pos (by omega), if_pos hsub, Nat.mod_eq_of_lt hsub, Nat.div_eq_of_lt hsub]
    rfl
  · rw [if_neg (by omega), if_neg hsub]
    congr 1
    omega

theorem unpack32_of_le_magnitude {x : F32} (h : 0x7F800000 ≤ magnitude32 x) :
    unpack32 x = if magnitude32 x = 0x7F800000 then .inf (x.getLsbD 31) else .nan := by
  have hlt : magnitude32 x < 2 ^ 31 := Nat.mod_lt _ (by decide)
  rw [unpack32_eq_fields, unpackFields, if_pos (by omega)]
  exact if_congr (by omega) rfl rfl

theorem magnitude_lt_of_isFinite32 {x : F32} (h : isFinite32 x) : magnitude32 x < 0x7F800000 := by
  obtain ⟨neg, m, e, hx⟩ := h
  by_contra hge
  rw [unpack32_of_le_magnitude (by omega)] at hx
  split at hx <;> cases hx

theorem isFinite32_of_magnitude_lt {x : F32} (h : magnitude32 x < 0x7F800000) : isFinite32 x :=
  ⟨_, _, _, unpack32_of_magnitude_lt h⟩

/-- The sign of a finite pattern is its bit 31, and only a zero has no significand. -/
theorem sign_of_unpack32_fin {x : F32} {neg : Bool} {m : Nat} {e : Int} (h : unpack32 x = .fin neg m e) :
    x.getLsbD 31 = neg ∧ (m = 0 → magnitude32 x = 0) := by
  rw [unpack32_of_magnitude_lt (magnitude_lt_of_isFinite32 ⟨_, _, _, h⟩)] at h
  cases h
  refine ⟨rfl, fun hzero => ?_⟩
  rw [significand32] at hzero
  split at hzero <;> omega

/-- An infinity is the pattern that `inf32` names. -/
theorem eq_inf32_of_unpack32_inf {x : F32} {neg : Bool} (h : unpack32 x = .inf neg) : x = inf32 neg := by
  by_cases hfin : magnitude32 x < 0x7F800000
  · rw [unpack32_of_magnitude_lt hfin] at h
    cases h
  · rw [unpack32_of_le_magnitude (by omega)] at h
    split at h <;> cases h
    next hmag => exact eq_of_sign_magnitude (by cases x.getLsbD 31 <;> rfl) (by rw [hmag]; cases x.getLsbD 31 <;> rfl)

theorem sign_inf32 (neg : Bool) : (inf32 neg).getLsbD 31 = neg := by cases neg <;> rfl

/-! ## Exact values -/

/-- The sign as a factor. -/
def signFactor (neg : Bool) : ℚ := if neg then -1 else 1

theorem rat_fin (neg : Bool) (m : Nat) (e : Int) :
    (FloatVal.fin neg m e).rat = signFactor neg * (m * (2 : ℚ) ^ e) := mul_assoc _ _ _

theorem signFactor_mul_self (neg : Bool) : signFactor neg * signFactor neg = 1 := by
  cases neg <;> norm_num [signFactor]

theorem abs_signFactor (neg : Bool) : |signFactor neg| = 1 := by
  cases neg <;> norm_num [signFactor]

theorem signFactor_ne_zero (neg : Bool) : signFactor neg ≠ 0 := by
  cases neg <;> norm_num [signFactor]

theorem signFactor_bne (na nb : Bool) : signFactor (na != nb) = signFactor na * signFactor nb := by
  cases na <;> cases nb <;> norm_num [signFactor]

theorem signFactor_mul_lt_zero (neg : Bool) {r : ℚ} (hr : 0 < r) : decide (signFactor neg * r < 0) = neg := by
  cases neg
  · simpa [signFactor] using hr.le
  · simpa [signFactor] using hr

theorem val32_of_unpack32 {x : F32} {neg : Bool} {m : Nat} {e : Int} (h : unpack32 x = .fin neg m e) :
    val32 x = signFactor neg * (m * (2 : ℚ) ^ e) := by
  rw [val32, h, rat_fin]

theorem val32_eq_zero_iff {x : F32} {neg : Bool} {m : Nat} {e : Int} (h : unpack32 x = .fin neg m e) :
    val32 x = 0 ↔ m = 0 := by
  rw [val32_of_unpack32 h]
  simp [signFactor_ne_zero, zpow_ne_zero]

theorem val32_of_isFinite32 {x : F32} (h : isFinite32 x) :
    val32 x = signFactor (x.getLsbD 31) * (subnormalUnits (magnitude32 x) * (2 : ℚ) ^ (-149 : Int)) := by
  rw [val32_of_unpack32 (unpack32_of_magnitude_lt (magnitude_lt_of_isFinite32 h)), sub_eq_add_neg,
    zpow_add₀ two_ne_zero, zpow_natCast, subnormalUnits]
  push_cast
  ring

/-! ## The grids of the binades -/

/-- `n` units of `2^k` smallest subnormals have the pattern `k * 2^23 + n`, also where `n` carries into the exponent. -/
theorem subnormalUnits_of_ulps {k n : Nat} (hn : n ≤ 2 ^ 24) (hk : k = 0 ∨ 2 ^ 23 ≤ n) :
    subnormalUnits (k * 2 ^ 23 + n) = n * 2 ^ k := by
  have hsig : significand32 (k * 2 ^ 23 + n) = if n = 2 ^ 24 then 2 ^ 23 else n := by
    rw [significand32]
    split <;> split <;> omega
  have hbin : binade32 (k * 2 ^ 23 + n) = if n = 2 ^ 24 then k + 1 else k := by
    rw [binade32]
    split <;> omega
  rw [subnormalUnits, hsig, hbin]
  by_cases hcarry : n = 2 ^ 24
  · rw [if_pos hcarry, if_pos hcarry, hcarry, pow_succ 2 k]
    omega
  · rw [if_neg hcarry, if_neg hcarry]

/-- Every finite value is a whole number of units of `2^k` smallest subnormals, or lies below the binades that have
that unit. -/
theorem subnormalUnits_on_grid_or_below (g k : Nat) :
    2 ^ k ∣ subnormalUnits g ∨ (0 < k ∧ subnormalUnits g < 2 ^ 23 * 2 ^ k) := by
  by_cases hk : k ≤ binade32 g
  · exact .inl (dvd_mul_of_dvd_right (pow_dvd_pow 2 hk) _)
  · refine .inr ⟨by omega, ?_⟩
    have hsig : significand32 g < 2 ^ 24 := by
      rw [significand32]
      split <;> omega
    calc subnormalUnits g < 2 ^ 24 * 2 ^ binade32 g := Nat.mul_lt_mul_of_pos_right hsig (by positivity)
      _ = 2 ^ 23 * 2 ^ (binade32 g + 1) := by ring
      _ ≤ 2 ^ 23 * 2 ^ k := Nat.mul_le_mul_left _ (Nat.pow_le_pow_right (by omega) (by omega))

end Sys2Proof.Machine
end

section
/-!
`round32` is roundTiesToEven (40_numerics.md R70): the number of units in the last place is rounded to nearest even, no
finite value lies nearer than a whole number of units, and the carry out of the largest binade is the overflow threshold.
-/

namespace Sys2Proof.Machine

/-! ## Rounding to a whole number -/

/-- `n` is `t` rounded to the nearest whole number, ties to even. -/
structure NearestEven (t : ℚ) (n : Nat) : Prop where
  near : |(n : ℚ) - t| ≤ 1 / 2
  even : |(n : ℚ) - t| = 1 / 2 → n % 2 = 0

/-- What is left under a half is dropped. -/
theorem NearestEven.down {n : Nat} {f : ℚ} (h0 : 0 ≤ f) (hf : f ≤ 1 / 2) (heven : f = 1 / 2 → n % 2 = 0) :
    NearestEven (n + f) n := by
  have hdist : |(n : ℚ) - (n + f)| = f := by rw [sub_add_cancel_left, abs_neg, abs_of_nonneg h0]
  exact ⟨hdist.trans_le hf, fun htie => heven (hdist.symm.trans htie)⟩

/-- What is left over a half counts as one more. -/
theorem NearestEven.up {n : Nat} {f : ℚ} (hf : 1 / 2 ≤ f) (h1 : f ≤ 1) (heven : f = 1 / 2 → (n + 1) % 2 = 0) :
    NearestEven (n + f) (n + 1) := by
  have hdist : |((n + 1 : Nat) : ℚ) - (n + f)| = 1 - f := by
    rw [Nat.cast_succ, add_sub_add_left_eq_sub, abs_of_nonneg (by linarith)]
  exact ⟨by linarith, fun htie => heven (by linarith)⟩

theorem shiftRightEven_nearestEven (m k : Nat) : NearestEven (m / 2 ^ k) (shiftRightEven m k) := by
  have hpos : (0 : ℚ) < 2 ^ k := by positivity
  have hsplit : (m : ℚ) / 2 ^ k = (m / 2 ^ k : Nat) + ((m % 2 ^ k : Nat) : ℚ) / 2 ^ k := by
    rw [div_eq_iff hpos.ne', add_mul, div_mul_cancel₀ _ hpos.ne']
    exact_mod_cast (Nat.div_add_mod' m (2 ^ k)).symm
  have hrest : ((m % 2 ^ k : Nat) : ℚ) / 2 ^ k < 1 := by
    rw [div_lt_one hpos]
    exact_mod_cast Nat.mod_lt m (by positivity)
  have hle : ((m % 2 ^ k : Nat) : ℚ) / 2 ^ k ≤ 1 / 2 ↔ 2 * (m % 2 ^ k) ≤ 2 ^ k := by
    rw [div_le_div_iff₀ hpos two_pos, one_mul, mul_comm]
    norm_cast
  have hge : 1 / 2 ≤ ((m % 2 ^ k : Nat) : ℚ) / 2 ^ k ↔ 2 ^ k ≤ 2 * (m % 2 ^ k) := by
    rw [div_le_div_iff₀ two_pos hpos, one_mul, mul_comm]
    norm_cast
  rw [hsplit, shiftRightEven]
  split
  next hup => exact .up (hge.mpr (by omega)) hrest.le fun htie => by have := hle.mp htie.le; omega
  next hdown =>
    exact .down (by positivity) (hle.mpr (by omega)) fun htie => by have := hge.mp htie.ge; omega

namespace NearestEven
variable {t : ℚ} {n N : Nat}

theorem of_eq (h : t = n) : NearestEven t n := by
  subst h
  constructor <;> norm_num

theorem le_of_lt (h : NearestEven t n) (ht : t < N) : n ≤ N := by
  have hnear := (abs_le.mp h.near).2
  have : (n : ℚ) < (N + 1 : Nat) := by push_cast; linarith
  exact Nat.lt_succ_iff.mp (Nat.cast_lt.mp this)

theorem ge_of_le (h : NearestEven t n) (ht : N ≤ t) : N ≤ n := by
  have hnear := (abs_le.mp h.near).1
  have : (N : ℚ) < (n + 1 : Nat) := by push_cast; linarith
  exact Nat.lt_succ_iff.mp (Nat.cast_lt.mp this)

/-- Below an even number it is exactly the lower half that rounds up to it. -/
theorem ge_iff_half_le (h : NearestEven t n) (hN : N % 2 = 0) : N ≤ n ↔ (N : ℚ) - 1 / 2 ≤ t := by
  obtain ⟨hlow, hhigh⟩ := abs_le.mp h.near
  constructor
  · intro hle
    have : (N : ℚ) ≤ n := Nat.cast_le.mpr hle
    linarith
  · intro hle
    by_contra hlt
    obtain hpred | hlt' : n + 1 = N ∨ n + 2 ≤ N := by omega
    · have hcast : (N : ℚ) = n + 1 := by rw [← hpred]; push_cast; rfl
      have htie : |(n : ℚ) - t| = 1 / 2 := by
        rw [abs_of_nonpos (by linarith)]
        linarith
      have := h.even htie
      omega
    · have hcast : (n : ℚ) + 2 ≤ N := by exact_mod_cast hlt'
      linarith

/-- No whole number is nearer, and another one as near means a tie. -/
theorem best_int (h : NearestEven t n) (z : ℤ) :
    |(n : ℚ) - t| ≤ |z - t| ∧ (|z - t| = |(n : ℚ) - t| → (z : ℚ) ≠ n → n % 2 = 0) := by
  by_cases hz : z = n
  · subst hz
    exact ⟨le_rfl, fun _ hne => absurd rfl hne⟩
  · have hapart : (1 : ℚ) ≤ |(z : ℚ) - n| := by
      exact_mod_cast Int.one_le_abs (sub_ne_zero.mpr hz)
    have htriangle : |(z : ℚ) - n| ≤ |z - t| + |(n : ℚ) - t| := by
      rw [abs_sub_comm (n : ℚ) t]
      exact abs_sub_le _ _ _
    have hnear := h.near
    exact ⟨by linarith, fun heq _ => h.even (by linarith)⟩

/-- No value is nearer that is whole or lies below a whole number under `t`. -/
theorem best (h : NearestEven t n) {w : ℚ} (hw : (∃ z : ℤ, w = z) ∨ (w < N ∧ (N : ℚ) ≤ t)) :
    |(n : ℚ) - t| ≤ |w - t| ∧ (|w - t| = |(n : ℚ) - t| → w ≠ n → n % 2 = 0) := by
  obtain ⟨z, rfl⟩ | ⟨hlt, hle⟩ := hw
  · exact h.best_int z
  · have hbest := (h.best_int N).1
    have hfar : |((N : ℤ) : ℚ) - t| < |w - t| := by
      rw [Int.cast_natCast, abs_of_nonpos (by linarith), abs_of_nonpos (by linarith)]
      linarith
    exact ⟨by linarith, fun heq => by linarith⟩

end NearestEven

/-! ## The unit in the last place -/

/-- `m * 2^e` in units in the last place. -/
def inUlps (m : Nat) (e : Int) : ℚ := m * (2 : ℚ) ^ (e - ulpExp m e)

theorem inUlps_mul_ulp (m : Nat) (e : Int) : inUlps m e * (2 : ℚ) ^ ulpExp m e = m * (2 : ℚ) ^ e := by
  rw [inUlps, mul_assoc, ← zpow_add₀ two_ne_zero, sub_add_cancel]

theorem roundToUlp_nearestEven (m : Nat) (e : Int) : NearestEven (inUlps m e) (roundToUlp m e) := by
  simp only [inUlps, roundToUlp]
  split
  next h =>
    refine .of_eq ?_
    rw [Nat.cast_mul, Nat.cast_pow, ← zpow_natCast, Int.toNat_of_nonneg (by omega)]
    rfl
  next h =>
    have hexp : e - ulpExp m e = -((ulpExp m e - e).toNat : Int) := by omega
    rw [hexp, zpow_neg, zpow_natCast, ← div_eq_mul_inv]
    exact shiftRightEven_nearestEven m _

theorem ulpExp_ge (m : Nat) (e : Int) : -149 ≤ ulpExp m e := le_max_right _ _

/-- A value has fewer than 2^24 units in the last place. -/
theorem inUlps_lt (m : Nat) (e : Int) : inUlps m e < (2 ^ 24 : Nat) := by
  have hm : (m : ℚ) < (2 : ℚ) ^ ((m.log2 : Int) + 1) := by
    exact_mod_cast Nat.lt_log2_self (n := m)
  have hexp : (m.log2 : Int) + 1 + (e - ulpExp m e) ≤ 24 := by
    have : e + (m.log2 : Int) - 23 ≤ ulpExp m e := le_max_left _ _
    omega
  calc inUlps m e < (2 : ℚ) ^ ((m.log2 : Int) + 1) * (2 : ℚ) ^ (e - ulpExp m e) :=
        mul_lt_mul_of_pos_right hm (by positivity)
    _ = (2 : ℚ) ^ ((m.log2 : Int) + 1 + (e - ulpExp m e)) := (zpow_add₀ two_ne_zero _ _).symm
    _ ≤ (2 : ℚ) ^ (24 : Int) := zpow_le_zpow_right₀ one_le_two hexp
    _ = (2 ^ 24 : Nat) := by norm_num

/-- Above the subnormals a value has at least 2^23 units in the last place. -/
theorem le_inUlps {m : Nat} {e : Int} (hm : m ≠ 0) (hulp : ulpExp m e ≠ -149) : (2 ^ 23 : Nat) ≤ inUlps m e := by
  have hlog : (2 : ℚ) ^ (m.log2 : Int) ≤ m := by
    exact_mod_cast Nat.log2_self_le hm
  have hexp : (m.log2 : Int) + (e - ulpExp m e) = 23 := by
    rw [ulpExp] at hulp ⊢
    omega
  calc ((2 ^ 23 : Nat) : ℚ) = (2 : ℚ) ^ ((m.log2 : Int) + (e - ulpExp m e)) := by rw [hexp]; norm_num
    _ = (2 : ℚ) ^ (m.log2 : Int) * (2 : ℚ) ^ (e - ulpExp m e) := zpow_add₀ two_ne_zero _ _
    _ ≤ inUlps m e := mul_le_mul_of_nonneg_right hlog (by positivity)

theorem roundToUlp_le (m : Nat) (e : Int) : roundToUlp m e ≤ 2 ^ 24 :=
  (roundToUlp_nearestEven m e).le_of_lt (inUlps_lt m e)

theorem le_roundToUlp {m : Nat} {e : Int} (hm : m ≠ 0) (hulp : ulpExp m e ≠ -149) : 2 ^ 23 ≤ roundToUlp m e :=
  (roundToUlp_nearestEven m e).ge_of_le (le_inUlps hm hulp)

/-! ## The magnitude that `round32` gives -/

/-- The binade of the unit in the last place, counted from the subnormals. -/
def ulpBinade (m : Nat) (e : Int) : Nat := (ulpExp m e + 149).toNat

theorem ulpExp_eq (m : Nat) (e : Int) : ulpExp m e = ulpBinade m e - 149 := by
  have := ulpExp_ge m e
  rw [ulpBinade]
  omega

theorem le_inUlps_of_ulpBinade {m : Nat} {e : Int} (hm : m ≠ 0) (hk : 0 < ulpBinade m e) :
    (2 ^ 23 : Nat) ≤ inUlps m e := le_inUlps hm (by rw [ulpExp_eq]; omega)

theorem ulpBinade_eq_zero_or {m : Nat} {e : Int} (hm : m ≠ 0) : ulpBinade m e = 0 ∨ 2 ^ 23 ≤ roundToUlp m e := by
  rw [or_iff_not_imp_left]
  exact fun hk => le_roundToUlp hm (by rw [ulpExp_eq]; omega)

/-- The magnitude of `round32`, before the overflow check. -/
def roundMagnitude (m : Nat) (e : Int) : Nat := ulpBinade m e * 2 ^ 23 + roundToUlp m e

theorem round32_zero (neg : Bool) (e : Int) : round32 neg 0 e = zero32 neg := if_pos rfl

theorem round32_of_ne_zero (neg : Bool) {m : Nat} (e : Int) (hm : m ≠ 0) :
    round32 neg m e =
      if 0x7F800000 ≤ roundMagnitude m e then inf32 neg else pattern32 neg (roundMagnitude m e) := by
  rw [round32, if_neg hm]
  rfl

/-- A magnitude overflows exactly from the largest finite value and half its unit on. -/
theorem overflow_iff {m : Nat} {e : Int} (hm : m ≠ 0) :
    0x7F800000 ≤ roundMagnitude m e ↔ (2 : ℚ) ^ 128 - 2 ^ 103 ≤ m * (2 : ℚ) ^ e := by
  have hround := roundToUlp_nearestEven m e
  have hvalue := inUlps_mul_ulp m e
  rw [ulpExp_eq] at hvalue
  rw [roundMagnitude, ← hvalue]
  obtain hsmall | htop | hbig : ulpBinade m e ≤ 252 ∨ ulpBinade m e = 253 ∨ 254 ≤ ulpBinade m e := by omega
  · have hle := roundToUlp_le m e
    have hpow : (2 : ℚ) ^ ((ulpBinade m e : Int) - 149) ≤ 2 ^ (103 : Int) :=
      zpow_le_zpow_right₀ one_le_two (by omega)
    have hlt : inUlps m e * (2 : ℚ) ^ ((ulpBinade m e : Int) - 149) < (2 ^ 24 : Nat) * 2 ^ (103 : Int) :=
      mul_lt_mul (inUlps_lt m e) hpow (by positivity) (by positivity)
    refine iff_of_false (by omega) (not_le.mpr (hlt.trans (by norm_num)))
  · have hhalf := hround.ge_iff_half_le (N := 2 ^ 24) (by norm_num)
    have hcarry : 0x7F800000 ≤ ulpBinade m e * 2 ^ 23 + roundToUlp m e ↔ 2 ^ 24 ≤ roundToUlp m e := by omega
    rw [hcarry, hhalf, htop]
    norm_num
    constructor <;> intro h <;> linarith
  · have hnormal : (2 ^ 23 : Nat) ≤ inUlps m e := le_inUlps_of_ulpBinade hm (by omega)
    have hnormal' : 2 ^ 23 ≤ roundToUlp m e := hround.ge_of_le hnormal
    have hpow : (2 : ℚ) ^ (105 : Int) ≤ 2 ^ ((ulpBinade m e : Int) - 149) :=
      zpow_le_zpow_right₀ one_le_two (by omega)
    have hge : ((2 ^ 23 : Nat) : ℚ) * 2 ^ (105 : Int) ≤ inUlps m e * (2 : ℚ) ^ ((ulpBinade m e : Int) - 149) :=
      mul_le_mul hnormal hpow (by positivity) ((Nat.cast_nonneg _).trans hnormal)
    refine iff_of_true (by omega) (le_trans ?_ hge)
    norm_num

/-- A finite pattern with that magnitude has the rounded number of units. -/
theorem val32_roundMagnitude (neg : Bool) {m : Nat} {e : Int} (hm : m ≠ 0)
    (hfin : roundMagnitude m e < 0x7F800000) :
    val32 (pattern32 neg (roundMagnitude m e)) = signFactor neg * (roundToUlp m e * (2 : ℚ) ^ ulpExp m e) := by
  have hlt : roundMagnitude m e < 2 ^ 31 := by omega
  have hmag := magnitude32_pattern32 neg hlt
  rw [val32_of_isFinite32 (isFinite32_of_magnitude_lt (by rwa [hmag])), hmag, sign_pattern32 neg hlt, roundMagnitude,
    subnormalUnits_of_ulps (roundToUlp_le m e) (ulpBinade_eq_zero_or hm), ulpExp_eq, sub_eq_add_neg,
    zpow_add₀ two_ne_zero, zpow_natCast]
  push_cast
  ring

/-- A finite value in units in the last place of `m * 2^e`. -/
def val32InUlps (neg : Bool) (m : Nat) (e : Int) (y : F32) : ℚ :=
  signFactor neg * val32 y / (2 : ℚ) ^ ulpExp m e

/-- The distance of a value from the exact one, counted in units. -/
theorem abs_val32_sub (neg : Bool) (m : Nat) (e : Int) (y : F32) :
    |val32 y - signFactor neg * (m * (2 : ℚ) ^ e)| =
      |val32InUlps neg m e y - inUlps m e| * (2 : ℚ) ^ ulpExp m e := by
  have hulp : (0 : ℚ) < (2 : ℚ) ^ ulpExp m e := by positivity
  have hsplit : val32 y - signFactor neg * (m * (2 : ℚ) ^ e) =
      signFactor neg * ((val32InUlps neg m e y - inUlps m e) * (2 : ℚ) ^ ulpExp m e) := by
    rw [sub_mul, inUlps_mul_ulp, val32InUlps, div_mul_cancel₀ _ hulp.ne', mul_sub,
      ← mul_assoc (signFactor neg) (signFactor neg), signFactor_mul_self, one_mul]
  rw [hsplit, abs_mul, abs_signFactor, one_mul, abs_mul, abs_of_pos hulp]

/-- A finite value is a whole number of units, or lies below the binades that have the unit. -/
theorem val32InUlps_on_grid_or_below (neg : Bool) {m : Nat} {e : Int} {y : F32} (hm : m ≠ 0) (hy : isFinite32 y) :
    (∃ z : ℤ, val32InUlps neg m e y = z) ∨
      (val32InUlps neg m e y < (2 ^ 23 : Nat) ∧ (2 ^ 23 : Nat) ≤ inUlps m e) := by
  have hunits : val32InUlps neg m e y =
      signFactor (neg != y.getLsbD 31) * (subnormalUnits (magnitude32 y) / 2 ^ ulpBinade m e) := by
    rw [val32InUlps, val32_of_isFinite32 hy, ulpExp_eq, signFactor_bne, sub_eq_add_neg, zpow_add₀ two_ne_zero,
      zpow_natCast]
    field_simp
  rw [hunits]
  obtain ⟨c, hc⟩ | ⟨hk, hlt⟩ := subnormalUnits_on_grid_or_below (magnitude32 y) (ulpBinade m e)
  · refine .inl ⟨signed (neg != y.getLsbD 31) c, ?_⟩
    rw [hc]
    cases neg != y.getLsbD 31 <;> simp [signFactor, signed]
  · refine .inr ⟨?_, le_inUlps_of_ulpBinade hm hk⟩
    have hsmall : (subnormalUnits (magnitude32 y) : ℚ) / 2 ^ ulpBinade m e < (2 ^ 23 : Nat) := by
      rw [div_lt_iff₀ (by positivity)]
      exact_mod_cast hlt
    refine lt_of_le_of_lt (le_abs_self _) ?_
    rwa [abs_mul, abs_signFactor, one_mul, abs_of_nonneg (by positivity)]

theorem abs_signFactor_mul (neg : Bool) {r : ℚ} (hr : 0 ≤ r) : |signFactor neg * r| = r := by
  rw [abs_mul, abs_signFactor, one_mul, abs_of_nonneg hr]

/-- A finite result of `round32` is nearest, and even where another finite value is as near. -/
theorem pattern32_roundMagnitude_nearest (neg : Bool) {m : Nat} {e : Int} (hm : m ≠ 0)
    (hfin : roundMagnitude m e < 0x7F800000) {y : F32} (hy : isFinite32 y) :
    let x := pattern32 neg (roundMagnitude m e)
    let r := signFactor neg * (m * (2 : ℚ) ^ e)
    |val32 x - r| ≤ |val32 y - r| ∧
      (|val32 y - r| = |val32 x - r| → val32 y ≠ val32 x → x.getLsbD 0 = false) := by
  intro x r
  have hulp : (0 : ℚ) < (2 : ℚ) ^ ulpExp m e := by positivity
  have hx : val32InUlps neg m e x = roundToUlp m e := by
    rw [val32InUlps, val32_roundMagnitude neg hm hfin, ← mul_assoc, signFactor_mul_self, one_mul,
      mul_div_cancel_right₀ _ hulp.ne']
  obtain ⟨hnear, htie⟩ :=
    (roundToUlp_nearestEven m e).best (val32InUlps_on_grid_or_below (e := e) neg hm hy)
  rw [abs_val32_sub, abs_val32_sub, hx]
  refine ⟨mul_le_mul_of_nonneg_right hnear hulp.le, fun heq hne => ?_⟩
  have heven : roundToUlp m e % 2 = 0 := by
    refine htie (mul_right_cancel₀ hulp.ne' heq) fun hsame => hne ?_
    rw [← hx, val32InUlps, val32InUlps, div_left_inj' hulp.ne'] at hsame
    exact mul_left_cancel₀ (signFactor_ne_zero neg) hsame
  rw [lsb_pattern32 neg (by omega), roundMagnitude, decide_eq_false_iff_not]
  omega

theorem isRounded_round32 (neg : Bool) {m : Nat} (e : Int) (hm : m ≠ 0) :
    IsRounded (signFactor neg * (m * (2 : ℚ) ^ e)) (round32 neg m e) := by
  have hpos : (0 : ℚ) < m * (2 : ℚ) ^ e := by positivity
  rw [IsRounded, abs_signFactor_mul neg hpos.le, signFactor_mul_lt_zero neg hpos, ← overflow_iff hm, ← not_le,
    ← overflow_iff hm, round32_of_ne_zero neg e hm]
  refine ⟨fun hover => if_pos hover, fun hfin => ?_⟩
  have hlt : roundMagnitude m e < 0x7F800000 := not_le.mp hfin
  rw [if_neg hfin]
  refine ⟨isFinite32_of_magnitude_lt ?_, sign_pattern32 neg (by omega), fun y hy => ?_, fun y hy => ?_⟩
  · rwa [magnitude32_pattern32 neg (by omega)]
  · exact (pattern32_roundMagnitude_nearest neg hm hlt hy).1
  · exact (pattern32_roundMagnitude_nearest neg hm hlt hy).2

/-- Settles O44: `isRounded_round32`, the sign and the power written out. -/
theorem round32IsRoundTiesToEven : Obligations.Round32IsRoundTiesToEven := by
  intro neg m e hm
  rw [mul_assoc]
  exact isRounded_round32 neg e hm

end Sys2Proof.Machine
end

section
/-!
The primitives on all patterns (40_numerics.md R72 to R83): NaNs, infinities and signed zeros by the class of each
operand, and everything finite by `isRounded_round32`.
-/

namespace Sys2Proof.Machine

/-! ## Classes of patterns -/

theorem unpack32_inf32 (neg : Bool) : unpack32 (inf32 neg) = .inf neg := by cases neg <;> decide

theorem unpack32_zero32 (neg : Bool) : unpack32 (zero32 neg) = .fin neg 0 (-149) := by cases neg <;> decide

/-- A pattern that is no NaN and not finite is an infinity with the sign of its bit 31. -/
theorem unpack32_of_not_finite {x : F32} (hnan : ¬ isNaN32 x) (hfin : ¬ isFinite32 x) :
    unpack32 x = .inf (x.getLsbD 31) := by
  cases hx : unpack32 x with
  | nan => exact absurd hx hnan
  | inf neg => rw [eq_inf32_of_unpack32_inf hx, sign_inf32]
  | fin neg m e => exact absurd ⟨neg, m, e, hx⟩ hfin

theorem not_isNaN32_of_isFinite32 {x : F32} (h : isFinite32 x) : ¬ isNaN32 x := by
  obtain ⟨_, _, _, hx⟩ := h
  rw [isNaN32, hx]
  simp

theorem not_isNaN32_inf32 (neg : Bool) : ¬ isNaN32 (inf32 neg) := by
  rw [isNaN32, unpack32_inf32]
  simp

/-- A finite pattern without a significand is the zero of its sign. -/
theorem eq_zero32_of_unpack32 {x : F32} {neg : Bool} {e : Int} (h : unpack32 x = .fin neg 0 e) : x = zero32 neg := by
  obtain ⟨hsign, hzero⟩ := sign_of_unpack32_fin h
  refine eq_of_sign_magnitude ?_ ?_
  · rw [hsign]
    cases neg <;> rfl
  · rw [hzero rfl]
    cases neg <;> rfl

/-! ## Rounding never gives a NaN -/

theorem IsRounded.not_isNaN32 {r : ℚ} {x : F32} (h : IsRounded r x) : ¬ isNaN32 x := by
  obtain ⟨hover, hfin⟩ := h
  obtain hle | hlt := le_or_gt (2 ^ 128 - 2 ^ 103) |r|
  · rw [hover hle]
    exact not_isNaN32_inf32 _
  · exact not_isNaN32_of_isFinite32 (hfin hlt).1

theorem not_isNaN32_zero32 (neg : Bool) : ¬ isNaN32 (zero32 neg) :=
  not_isNaN32_of_isFinite32 ⟨_, _, _, unpack32_zero32 neg⟩

theorem not_isNaN32_round32 (neg : Bool) (m : Nat) (e : Int) : ¬ isNaN32 (round32 neg m e) := by
  by_cases hm : m = 0
  · rw [hm, round32_zero]
    exact not_isNaN32_zero32 neg
  · exact (isRounded_round32 neg e hm).not_isNaN32

theorem not_isNaN32_addFinite (na : Bool) (ma : Nat) (ea : Int) (nb : Bool) (mb : Nat) (eb : Int) :
    ¬ isNaN32 (addFinite na ma ea nb mb eb) := by
  rw [addFinite]
  split
  · exact not_isNaN32_zero32 _
  · exact not_isNaN32_round32 _ _ _

/-! ## NaN results -/

/-- A value that is the canonical NaN where it is a NaN (40_numerics.md R72). -/
def NaNCanonical (x : F32) : Prop := isNaN32 x → x = canonicalNaN

theorem nanCanonical_canonicalNaN : NaNCanonical canonicalNaN := fun _ => rfl

theorem nanCanonical_of_not_isNaN32 {x : F32} (h : ¬ isNaN32 x) : NaNCanonical x := fun hx => absurd hx h

theorem add32_nanCanonical (a b : F32) : NaNCanonical (add32 a b) := by
  rw [add32]
  split
  case h_3 =>
    split
    · exact nanCanonical_of_not_isNaN32 (not_isNaN32_inf32 _)
    · exact nanCanonical_canonicalNaN
  case h_6 => exact nanCanonical_of_not_isNaN32 (not_isNaN32_addFinite _ _ _ _ _ _)
  case h_4 | h_5 => exact nanCanonical_of_not_isNaN32 (not_isNaN32_inf32 _)
  case h_1 | h_2 => exact nanCanonical_canonicalNaN

theorem sub32_nanCanonical (a b : F32) : NaNCanonical (sub32 a b) := add32_nanCanonical a (neg32 b)

theorem mul32_nanCanonical (a b : F32) : NaNCanonical (mul32 a b) := by
  rw [mul32]
  split
  case h_3 => exact nanCanonical_of_not_isNaN32 (not_isNaN32_inf32 _)
  case h_4 | h_5 =>
    split
    · exact nanCanonical_canonicalNaN
    · exact nanCanonical_of_not_isNaN32 (not_isNaN32_inf32 _)
  case h_6 => exact nanCanonical_of_not_isNaN32 (not_isNaN32_round32 _ _ _)
  case h_1 | h_2 => exact nanCanonical_canonicalNaN

theorem narrow_nanCanonical (d : F64) : NaNCanonical (narrow d) := by
  rw [narrow]
  split
  · exact nanCanonical_canonicalNaN
  · exact nanCanonical_of_not_isNaN32 (not_isNaN32_inf32 _)
  · exact nanCanonical_of_not_isNaN32 (not_isNaN32_round32 _ _ _)

theorem add32_of_isNaN32 {a b : F32} (h : isNaN32 a ∨ isNaN32 b) : add32 a b = canonicalNaN := by
  obtain ha | hb := h
  · rw [add32, show unpack32 a = .nan from ha]
  · rw [add32, show unpack32 b = .nan from hb]
    cases unpack32 a <;> rfl

theorem mul32_of_isNaN32 {a b : F32} (h : isNaN32 a ∨ isNaN32 b) : mul32 a b = canonicalNaN := by
  obtain ha | hb := h
  · rw [mul32, show unpack32 a = .nan from ha]
  · rw [mul32, show unpack32 b = .nan from hb]
    cases unpack32 a <;> rfl

/-! ## Negation -/

/-- The value with the other sign. -/
def FloatVal.neg : FloatVal → FloatVal
  | .nan => .nan
  | .inf n => .inf (!n)
  | .fin n m e => .fin (!n) m e

theorem unpack32_neg32 (x : F32) : unpack32 (neg32 x) = (unpack32 x).neg := by
  have hsign : (neg32 x).getLsbD 31 = !x.getLsbD 31 := by
    simp [neg32]
  have hmag : magnitude32 (neg32 x) = magnitude32 x := by
    rw [magnitude32, neg32, BitVec.toNat_xor, Nat.xor_mod_two_pow]
    exact Nat.xor_zero _
  rw [unpack32_eq_fields, unpack32_eq_fields, hsign, hmag, unpackFields, unpackFields]
  split
  · split <;> rfl
  · split <;> rfl

theorem isNaN32_neg32 {x : F32} (h : isNaN32 x) : isNaN32 (neg32 x) := by
  rw [isNaN32, unpack32_neg32, show unpack32 x = .nan from h]
  rfl

/-- Settles O48: an operand's NaN by `add32_of_isNaN32` and `mul32_of_isNaN32`, a result's by `NaNCanonical`. -/
theorem onlyTheCanonicalNaNResults : Obligations.OnlyTheCanonicalNaNResults := by
  intro a b d
  refine ⟨fun h => ⟨add32_of_isNaN32 h, ?_, mul32_of_isNaN32 h⟩, add32_nanCanonical a b, sub32_nanCanonical a b,
    mul32_nanCanonical a b, narrow_nanCanonical d⟩
  exact add32_of_isNaN32 (h.imp_right isNaN32_neg32)

/-! ## Narrowing -/

/-- Settles O47: the three classes of a binary64, the finite one by `isRounded_round32`. -/
theorem narrowRoundsTheExactValue : Obligations.NarrowRoundsTheExactValue := by
  intro d
  refine ⟨fun hnan => ?_, fun neg hinf => ?_, fun neg m e hfin => ⟨fun hm => ?_, fun hm => ?_⟩⟩
  · rw [narrow, hnan]
    rfl
  · rw [narrow, hinf]
  · rw [narrow, hfin, hm]
    exact round32_zero neg e
  · rw [narrow, val64, hfin, rat_fin]
    exact isRounded_round32 neg e hm

/-! ## Multiplication -/

theorem mul32_of_fin {a b : F32} {na nb : Bool} {ma mb : Nat} {ea eb : Int} (ha : unpack32 a = .fin na ma ea)
    (hb : unpack32 b = .fin nb mb eb) : mul32 a b = round32 (na != nb) (ma * mb) (ea + eb) := by
  rw [mul32, ha, hb]

/-- The exact product, in the form that `mul32` rounds. -/
theorem val32_mul {a b : F32} {na nb : Bool} {ma mb : Nat} {ea eb : Int} (ha : unpack32 a = .fin na ma ea)
    (hb : unpack32 b = .fin nb mb eb) :
    val32 a * val32 b = signFactor (na != nb) * ((ma * mb : Nat) * (2 : ℚ) ^ (ea + eb)) := by
  rw [val32_of_unpack32 ha, val32_of_unpack32 hb, signFactor_bne, zpow_add₀ two_ne_zero]
  push_cast
  ring

theorem mul32_comm (a b : F32) : mul32 a b = mul32 b a := by
  rw [mul32, mul32]
  cases unpack32 a with
  | nan => cases unpack32 b <;> rfl
  | inf na =>
    cases unpack32 b with
    | nan => rfl
    | _ => simp only [bne_comm]
  | fin na ma ea =>
    cases unpack32 b with
    | nan => rfl
    | inf nb => simp only [bne_comm]
    | fin nb mb eb => simp only [bne_comm, Nat.mul_comm, Int.add_comm]

/-- An infinity times a finite value: invalid for a zero, else the infinity of the product's sign. -/
theorem mul32_inf_fin {a b : F32} {na : Bool} (ha : unpack32 a = .inf na) (hb : isFinite32 b) :
    mul32 a b = if val32 b = 0 then canonicalNaN else inf32 (na != b.getLsbD 31) := by
  obtain ⟨nb, mb, eb, hb⟩ := hb
  rw [mul32, ha, hb, (sign_of_unpack32_fin hb).1]
  exact if_congr (val32_eq_zero_iff hb).symm rfl rfl

/-- An infinity times a pattern that is neither a NaN nor a zero. -/
theorem mul32_of_not_finite {a b : F32} (hna : ¬ isNaN32 a) (hnb : ¬ isNaN32 b) (ha : ¬ isFinite32 a)
    (hb : isFinite32 b → val32 b ≠ 0) : mul32 a b = inf32 (a.getLsbD 31 != b.getLsbD 31) := by
  have hinf := unpack32_of_not_finite hna ha
  by_cases hfin : isFinite32 b
  · rw [mul32_inf_fin hinf hfin, if_neg (hb hfin)]
  · rw [mul32, hinf, unpack32_of_not_finite hnb hfin]

theorem mul32_infinity_zero {a b : F32} (hna : ¬ isNaN32 a) (ha : ¬ isFinite32 a) (hb : isFinite32 b)
    (hzero : val32 b = 0) : mul32 a b = canonicalNaN := by
  rw [mul32_inf_fin (unpack32_of_not_finite hna ha) hb, if_pos hzero]

/-- Settles O46: the infinities on either side by `mul32_comm`, the finite products by `val32_mul`. -/
theorem mul32RoundsTheExactProduct : Obligations.Mul32RoundsTheExactProduct := by
  intro a b hna hnb
  refine ⟨mul32_infinity_zero hna, fun ha hb hzero => ?_, mul32_of_not_finite hna hnb, fun hb ha => ?_,
    fun ha hb => ?_⟩
  · rw [mul32_comm]
    exact mul32_infinity_zero hnb hb ha hzero
  · rw [mul32_comm, bne_comm]
    exact mul32_of_not_finite hnb hna hb ha
  · obtain ⟨na, ma, ea, ha⟩ := ha
    obtain ⟨nb, mb, eb, hb⟩ := hb
    rw [val32_mul ha hb, mul32_of_fin ha hb, (sign_of_unpack32_fin ha).1, (sign_of_unpack32_fin hb).1]
    refine ⟨fun hne => isRounded_round32 _ _ fun hm => hne (by rw [hm]; simp), fun hzero => ?_⟩
    have hm : ma * mb = 0 := by
      simpa [signFactor_ne_zero, zpow_ne_zero] using hzero
    rw [hm, round32_zero]

/-! ## Addition -/

/-- The exact sum on the smaller exponent. -/
def alignedSum (na : Bool) (ma : Nat) (ea : Int) (nb : Bool) (mb : Nat) (eb : Int) : Int :=
  signed na (ma * 2 ^ (ea - min ea eb).toNat) + signed nb (mb * 2 ^ (eb - min ea eb).toNat)

theorem addFinite_eq (na : Bool) (ma : Nat) (ea : Int) (nb : Bool) (mb : Nat) (eb : Int) :
    addFinite na ma ea nb mb eb =
      if alignedSum na ma ea nb mb eb = 0 then zero32 (na && nb && ma == 0 && mb == 0)
      else round32 (decide (alignedSum na ma ea nb mb eb < 0)) (alignedSum na ma ea nb mb eb).natAbs (min ea eb) := rfl

theorem alignedSum_comm (na : Bool) (ma : Nat) (ea : Int) (nb : Bool) (mb : Nat) (eb : Int) :
    alignedSum na ma ea nb mb eb = alignedSum nb mb eb na ma ea := by
  rw [alignedSum, alignedSum, min_comm, Int.add_comm]

theorem addFinite_comm (na : Bool) (ma : Nat) (ea : Int) (nb : Bool) (mb : Nat) (eb : Int) :
    addFinite na ma ea nb mb eb = addFinite nb mb eb na ma ea := by
  have hzero : (na && nb && ma == 0 && mb == 0) = (nb && na && mb == 0 && ma == 0) := by
    rw [Bool.and_comm na nb, Bool.and_assoc, Bool.and_comm (ma == 0), ← Bool.and_assoc]
  rw [addFinite_eq, addFinite_eq, alignedSum_comm, min_comm, hzero]

theorem add32_comm (a b : F32) : add32 a b = add32 b a := by
  rw [add32, add32]
  cases unpack32 a with
  | nan => cases unpack32 b <;> rfl
  | inf na =>
    cases unpack32 b with
    | inf nb => cases na <;> cases nb <;> rfl
    | _ => rfl
  | fin na ma ea =>
    cases unpack32 b with
    | fin nb mb eb => exact addFinite_comm ..
    | _ => rfl

/-- Settles O49: `add32_comm` and `mul32_comm`. -/
theorem addAndMulCommute : Obligations.AddAndMulCommute := fun a b => ⟨add32_comm a b, mul32_comm a b⟩

theorem signed_cast (neg : Bool) (n : Nat) : (signed neg n : ℚ) = signFactor neg * n := by
  cases neg <;> simp [signed, signFactor]

/-- A significand moved to a smaller exponent. -/
theorem mul_zpow_align (m : Nat) {e q : Int} (h : q ≤ e) :
    ((m * 2 ^ (e - q).toNat : Nat) : ℚ) * (2 : ℚ) ^ q = m * (2 : ℚ) ^ e := by
  rw [Nat.cast_mul, Nat.cast_pow, ← zpow_natCast, Int.toNat_of_nonneg (by omega), mul_assoc, Nat.cast_ofNat,
    ← zpow_add₀ two_ne_zero, sub_add_cancel]

/-- `alignedSum` is the exact sum. -/
theorem val32_add {a b : F32} {na nb : Bool} {ma mb : Nat} {ea eb : Int} (ha : unpack32 a = .fin na ma ea)
    (hb : unpack32 b = .fin nb mb eb) :
    val32 a + val32 b = alignedSum na ma ea nb mb eb * (2 : ℚ) ^ min ea eb := by
  rw [alignedSum, Int.cast_add, add_mul, signed_cast, signed_cast, mul_assoc, mul_assoc,
    mul_zpow_align ma (min_le_left ea eb), mul_zpow_align mb (min_le_right ea eb), val32_of_unpack32 ha,
    val32_of_unpack32 hb]

theorem signFactor_mul_natAbs (z : Int) : signFactor (decide (z < 0)) * (z.natAbs : ℚ) = z := by
  rw [← signed_cast, signed]
  split
  next h => rw [decide_eq_true_eq] at h; congr 1; omega
  next h => rw [decide_eq_true_eq] at h; congr 1; omega

theorem add32_of_fin {a b : F32} {na nb : Bool} {ma mb : Nat} {ea eb : Int} (ha : unpack32 a = .fin na ma ea)
    (hb : unpack32 b = .fin nb mb eb) : add32 a b = addFinite na ma ea nb mb eb := by
  rw [add32, ha, hb]

/-- The sum of two finite patterns. -/
theorem add32_finite {a b : F32} (ha : isFinite32 a) (hb : isFinite32 b) :
    (val32 a + val32 b ≠ 0 → IsRounded (val32 a + val32 b) (add32 a b)) ∧
    (val32 a + val32 b = 0 → add32 a b = zero32 (decide (a = zero32 true ∧ b = zero32 true))) := by
  obtain ⟨na, ma, ea, ha⟩ := ha
  obtain ⟨nb, mb, eb, hb⟩ := hb
  have hsum : val32 a + val32 b = 0 ↔ alignedSum na ma ea nb mb eb = 0 := by
    rw [val32_add ha hb]
    simp [zpow_ne_zero]
  rw [add32_of_fin ha hb, addFinite_eq]
  refine ⟨fun hne => ?_, fun hzero => ?_⟩
  · rw [Ne, hsum] at hne
    rw [if_neg hne, val32_add ha hb, ← signFactor_mul_natAbs, mul_assoc]
    exact isRounded_round32 _ _ (Int.natAbs_ne_zero.mpr hne)
  · rw [if_pos (hsum.mp hzero)]
    congr 1
    rw [Bool.eq_iff_iff]
    simp only [Bool.and_eq_true, beq_iff_eq, decide_eq_true_eq]
    constructor
    · rintro ⟨⟨⟨rfl, rfl⟩, rfl⟩, rfl⟩
      exact ⟨eq_zero32_of_unpack32 ha, eq_zero32_of_unpack32 hb⟩
    · rintro ⟨rfl, rfl⟩
      rw [unpack32_zero32] at ha hb
      cases ha
      cases hb
      exact ⟨⟨⟨rfl, rfl⟩, rfl⟩, rfl⟩

theorem add32_inf_inf {a b : F32} {na nb : Bool} (ha : unpack32 a = .inf na) (hb : unpack32 b = .inf nb) :
    add32 a b = if na = nb then a else canonicalNaN := by
  rw [add32, ha, hb, eq_inf32_of_unpack32_inf ha]

theorem add32_inf_fin {a b : F32} {na : Bool} (ha : unpack32 a = .inf na) (hb : isFinite32 b) : add32 a b = a := by
  obtain ⟨nb, mb, eb, hb⟩ := hb
  rw [add32, ha, hb, eq_inf32_of_unpack32_inf ha]

/-- Settles O45: the infinities by `add32_inf_inf` and `add32_inf_fin`, the finite sums by `add32_finite`. -/
theorem add32RoundsTheExactSum : Obligations.Add32RoundsTheExactSum := by
  intro a b
  refine ⟨fun na nb ha hb hne => ?_, fun na nb ha hb heq => ?_, fun na ha hb => add32_inf_fin ha hb,
    fun nb ha hb => ?_, fun ha hb => ⟨(add32_finite ha hb).1, fun hzero ha0 hb0 => ?_, fun hzero hnot => ?_⟩⟩
  · exact (add32_inf_inf ha hb).trans (if_neg hne)
  · exact (add32_inf_inf ha hb).trans (if_pos heq)
  · rw [add32_comm]
    exact add32_inf_fin hb ha
  · rw [(add32_finite ha hb).2 hzero, decide_eq_true ⟨ha0, hb0⟩]
    rfl
  · have hsign : decide (a = zero32 true ∧ b = zero32 true) = false := decide_eq_false hnot
    rw [(add32_finite ha hb).2 hzero, hsign]
    rfl

/-! ## Subtraction -/

theorem sub32_self_of_inf {x : F32} {neg : Bool} (h : unpack32 x = .inf neg) : sub32 x x = canonicalNaN := by
  have hneg : unpack32 (neg32 x) = .inf (!neg) := by rw [unpack32_neg32, h]; rfl
  rw [sub32, add32_inf_inf h hneg, if_neg (by simp)]

theorem alignedSum_opposite (n : Bool) (m : Nat) (e : Int) : alignedSum n m e (!n) m e = 0 := by
  cases n <;> simp [alignedSum, signed]

theorem sub32_self_of_finite {x : F32} (h : isFinite32 x) : sub32 x x = zero32 false := by
  obtain ⟨n, m, e, hx⟩ := h
  have hneg : unpack32 (neg32 x) = .fin (!n) m e := by rw [unpack32_neg32, hx]; rfl
  rw [sub32, add32_of_fin hx hneg, addFinite_eq, if_pos (alignedSum_opposite n m e), Bool.and_not_self, Bool.false_and,
    Bool.false_and]

/-- Settles O50: `x - x` by its class; the three differences of zeros are evaluated. -/
theorem subtractionCornersAreSigned : Obligations.SubtractionCornersAreSigned :=
  ⟨fun _ => sub32_self_of_finite, fun _ _ => sub32_self_of_inf, by decide, by decide, by decide⟩

/-- Settles O51: each primitive is its lanes by definition. -/
theorem complexPrimitivesAreTheirLanes : Obligations.ComplexPrimitivesAreTheirLanes :=
  ⟨fun _ _ => ⟨rfl, rfl⟩, fun _ _ _ => ⟨rfl, rfl, rfl, rfl, rfl, rfl⟩⟩

end Sys2Proof.Machine
end

section
/-!
Every lane that a completion writes is a sum or a difference (40_numerics.md R83), so a NaN there is the canonical one:
the results of each butterfly and rotation, then the loops of each command lane by lane.
-/

namespace Sys2Proof.Machine

/-! ## Results -/

/-- Both lanes have no NaN but the canonical one. -/
structure NaNCanonicalLanes (z : Complex32) : Prop where
  re : NaNCanonical z.re
  im : NaNCanonical z.im

theorem cadd_nanCanonical (a b : Complex32) : NaNCanonicalLanes (cadd a b) :=
  ⟨add32_nanCanonical _ _, add32_nanCanonical _ _⟩

theorem csub_nanCanonical (a b : Complex32) : NaNCanonicalLanes (csub a b) :=
  ⟨sub32_nanCanonical _ _, sub32_nanCanonical _ _⟩

theorem addmj_nanCanonical (s t : Complex32) : NaNCanonicalLanes (addmj s t) :=
  ⟨add32_nanCanonical _ _, sub32_nanCanonical _ _⟩

theorem addpj_nanCanonical (s t : Complex32) : NaNCanonicalLanes (addpj s t) :=
  ⟨sub32_nanCanonical _ _, add32_nanCanonical _ _⟩

section
variable (P : Params) (m0 : Memory) (b : Nat)

theorem bfly3Group_nanCanonical :
    NaNCanonicalLanes (bfly3Group P m0 b).g0 ∧ NaNCanonicalLanes (bfly3Group P m0 b).g1 ∧
    NaNCanonicalLanes (bfly3Group P m0 b).g2 :=
  ⟨cadd_nanCanonical _ _, addpj_nanCanonical _ _, addmj_nanCanonical _ _⟩

theorem radix4_nanCanonical (f0 f1 f2 f3 : Complex32) :
    NaNCanonicalLanes (radix4 f0 f1 f2 f3).g0 ∧ NaNCanonicalLanes (radix4 f0 f1 f2 f3).g1 ∧
    NaNCanonicalLanes (radix4 f0 f1 f2 f3).g2 ∧ NaNCanonicalLanes (radix4 f0 f1 f2 f3).g3 :=
  ⟨cadd_nanCanonical _ _, addmj_nanCanonical _ _, csub_nanCanonical _ _, addpj_nanCanonical _ _⟩

theorem bfly4m1Group_nanCanonical :
    NaNCanonicalLanes (bfly4m1Group P m0 b).g0 ∧ NaNCanonicalLanes (bfly4m1Group P m0 b).g1 ∧
    NaNCanonicalLanes (bfly4m1Group P m0 b).g2 ∧ NaNCanonicalLanes (bfly4m1Group P m0 b).g3 :=
  radix4_nanCanonical ..

theorem bfly4Position_nanCanonical (q : Nat) :
    NaNCanonicalLanes (bfly4Position P m0 b q).g0 ∧ NaNCanonicalLanes (bfly4Position P m0 b q).g1 ∧
    NaNCanonicalLanes (bfly4Position P m0 b q).g2 ∧ NaNCanonicalLanes (bfly4Position P m0 b q).g3 :=
  radix4_nanCanonical ..

theorem bfly5Group_nanCanonical :
    NaNCanonicalLanes (bfly5Group P m0 b).g0 ∧ NaNCanonicalLanes (bfly5Group P m0 b).g1 ∧
    NaNCanonicalLanes (bfly5Group P m0 b).g2 ∧ NaNCanonicalLanes (bfly5Group P m0 b).g3 ∧
    NaNCanonicalLanes (bfly5Group P m0 b).g4 :=
  ⟨⟨add32_nanCanonical _ _, add32_nanCanonical _ _⟩, ⟨sub32_nanCanonical _ _, add32_nanCanonical _ _⟩,
    cadd_nanCanonical _ _, csub_nanCanonical _ _, ⟨add32_nanCanonical _ _, sub32_nanCanonical _ _⟩⟩

end

/-! ## One lane of the complex buffer -/

/-- Float element `j` of the complex buffer has no NaN but the canonical one. -/
def LaneCanonical (P : Params) (j : Nat) (m : Memory) : Prop := NaNCanonical (floatAt P m j)

/-- A loop brings about what one of its iterations does and every iteration keeps. -/
theorem forRange_brings {α : Type} {p : α → Prop} (writes : Nat → Prop) {n : Nat} {body : Nat → α → α} {x : α}
    (hbody : ∀ i, i < n → ∀ y, (¬ writes i → p y) → p (body i y)) (h : (¬ ∃ i, i < n ∧ writes i) → p x) :
    p (forRange n body x) := by
  induction n with
  | zero => exact h (by simp)
  | succ k ih =>
    refine hbody k (by omega) _ fun hk => ih (fun i hi => hbody i (by omega)) fun hnone => h ?_
    rintro ⟨i, hi, hw⟩
    obtain rfl | hlt : i = k ∨ i < k := by omega
    · exact hk hw
    · exact hnone ⟨i, hlt, hw⟩

section
variable {P : Params} {j k : Nat} {m m0 : Memory}

/-- A canonical float written makes its lane canonical and keeps every other. -/
theorem LaneCanonical.setFloat {v : F32} (hv : NaNCanonical v) (h : j ≠ k → LaneCanonical P j m) :
    LaneCanonical P j (setFloat P k v m) := by
  rw [LaneCanonical]
  by_cases hjk : j = k
  · rwa [hjk, floatAt_setFloat_same]
  · rw [floatAt_setFloat_other P k j v m hjk]
    exact h hjk

/-- A sample write is the writes of its two floats. -/
theorem setSample_eq_setFloat (z : Complex32) :
    setSample P k z m = Machine.setFloat P (2 * k + 1) z.im (Machine.setFloat P (2 * k) z.re m) := by
  have hre : sampleAddr P k = floatAddr P (2 * k) := by
    rw [sampleAddr, floatAddr]
    omega
  rw [setSample, hre]
  rfl

theorem LaneCanonical.setSample {z : Complex32} (hz : NaNCanonicalLanes z) (h : j / 2 ≠ k → LaneCanonical P j m) :
    LaneCanonical P j (setSample P k z m) := by
  rw [setSample_eq_setFloat]
  exact .setFloat hz.im fun him => .setFloat hz.re fun hre => h (by omega)

/-! ## The rotations -/

theorem prerotRam_laneCanonical (hn2 : P.n2.toNat = 2 * P.n4.toNat) (hj : j < P.n2.toNat) :
    LaneCanonical P j (prerotRam P m0) := by
  refine forRange_brings (fun i => j / 2 = i) (fun i _ m h => ?_) fun hnone => absurd ⟨j / 2, by omega, rfl⟩ hnone
  exact .setFloat (add32_nanCanonical _ _) fun hyr => .setFloat (sub32_nanCanonical _ _) fun hyi => h (by omega)

/-- Iteration `i` writes the pairs `i` from below and from above (41_rotation.md R93). -/
theorem postrotRam_laneCanonical (hn2 : P.n2.toNat = 2 * P.n4.toNat) (hj : j < P.n2.toNat) :
    LaneCanonical P j (postrotRam P m0) := by
  refine forRange_brings (fun i => j / 2 = i ∨ (P.n2.toNat - 1 - j) / 2 = i) (fun i hi m h => ?_) fun hnone => ?_
  · have hyr {k t0 t1} : NaNCanonical (postrotPair P m0 k t0 t1).yr := add32_nanCanonical _ _
    have hyi {k t0 t1} : NaNCanonical (postrotPair P m0 k t0 t1).yi := sub32_nanCanonical _ _
    exact .setFloat hyi fun h1 => .setFloat hyr fun h2 => .setFloat hyi fun h3 => .setFloat hyr fun h4 =>
      h (by omega)
  · obtain hlow | hhigh : j / 2 < (P.n4.toNat + 1) / 2 ∨ (P.n2.toNat - 1 - j) / 2 < (P.n4.toNat + 1) / 2 := by omega
    · exact absurd ⟨_, hlow, .inl rfl⟩ hnone
    · exact absurd ⟨_, hhigh, .inr rfl⟩ hnone

/-! ## The butterflies -/

/-- Float element `j` of the complex buffer is in group `g` of a butterfly. -/
structure LaneInGroup (spacing span j g : Nat) : Prop where
  low : g * spacing ≤ j / 2
  high : j / 2 < g * spacing + span

theorem bfly3Ram_laneCanonical (hj : ∃ g, g < P.n.toNat ∧ LaneInGroup P.mm.toNat 3 j g) :
    LaneCanonical P j (bfly3Ram P m0) := by
  refine forRange_brings (LaneInGroup P.mm.toNat 3 j) (fun g _ m h => ?_) (absurd hj)
  obtain ⟨h0, h1, h2⟩ := bfly3Group_nanCanonical P m0 (g * P.mm.toNat)
  refine .setSample h2 fun n2 => .setSample h1 fun n1 => .setSample h0 fun n0 => h ?_
  rintro ⟨hlow, hhigh⟩
  omega

theorem bfly4m1Ram_laneCanonical (hj : j / 2 < 4 * P.n.toNat) : LaneCanonical P j (bfly4m1Ram P m0) := by
  refine forRange_brings (fun g => j / 2 / 4 = g) (fun g _ m h => ?_) fun hnone => absurd ⟨_, by omega, rfl⟩ hnone
  obtain ⟨h0, h1, h2, h3⟩ := bfly4m1Group_nanCanonical P m0 (4 * g)
  exact .setSample h3 fun n3 => .setSample h2 fun n2 => .setSample h1 fun n1 => .setSample h0 fun n0 => h (by omega)

/-- Float element `j` is in one of the four samples, `mult` apart, of position `q` of a group at complex index `b`. -/
def LaneAtPosition (mult b j q : Nat) : Prop := ∃ r, r < 4 ∧ j / 2 = b + q + r * mult

theorem exists_laneAtPosition {spacing mult g : Nat} (h : LaneInGroup spacing (4 * mult) j g) :
    ∃ q, q < mult ∧ LaneAtPosition mult (g * spacing) j q := by
  obtain ⟨hlow, hhigh⟩ := h
  have hpos : 0 < mult := by omega
  have hsplit := Nat.div_add_mod' (j / 2 - g * spacing) mult
  have hquot : (j / 2 - g * spacing) / mult < 4 := by
    rw [Nat.div_lt_iff_lt_mul hpos]
    omega
  exact ⟨(j / 2 - g * spacing) % mult, Nat.mod_lt _ hpos, _, hquot, by omega⟩

theorem bfly4Iter_laneCanonical {g : Nat} (h : ¬ LaneInGroup P.mm.toNat (4 * P.m.toNat) j g → LaneCanonical P j m) :
    LaneCanonical P j (bfly4Iter P m0 g m) := by
  refine forRange_brings (LaneAtPosition P.m.toNat (g * P.mm.toNat) j) (fun q _ m' h' => ?_)
    fun hnone => h fun hin => hnone (exists_laneAtPosition hin)
  obtain ⟨h0, h1, h2, h3⟩ := bfly4Position_nanCanonical P m0 (g * P.mm.toNat) q
  refine .setSample h3 fun n3 => .setSample h2 fun n2 => .setSample h1 fun n1 => .setSample h0 fun n0 => h' ?_
  rintro ⟨r, hr, heq⟩
  obtain rfl | rfl | rfl | rfl : r = 0 ∨ r = 1 ∨ r = 2 ∨ r = 3 := by omega
  all_goals omega

theorem bfly4Ram_laneCanonical (hj : ∃ g, g < P.n.toNat ∧ LaneInGroup P.mm.toNat (4 * P.m.toNat) j g) :
    LaneCanonical P j (bfly4Ram P m0) :=
  forRange_brings (LaneInGroup P.mm.toNat (4 * P.m.toNat) j) (fun _ _ _ => bfly4Iter_laneCanonical) (absurd hj)

theorem bfly5Ram_laneCanonical (hj : ∃ g, g < P.n.toNat ∧ LaneInGroup P.mm.toNat 5 j g) :
    LaneCanonical P j (bfly5Ram P m0) := by
  refine forRange_brings (LaneInGroup P.mm.toNat 5 j) (fun g _ m h => ?_) (absurd hj)
  obtain ⟨h0, h1, h2, h3, h4⟩ := bfly5Group_nanCanonical P m0 (g * P.mm.toNat)
  refine .setSample h4 fun n4 => .setSample h3 fun n3 => .setSample h2 fun n2 => .setSample h1 fun n1 =>
    .setSample h0 fun n0 => h ?_
  rintro ⟨hlow, hhigh⟩
  omega

end

/-! ## The lanes of the write set -/

/-- Every 4-byte lane of the blocks has no NaN but the canonical one. -/
def LanesCanonical (bs : List Block) (m : Memory) : Prop :=
  ∀ b ∈ bs, ∀ k, 4 * k < b.len → NaNCanonical (m.readF32 (b.base + 4 * k))

section
variable {P : Params} {m : Memory}

theorem lanesCanonical_buffer {len : Nat} (h : ∀ j, 4 * j < len → LaneCanonical P j m) :
    LanesCanonical [{ base := P.bufAddr.toNat, len := len }] m := by
  intro b hb k hk
  rw [List.mem_singleton] at hb
  subst hb
  exact h k hk

theorem lanesCanonical_groups {n spacing span : Nat}
    (h : ∀ j, (∃ g, g < n ∧ LaneInGroup spacing span j g) → LaneCanonical P j m) :
    LanesCanonical (groupBlocks P.bufAddr.toNat n spacing span) m := by
  intro b hb k hk
  simp only [groupBlocks, List.mem_map, List.mem_range] at hb
  obtain ⟨g, hg, rfl⟩ := hb
  have haddr : P.bufAddr.toNat + 8 * (g * spacing) + 4 * k = floatAddr P (2 * (g * spacing) + k) := by
    rw [floatAddr]
    omega
  simp only at hk ⊢
  rw [haddr]
  exact h _ ⟨g, hg, by omega, by omega⟩

end

theorem commandRam_lanesCanonical {op : Instr} {c : Config} {P : Params} (m : Memory)
    (hacc : startCheck op c P = none) : LanesCanonical (footprint op P).writes (commandRam op P m) := by
  cases hz : zeroIterations op P with
  | true =>
    rw [footprint_zeroIterations hz]
    intro b hb
    cases hb
  | false =>
    simp only [Footprint.writes, footprint, hz, Bool.false_eq_true, if_false]
    cases op with
    | prerot =>
      exact lanesCanonical_buffer fun j hj =>
        prerotRam_laneCanonical (accepted_rotation (.inl rfl) hacc) (by omega)
    | postrot =>
      exact lanesCanonical_buffer fun j hj =>
        postrotRam_laneCanonical (accepted_rotation (.inr rfl) hacc) (by omega)
    | bfly3 => exact lanesCanonical_groups fun j => bfly3Ram_laneCanonical
    | bfly4m1 => exact lanesCanonical_buffer fun j hj => bfly4m1Ram_laneCanonical (by omega)
    | bfly4 => exact lanesCanonical_groups fun j => bfly4Ram_laneCanonical
    | bfly5 => exact lanesCanonical_groups fun j => bfly5Ram_laneCanonical

/-- Settles O22: the RAM after a completion is `commandRam`, by `commandRam_lanesCanonical`. -/
theorem everyNaNWrittenIsCanonical : Obligations.EveryNaNWrittenIsCanonical := by
  intro op P s t hs ht
  rw [exec_completing op P s hs] at ht
  cases ht
  exact commandRam_lanesCanonical s.mem hs.accepted

end Sys2Proof.Machine
end

section
/-!
What the completions of the rotations leave in the complex buffer (41_rotation.md R85 to R96): each loop brings about
what one of its iterations writes, since no other iteration writes the same floats.
-/

namespace Sys2Proof.Machine

section
variable {P : Params} {m m0 : Memory} {i j : Nat}

/-! ## The frame and the shared form of a completion -/

theorem completedBut_completeWith (s : State) (m : Memory) : CompletedBut s (s.completeWith m) := rfl

theorem inBlocks_buffer_of_outside {base len a : Nat} (h : a < base ∨ base + len ≤ a) :
    inBlocks [{ base := base, len := len }] a = false := by
  rw [Bool.eq_false_iff, Ne, inBlocks_singleton]
  omega

/-! ## PREROT -/

/-- The pair of iteration `i` of PREROT stands in the buffer, imaginary result first (41_rotation.md R88). -/
structure PrerotStored (P : Params) (m0 : Memory) (i : Nat) (m : Memory) : Prop where
  im : floatAt P m (2 * i) = (prerotPair P m0 i).yi
  re : floatAt P m (2 * i + 1) = (prerotPair P m0 i).yr

theorem prerotIter_stored : PrerotStored P m0 i (prerotIter P m0 i m) where
  im := by rw [prerotIter, floatAt_setFloat_other _ _ _ _ _ (by omega), floatAt_setFloat_same]
  re := floatAt_setFloat_same ..

theorem floatAt_prerotIter_other (h : j / 2 ≠ i) : floatAt P (prerotIter P m0 i m) j = floatAt P m j := by
  rw [prerotIter, floatAt_setFloat_other _ _ _ _ _ (by omega), floatAt_setFloat_other _ _ _ _ _ (by omega)]

/-- After its loop PREROT has stored the pair of every iteration. -/
theorem prerotRam_stored (hi : i < P.n4.toNat) : PrerotStored P m0 i (prerotRam P m0) := by
  refine forRange_brings (fun k => k = i) (fun k _ m h => ?_) fun hnone => absurd ⟨i, hi, rfl⟩ hnone
  by_cases hk : k = i
  · subst hk
    exact prerotIter_stored
  · obtain ⟨him, hre⟩ := h hk
    exact ⟨(floatAt_prerotIter_other (by omega)).trans him, (floatAt_prerotIter_other (by omega)).trans hre⟩

/-! ## POSTROT -/

/-- 41_rotation.md R94: at the middle pair the high rotation reads the low rotation's sample and trig pair. -/
theorem postrotHigh_eq_postrotLow (hn2 : P.n2.toNat = 2 * P.n4.toNat) (hmid : P.n4.toNat = 2 * i + 1) :
    postrotHigh P m0 i = postrotLow P m0 i := by
  have hsample : P.n2.toNat - 2 - 2 * i = 2 * i := by omega
  have htrig0 : P.n4.toNat - i - 1 = i := by omega
  have htrig1 : P.n2.toNat - i - 1 = P.n4.toNat + i := by omega
  rw [postrotHigh, postrotLow, hsample, htrig0, htrig1]

/-- The cross-write pattern of iteration `i` of POSTROT stands in the buffer (41_rotation.md R92, R93). -/
structure PostrotStored (P : Params) (m0 : Memory) (i : Nat) (m : Memory) : Prop where
  lowRe : floatAt P m (2 * i) = (postrotLow P m0 i).yr
  lowIm : floatAt P m (P.n2.toNat - 2 - 2 * i + 1) = (postrotLow P m0 i).yi
  highRe : floatAt P m (P.n2.toNat - 2 - 2 * i) = (postrotHigh P m0 i).yr
  highIm : floatAt P m (2 * i + 1) = (postrotHigh P m0 i).yi

/-- The four writes fall on four floats, or twice on the middle pair, where both rotations agree. -/
theorem postrotIter_stored (hn2 : P.n2.toNat = 2 * P.n4.toNat) (hi : i < (P.n4.toNat + 1) / 2) :
    PostrotStored P m0 i (postrotIter P m0 i m) := by
  by_cases hmid : P.n4.toNat = 2 * i + 1
  · have hslot : P.n2.toNat - 2 - 2 * i = 2 * i := by omega
    have hagree : postrotHigh P m0 i = postrotLow P m0 i := postrotHigh_eq_postrotLow hn2 hmid
    constructor <;>
      simp (disch := omega) only [postrotIter, hslot, hagree, floatAt_setFloat_same, floatAt_setFloat_other]
  · have hslots : 2 * i + 1 < P.n2.toNat - 2 - 2 * i := by omega
    constructor <;> simp (disch := omega) only [postrotIter, floatAt_setFloat_same, floatAt_setFloat_other]

theorem floatAt_postrotIter_other (hn2 : P.n2.toNat = 2 * P.n4.toNat) (hi : i < (P.n4.toNat + 1) / 2)
    (hlow : j / 2 ≠ i) (hhigh : j / 2 ≠ P.n4.toNat - 1 - i) :
    floatAt P (postrotIter P m0 i m) j = floatAt P m j := by
  simp only [postrotIter]
  rw [floatAt_setFloat_other, floatAt_setFloat_other, floatAt_setFloat_other, floatAt_setFloat_other] <;> omega

/-- After its loop POSTROT has stored the cross pattern of every iteration: no other iteration has a slot of it. -/
theorem postrotRam_stored (hn2 : P.n2.toNat = 2 * P.n4.toNat) (hi : i < (P.n4.toNat + 1) / 2) :
    PostrotStored P m0 i (postrotRam P m0) := by
  refine forRange_brings (fun k => k = i) (fun k hk m h => ?_) fun hnone => absurd ⟨i, hi, rfl⟩ hnone
  by_cases hki : k = i
  · subst hki
    exact postrotIter_stored hn2 hk
  · have hkeep {j} (hj : j / 2 = i ∨ j / 2 = P.n4.toNat - 1 - i) :
        floatAt P (postrotIter P m0 k m) j = floatAt P m j :=
      floatAt_postrotIter_other hn2 hk (by omega) (by omega)
    obtain ⟨hlowRe, hlowIm, hhighRe, hhighIm⟩ := h hki
    exact ⟨(hkeep (by omega)).trans hlowRe, (hkeep (by omega)).trans hlowIm, (hkeep (by omega)).trans hhighRe,
      (hkeep (by omega)).trans hhighIm⟩

end

/-- Settles O21: an odd N4 is `2 * i + 1` for the iteration `i` in question. -/
theorem postrotMiddlePairAgrees : Obligations.PostrotMiddlePairAgrees := by
  intro P m hn2 hodd
  exact postrotHigh_eq_postrotLow hn2 (by omega)

/-- Settles O15, by `prerotRam_stored` for the pairs and `prerotRam_keeps` for the frame. -/
theorem prerotWritesTheRotatedPairs : Obligations.PrerotWritesTheRotatedPairs := by
  intro s P hs
  have hn2 : P.n2.toNat = 2 * P.n4.toNat := accepted_rotation (.inl rfl) hs.accepted
  refine ⟨_, exec_completing _ P s hs, completedBut_completeWith s _, fun i hi => ?_, fun a hout => ?_⟩
  · obtain ⟨him, hre⟩ := prerotRam_stored (m0 := s.mem) hi
    exact ⟨him, hre⟩
  · exact prerotRam_keeps hn2 (byte_keptInside _ (inBlocks_buffer_of_outside hout)) rfl

/-- Settles O16, by `postrotRam_stored` for the cross pattern and `postrotRam_keeps` for the frame. -/
theorem postrotWritesTheCrossPattern : Obligations.PostrotWritesTheCrossPattern := by
  intro s P hs
  have hn2 : P.n2.toNat = 2 * P.n4.toNat := accepted_rotation (.inr rfl) hs.accepted
  refine ⟨_, exec_completing _ P s hs, completedBut_completeWith s _, fun i hi => ?_, fun a hout => ?_⟩
  · obtain ⟨hlowRe, hlowIm, hhighRe, hhighIm⟩ := postrotRam_stored (m0 := s.mem) hn2 hi
    exact ⟨hlowRe, hlowIm, hhighRe, hhighIm⟩
  · exact postrotRam_keeps hn2 (byte_keptInside _ (inBlocks_buffer_of_outside hout)) rfl

end Sys2Proof.Machine
end

section
/-!
The sign of a scaled lane (42_butterflies.md R99): negation is the other sign on the same magnitude, so `round32` and
`mul32` commute with it, but for the canonical NaN, which a sum and a difference treat alike.
-/

namespace Sys2Proof.Machine

theorem sign_neg32 (x : F32) : (neg32 x).getLsbD 31 = !x.getLsbD 31 := by simp [neg32]

theorem magnitude32_neg32 (x : F32) : magnitude32 (neg32 x) = magnitude32 x := by
  rw [magnitude32, neg32, BitVec.toNat_xor, Nat.xor_mod_two_pow]
  exact Nat.xor_zero _

theorem neg32_neg32 (x : F32) : neg32 (neg32 x) = x :=
  eq_of_sign_magnitude (by rw [sign_neg32, sign_neg32, Bool.not_not])
    (by rw [magnitude32_neg32, magnitude32_neg32])

theorem neg32_inf32 (neg : Bool) : neg32 (inf32 neg) = inf32 (!neg) := by cases neg <;> rfl

theorem neg32_zero32 (neg : Bool) : neg32 (zero32 neg) = zero32 (!neg) := by cases neg <;> rfl

theorem neg32_pattern32 (neg : Bool) {g : Nat} (hg : g < 2 ^ 31) : neg32 (pattern32 neg g) = pattern32 (!neg) g :=
  eq_of_sign_magnitude (by rw [sign_neg32, sign_pattern32 neg hg, sign_pattern32 _ hg])
    (by rw [magnitude32_neg32, magnitude32_pattern32 neg hg, magnitude32_pattern32 _ hg])

/-- Rounding is symmetric in the sign (40_numerics.md R70). -/
theorem neg32_round32 (neg : Bool) (m : Nat) (e : Int) : neg32 (round32 neg m e) = round32 (!neg) m e := by
  by_cases hm : m = 0
  · rw [hm, round32_zero, round32_zero, neg32_zero32]
  · rw [round32_of_ne_zero neg e hm, round32_of_ne_zero _ e hm]
    split
    next => exact neg32_inf32 neg
    next hfin => exact neg32_pattern32 neg (by omega)

/-- Negating a factor negates the product, but for a NaN, which is the canonical one both times. -/
theorem mul32_neg32_left (x e : F32) :
    mul32 (neg32 x) e = neg32 (mul32 x e) ∨ (mul32 (neg32 x) e = canonicalNaN ∧ mul32 x e = canonicalNaN) := by
  rw [mul32, mul32, unpack32_neg32]
  have hsign (n k : Bool) : ((!n) != k) = !(n != k) := by cases n <;> cases k <;> rfl
  cases unpack32 x with
  | nan => exact .inr ⟨rfl, rfl⟩
  | inf n =>
    cases unpack32 e with
    | nan => exact .inr ⟨rfl, rfl⟩
    | inf k => exact .inl (by simp only [FloatVal.neg, hsign, neg32_inf32])
    | fin k m _ =>
      by_cases hm : m = 0
      · exact .inr ⟨if_pos hm, if_pos hm⟩
      · exact .inl (by simp only [FloatVal.neg, hsign, neg32_inf32, if_neg hm])
  | fin n m _ =>
    cases unpack32 e with
    | nan => exact .inr ⟨rfl, rfl⟩
    | inf k =>
      by_cases hm : m = 0
      · exact .inr ⟨if_pos hm, if_pos hm⟩
      · exact .inl (by simp only [FloatVal.neg, hsign, neg32_inf32, if_neg hm])
    | fin k _ _ => exact .inl (by simp only [FloatVal.neg, hsign, neg32_round32])

theorem add32_mul32_neg32 (a x e : F32) : add32 a (mul32 (neg32 x) e) = sub32 a (mul32 x e) := by
  obtain hneg | ⟨hnan, hnan'⟩ := mul32_neg32_left x e
  · rw [hneg, sub32]
  · have hcanonical : isNaN32 canonicalNaN := show unpack32 canonicalNaN = .nan by decide
    rw [hnan, hnan', sub32, add32_of_isNaN32 (.inr hcanonical), add32_of_isNaN32 (.inr (isNaN32_neg32 hcanonical))]

/-- Settles O52: the second half is the first one for the negated lane. -/
theorem negatedLaneScalesAlike : Obligations.NegatedLaneScalesAlike := by
  intro a x e
  refine ⟨add32_mul32_neg32 a x e, ?_⟩
  rw [← add32_mul32_neg32, neg32_neg32]

end Sys2Proof.Machine
end

section
/-!
What the completions of the butterflies leave in the complex buffer (42_butterflies.md R97 to R106). Each group, and
each position of a group of BFLY4, writes a list of samples; the lists of two groups or positions share no sample
(20_memory.md R53), so what one of them stores stands after the loop.
-/

namespace Sys2Proof.Machine

/-! ## Lists of sample writes -/

/-- A write of one complex sample. -/
structure SampleWrite where
  index : Nat
  value : Complex32

/-- Performs the writes in their order. -/
def putSamples (P : Params) (ws : List SampleWrite) (m : Memory) : Memory :=
  ws.foldl (fun m' w => setSample P w.index w.value m') m

/-- Every write of the list stands in the buffer. -/
def Stored (P : Params) (ws : List SampleWrite) (m : Memory) : Prop := ∀ w ∈ ws, sample P m w.index = w.value

/-- No sample of one list is one of the other. -/
def Apart (xs ys : List SampleWrite) : Prop := ∀ x ∈ xs, ∀ y ∈ ys, x.index ≠ y.index

/-- Every sample of the list is in group `g` of a butterfly. -/
def WritesInGroup (spacing span g : Nat) (ws : List SampleWrite) : Prop :=
  ∀ w ∈ ws, g * spacing ≤ w.index ∧ w.index < g * spacing + span

section
variable {P : Params} {m m0 : Memory} {n i : Nat}

theorem sample_putSamples_other {k : Nat} {ws : List SampleWrite} (h : ∀ w ∈ ws, k ≠ w.index) :
    sample P (putSamples P ws m) k = sample P m k := by
  induction ws generalizing m with
  | nil => rfl
  | cons w ws ih =>
    obtain ⟨hw, hws⟩ := List.forall_mem_cons.mp h
    exact (ih hws).trans (sample_setSample_other P w.index k w.value m hw)

theorem stored_putSamples {ws : List SampleWrite} (h : ws.Pairwise fun v w => v.index ≠ w.index) :
    Stored P ws (putSamples P ws m) := by
  induction ws generalizing m with
  | nil => exact fun _ hw => absurd hw List.not_mem_nil
  | cons w ws ih =>
    obtain ⟨hw, hws⟩ := List.pairwise_cons.mp h
    exact List.forall_mem_cons.mpr
      ⟨(sample_putSamples_other hw).trans (sample_setSample_same P w.index w.value m), ih hws⟩

theorem Stored.putSamples {xs ys : List SampleWrite} (h : Stored P xs m) (hapart : Apart xs ys) :
    Stored P xs (Machine.putSamples P ys m) :=
  fun x hx => (sample_putSamples_other (hapart x hx)).trans (h x hx)

/-- After a loop the writes of every iteration stand, where no other iteration writes the same samples. -/
theorem forRange_stored {ws : Nat → List SampleWrite} (hi : i < n)
    (hdistinct : (ws i).Pairwise fun v w => v.index ≠ w.index) (hapart : ∀ k, k < n → k ≠ i → Apart (ws i) (ws k)) :
    Stored P (ws i) (forRange n (fun k => putSamples P (ws k)) m) := by
  refine forRange_brings (fun k => k = i) (fun k hk m h => ?_) fun hnone => absurd ⟨i, hi, rfl⟩ hnone
  by_cases hki : k = i
  · rw [hki]
    exact stored_putSamples hdistinct
  · exact (h hki).putSamples (hapart k hk hki)

/-! ## Groups -/

theorem WritesInGroup.apart {spacing span k : Nat} {xs ys : List SampleWrite} (hspan : span ≤ spacing) (hne : k ≠ i)
    (hxs : WritesInGroup spacing span i xs) (hys : WritesInGroup spacing span k ys) : Apart xs ys := by
  intro x hx y hy
  obtain ⟨hxlow, hxhigh⟩ := hxs x hx
  obtain ⟨hylow, hyhigh⟩ := hys y hy
  obtain hlt | hlt : k < i ∨ i < k := by omega
  · have hnext : (k + 1) * spacing ≤ i * spacing := Nat.mul_le_mul_right _ hlt
    rw [Nat.succ_mul] at hnext
    omega
  · have hnext : (i + 1) * spacing ≤ k * spacing := Nat.mul_le_mul_right _ hlt
    rw [Nat.succ_mul] at hnext
    omega

/-- After the loop of a unit-multiplicity butterfly the writes of every group stand. -/
theorem groups_stored {spacing span : Nat} {ws : Nat → List SampleWrite} (hspan : 2 ≤ n → span ≤ spacing)
    (hin : ∀ g, WritesInGroup spacing span g (ws g)) (hdistinct : (ws i).Pairwise fun v w => v.index ≠ w.index)
    (hi : i < n) : Stored P (ws i) (forRange n (fun k => putSamples P (ws k)) m) :=
  forRange_stored hi hdistinct fun k hk hne => (hin i).apart (hspan (by omega)) hne (hin k)

/-- 20_memory.md R53(a): two groups of an accepted butterfly lie their span apart. -/
theorem accepted_span_le {op : Instr} {c : Config} {span : Nat} (hop : spacedSpan op P = some span)
    (hacc : startCheck op c P = none) (hn : 2 ≤ P.n.toNat) : span ≤ P.mm.toNat := by
  cases hz : zeroIterations op P with
  | false =>
    obtain ⟨_, _, _, hfar, _⟩ := (startCheck_iterations hz).mp hacc
    exact Nat.le_of_not_lt fun hclose => hfar ⟨span, hop, hn, hclose⟩
  | true =>
    have hn0 : P.n ≠ 0#32 := by
      intro h
      simp [h] at hn
    cases op with
    | bfly3 | bfly5 => simp [zeroIterations, hn0] at hz
    | bfly4 =>
      have hm : P.m = 0#32 := by simpa [zeroIterations, hn0] using hz
      cases hop
      simp [hm]
    | prerot | postrot | bfly4m1 => cases hop

/-! ## BFLY3 -/

/-- What group `g` of BFLY3 writes (42_butterflies.md R98). -/
def bfly3Writes (P : Params) (m0 : Memory) (g : Nat) : List SampleWrite :=
  let b := g * P.mm.toNat
  let out := bfly3Group P m0 b
  [⟨b, out.g0⟩, ⟨b + 1, out.g1⟩, ⟨b + 2, out.g2⟩]

theorem bfly3Ram_eq : bfly3Ram P m0 = forRange P.n.toNat (fun g => putSamples P (bfly3Writes P m0 g)) m0 := rfl

theorem bfly3Ram_stored {c : Config} (hacc : startCheck .bfly3 c P = none) (hi : i < P.n.toNat) :
    Stored P (bfly3Writes P m0 i) (bfly3Ram P m0) := by
  rw [bfly3Ram_eq]
  exact groups_stored (accepted_span_le rfl hacc) (fun g => by simp [WritesInGroup, bfly3Writes])
    (by simp [bfly3Writes]) hi

/-! ## BFLY4M1 -/

/-- What group `g` of BFLY4M1 writes (42_butterflies.md R100). -/
def bfly4m1Writes (P : Params) (m0 : Memory) (g : Nat) : List SampleWrite :=
  let b := 4 * g
  let out := bfly4m1Group P m0 b
  [⟨b, out.g0⟩, ⟨b + 1, out.g1⟩, ⟨b + 2, out.g2⟩, ⟨b + 3, out.g3⟩]

theorem bfly4m1Ram_eq : bfly4m1Ram P m0 = forRange P.n.toNat (fun g => putSamples P (bfly4m1Writes P m0 g)) m0 := rfl

/-- The groups of BFLY4M1 are contiguous: spacing and span are both 4 samples. -/
theorem bfly4m1Ram_stored (hi : i < P.n.toNat) : Stored P (bfly4m1Writes P m0 i) (bfly4m1Ram P m0) := by
  rw [bfly4m1Ram_eq]
  exact groups_stored (fun _ => le_refl 4) (fun g => by simp [WritesInGroup, bfly4m1Writes, Nat.mul_comm])
    (by simp [bfly4m1Writes]) hi

/-! ## BFLY4 -/

/-- What position `j` of group `g` of BFLY4 writes (42_butterflies.md R102). -/
def bfly4Writes (P : Params) (m0 : Memory) (g j : Nat) : List SampleWrite :=
  let b := g * P.mm.toNat
  let out := bfly4Position P m0 b j
  [⟨b + j, out.g0⟩, ⟨b + j + P.m.toNat, out.g1⟩, ⟨b + j + 2 * P.m.toNat, out.g2⟩, ⟨b + j + 3 * P.m.toNat, out.g3⟩]

theorem bfly4Iter_eq (g : Nat) :
    bfly4Iter P m0 g m = forRange P.m.toNat (fun j => putSamples P (bfly4Writes P m0 g j)) m := rfl

theorem bfly4Writes_inGroup {g j : Nat} (hj : j < P.m.toNat) :
    WritesInGroup P.mm.toNat (4 * P.m.toNat) g (bfly4Writes P m0 g j) := by
  simp only [WritesInGroup, bfly4Writes, List.forall_mem_cons, List.not_mem_nil, IsEmpty.forall_iff, implies_true,
    and_true]
  omega

/-- The loop over a group stores each of its positions: two positions below M differ modulo M. -/
theorem bfly4Iter_stored {g j : Nat} (hj : j < P.m.toNat) :
    Stored P (bfly4Writes P m0 g j) (bfly4Iter P m0 g m) := by
  rw [bfly4Iter_eq]
  refine forRange_stored hj ?_ fun k hk hne => ?_
  · simp only [bfly4Writes, List.pairwise_cons, List.forall_mem_cons, List.not_mem_nil, IsEmpty.forall_iff,
      implies_true, List.Pairwise.nil, and_true]
    omega
  · simp only [Apart, bfly4Writes, List.forall_mem_cons, List.not_mem_nil, IsEmpty.forall_iff, implies_true, and_true]
    omega

/-- After both loops the writes of every position of every group stand: no other group has a sample of it. -/
theorem bfly4Ram_stored {c : Config} {j : Nat} (hacc : startCheck .bfly4 c P = none) (hi : i < P.n.toNat)
    (hj : j < P.m.toNat) : Stored P (bfly4Writes P m0 i j) (bfly4Ram P m0) := by
  refine forRange_brings (fun g => g = i) (fun g hg m h => ?_) fun hnone => absurd ⟨i, hi, rfl⟩ hnone
  by_cases hgi : g = i
  · rw [hgi]
    exact bfly4Iter_stored hj
  · have hspan : 4 * P.m.toNat ≤ P.mm.toNat := accepted_span_le rfl hacc (by omega)
    rw [bfly4Iter_eq]
    exact forRange_keeps _ _ _ _ (h hgi) fun k hk m' hm' =>
      hm'.putSamples ((bfly4Writes_inGroup hj).apart hspan hgi (bfly4Writes_inGroup hk))

/-! ## BFLY5 -/

/-- What group `g` of BFLY5 writes (42_butterflies.md R105). -/
def bfly5Writes (P : Params) (m0 : Memory) (g : Nat) : List SampleWrite :=
  let b := g * P.mm.toNat
  let out := bfly5Group P m0 b
  [⟨b, out.g0⟩, ⟨b + 1, out.g1⟩, ⟨b + 2, out.g2⟩, ⟨b + 3, out.g3⟩, ⟨b + 4, out.g4⟩]

theorem bfly5Ram_eq : bfly5Ram P m0 = forRange P.n.toNat (fun g => putSamples P (bfly5Writes P m0 g)) m0 := rfl

theorem bfly5Ram_stored {c : Config} (hacc : startCheck .bfly5 c P = none) (hi : i < P.n.toNat) :
    Stored P (bfly5Writes P m0 i) (bfly5Ram P m0) := by
  rw [bfly5Ram_eq]
  exact groups_stored (accepted_span_le rfl hacc) (fun g => by simp [WritesInGroup, bfly5Writes])
    (by simp [bfly5Writes]) hi

/-! ## The frame -/

theorem inBlocks_groups_of_outside {base spacing span a : Nat} (h : ¬ InGroups base n spacing span a) :
    inBlocks (groupBlocks base n spacing span) a = false :=
  Bool.eq_false_iff.mpr fun hin => h ((inBlocks_groupBlocks ..).mp hin)

end

/-! ## The obligations -/

/-- Settles O17, by `bfly3Ram_stored` for the groups and `bfly3Ram_keeps` for the frame. -/
theorem bfly3ComputesEveryGroup : Obligations.Bfly3ComputesEveryGroup := by
  intro s P hs
  refine ⟨_, exec_completing _ P s hs, completedBut_completeWith s _, fun i hi => ?_, fun a hout => ?_⟩
  · have hstored := bfly3Ram_stored (m0 := s.mem) hs.accepted hi
    simp only [Stored, bfly3Writes, List.forall_mem_cons] at hstored
    obtain ⟨h0, h1, h2, _⟩ := hstored
    exact ⟨h0, h1, h2⟩
  · exact bfly3Ram_keeps (byte_keptInside _ (inBlocks_groups_of_outside hout)) rfl

/-- Settles O18, by `bfly4m1Ram_stored` for the groups and `bfly4m1Ram_keeps` for the frame. -/
theorem bfly4m1ComputesEveryGroup : Obligations.Bfly4m1ComputesEveryGroup := by
  intro s P hs
  refine ⟨_, exec_completing _ P s hs, completedBut_completeWith s _, fun i hi => ?_, fun a hout => ?_⟩
  · have hstored := bfly4m1Ram_stored (m0 := s.mem) hi
    simp only [Stored, bfly4m1Writes, List.forall_mem_cons] at hstored
    obtain ⟨h0, h1, h2, h3, _⟩ := hstored
    exact ⟨h0, h1, h2, h3⟩
  · exact bfly4m1Ram_keeps (byte_keptInside _ (inBlocks_buffer_of_outside (by omega))) rfl

/-- Settles O19, by `bfly4Ram_stored` for the positions and `bfly4Ram_keeps` for the frame. -/
theorem bfly4ComputesEveryPosition : Obligations.Bfly4ComputesEveryPosition := by
  intro s P hs
  refine ⟨_, exec_completing _ P s hs, completedBut_completeWith s _, fun i j hi hj => ?_, fun a hout => ?_⟩
  · have hstored := bfly4Ram_stored (m0 := s.mem) hs.accepted hi hj
    simp only [Stored, bfly4Writes, List.forall_mem_cons] at hstored
    obtain ⟨h0, h1, h2, h3, _⟩ := hstored
    exact ⟨h0, h1, h2, h3⟩
  · exact bfly4Ram_keeps (byte_keptInside _ (inBlocks_groups_of_outside hout)) rfl

/-- Settles O20, by `bfly5Ram_stored` for the groups and `bfly5Ram_keeps` for the frame. -/
theorem bfly5ComputesEveryGroup : Obligations.Bfly5ComputesEveryGroup := by
  intro s P hs
  refine ⟨_, exec_completing _ P s hs, completedBut_completeWith s _, fun i hi => ?_, fun a hout => ?_⟩
  · have hstored := bfly5Ram_stored (m0 := s.mem) hs.accepted hi
    simp only [Stored, bfly5Writes, List.forall_mem_cons] at hstored
    obtain ⟨h0, h1, h2, h3, h4, _⟩ := hstored
    exact ⟨h0, h1, h2, h3, h4⟩
  · exact bfly5Ram_keeps (byte_keptInside _ (inBlocks_groups_of_outside hout)) rfl

end Sys2Proof.Machine
end

section
/-!
The start of a command, whole (60_exceptions.md R111, R115, R117, R118): every CMD write is dropped, rejected or
accepted, and what each leaves.
-/

namespace Sys2Proof.Machine

/-! ## A command's verdict -/

theorem startVerdict_of_some {op : Instr} {c : Config} {P : Params} {r : Rejection} (h : startCheck op c P = some r) :
    startVerdict op c P = .error r := by
  simp only [startVerdict, h]

theorem startVerdict_of_none {op : Instr} {c : Config} {P : Params} (h : startCheck op c P = none) :
    startVerdict op c P = .ok op := by
  simp only [startVerdict, h]

/-! ## `exec` in the host's step -/

theorem busy_of_pending {s : State} {p : Pending} (h : s.pending = some p) : s.busy = true := by
  simp only [State.busy, h, Option.isSome_some]

theorem not_busy_of_idle {s : State} (h : s.pending = none) : s.busy = false := by
  simp only [State.busy, h, Option.isSome_none]

section
variable {op : Instr} {s : State} (hm : s.mover = .host)
include hm

theorem exec_host_dropped (hbusy : s.busy = true) : exec op s = .next s.dropCommand := by
  rw [exec_host op s hm, startCommand_busy _ _ s hbusy]

theorem exec_host_rejected {r : Rejection} (hidle : s.busy = false)
    (hcheck : startCheck op s.config s.params = some r) : exec op s = .next ((s.beginStart (encode op)).reject r) := by
  rw [exec_host op s hm, startCommand_error _ _ s r hidle (startVerdict_of_some hcheck)]

theorem exec_host_accepted (hidle : s.busy = false) (hcheck : startCheck op s.config s.params = none) :
    exec op s = .next ((s.beginStart (encode op)).accept op) := by
  rw [exec_host op s hm, startCommand_ok _ _ s op hidle (startVerdict_of_none hcheck)]

end

/-- Settles O9: the accepted start is `beginStart` and then `accept`. -/
theorem acceptedStartMakesTheCommandPending : Obligations.AcceptedStartMakesTheCommandPending := by
  intro op s hm hidle hcheck
  exact exec_host_accepted hm (not_busy_of_idle hidle) hcheck

/-- Settles O10: the rejected start is `beginStart` and then `reject`. -/
theorem rejectedStartReportsAndTouchesNothing : Obligations.RejectedStartReportsAndTouchesNothing := by
  intro op s r hm hidle hcheck
  exact exec_host_rejected hm (not_busy_of_idle hidle) hcheck

/-- Settles O11: a pending command makes the engine busy, and the start is `dropCommand`. -/
theorem busyEngineDropsEveryStart : Obligations.BusyEngineDropsEveryStart := by
  intro op s p hm hp
  exact exec_host_dropped hm (busy_of_pending hp)

/-! ## A CMD write of any word -/

theorem runWord_illegal {v : Word} {e : DecodeError} (s : State) (h : decode v = .error e) :
    runWord v s = .next (s.startIllegal v) := by
  simp only [runWord, h]

/-- While a command is pending even a word that spells no command is dropped (60_exceptions.md R111 step 1). -/
theorem runWord_dropped {v : Word} {s : State} (hm : s.mover = .host) (hbusy : s.busy = true) :
    runWord v s = .next s.dropCommand := by
  cases hdecode : decode v with
  | ok op => rw [runWord_of_decode s hdecode, exec_host_dropped hm hbusy]
  | error e => rw [runWord_illegal s hdecode, State.startIllegal, startCommand_busy _ _ s hbusy]

theorem runWord_illegal_idle {v : Word} {e : DecodeError} {s : State} (hidle : s.busy = false)
    (h : decode v = .error e) : runWord v s = .next ((s.beginStart v).reject illegalWord) := by
  rw [runWord_illegal s h, State.startIllegal, startCommand_error _ _ s illegalWord hidle rfl]

/-- Settles O8: the write is dropped by `runWord_dropped`, its word illegal by `runWord_illegal_idle`, and a command's
word is its `encode`, which `exec` starts. -/
theorem cmdWriteIsDroppedRejectedOrAccepted : Obligations.CmdWriteIsDroppedRejectedOrAccepted := by
  intro s rest x hturns
  rw [step_cmdWrite hturns]
  refine ⟨fun hbusy => runWord_dropped rfl hbusy, fun hidle => ⟨?illegal, ?rejected, ?accepted⟩⟩
  case illegal =>
    intro e hdecode
    exact runWord_illegal_idle hidle hdecode
  case rejected =>
    intro op r hdecode hcheck
    rw [runWord_of_decode _ hdecode, (decode_eq_ok_iff _ op).mp hdecode]
    exact exec_host_rejected rfl hidle hcheck
  case accepted =>
    intro op hdecode hcheck
    rw [runWord_of_decode _ hdecode, (decode_eq_ok_iff _ op).mp hdecode]
    exact exec_host_accepted rfl hidle hcheck

/-! ## Commands with zero iterations -/

/-- A rotation without iterations has `N4 = 0`, so the sizes agree where `N2 = 0` (60_exceptions.md R115). -/
theorem rotation_sizes_of_zeroIterations {op : Instr} {P : Params} (hz : zeroIterations op P = true)
    (hn2 : isRotation op → P.n2 = 0) (hop : isRotation op) : P.n2.toNat = 2 * P.n4.toNat := by
  have hn4 : P.n4 = 0 := by
    obtain rfl | rfl := hop <;> simpa only [zeroIterations, beq_iff_eq] using hz
  rw [hn2 hop, hn4]
  rfl

/-- The completion of a command with zero iterations leaves the RAM as it is. -/
theorem exec_completing_zeroIterations {op : Instr} {P : Params} {s : State} (hz : zeroIterations op P = true)
    (h : Completing op P s) : exec op s = .next (s.completeWith s.mem) := by
  rw [exec_completing op P s h, commandRam_zeroIterations _ hz]

/-- Settles O14: the checks pass by `startCheck_zeroIterations`; then the start, the empty footprint and the
completion that leaves the RAM. -/
theorem zeroIterationCommandTouchesNoMemory : Obligations.ZeroIterationCommandTouchesNoMemory := by
  intro op P hz hn2
  have hcheck (c : Config) : startCheck op c P = none :=
    (startCheck_zeroIterations hz).mpr (rotation_sizes_of_zeroIterations hz hn2)
  refine ⟨hcheck, ?start, ?footprint, ?completion⟩
  case start =>
    rintro s hm hidle rfl
    exact exec_host_accepted hm (not_busy_of_idle hidle) (hcheck s.config)
  case footprint =>
    intro a
    rw [footprint_zeroIterations hz]
    exact ⟨rfl, rfl⟩
  case completion =>
    intro s hm hp
    exact exec_completing_zeroIterations hz ⟨hm, hp, hcheck s.config⟩

end Sys2Proof.Machine
end

section
/-!
Which steps answer (60_exceptions.md R123, R132; 10_state.md R38; 20_memory.md R42, R49): an access of IMDCT-RBE always
does, every other access is refused, and no step of a machine with the invariant faults.
-/

namespace Sys2Proof.Machine

/-! ## The accesses of IMDCT-RBE, spelled out -/

theorem offset?_eq_some_iff {c : Config} {addr off : Nat} :
    c.offset? addr = some off ↔ addr = c.engineBase + off ∧ off < registerBlockBytes + c.memBytes := by
  unfold Config.offset?
  split
  next hin =>
    simp only [Option.some.injEq]
    omega
  next hout =>
    simp only [reduceCtorEq, false_iff]
    omega

theorem registerAccessOk_iff {width off : Nat} : registerAccessOk width off = true ↔ width = 4 ∧ off % 4 = 0 := by
  simp only [registerAccessOk, Bool.and_eq_true, beq_iff_eq]

theorem ramAccessOk_iff {c : Config} {width a : Nat} :
    ramAccessOk c width a = true ↔
      (width = 1 ∨ width = 2 ∨ width = 4 ∨ width = 8) ∧ a % width = 0 ∧ a + width ≤ c.memBytes := by
  simp only [ramAccessOk, Bool.and_eq_true, Bool.or_eq_true, beq_iff_eq, decide_eq_true_eq, and_assoc, or_assoc]

/-- An access of IMDCT-RBE is one of the register block or one of the RAM window. -/
theorem access_wf_iff {c : Config} {x : Access} :
    x.wf c = true ↔ ∃ off, x.addr = c.engineBase + off ∧
      ((off < registerBlockBytes ∧ registerAccessOk x.width off = true) ∨
        ∃ a, off = registerBlockBytes + a ∧ ramAccessOk c x.width a = true) := by
  constructor
  · intro hwf
    cases hoff : c.offset? x.addr with
    | none => simp [Access.wf, hoff] at hwf
    | some off =>
      simp only [Access.wf, hoff] at hwf
      refine ⟨off, (offset?_eq_some_iff.mp hoff).1, ?_⟩
      split at hwf
      next hreg => exact .inl ⟨hreg, hwf⟩
      next hreg => exact .inr ⟨off - registerBlockBytes, by omega, hwf⟩
  · rintro ⟨off, haddr, ⟨hreg, hok⟩ | ⟨a, rfl, hok⟩⟩
    · have hoff : c.offset? x.addr = some off := offset?_eq_some_iff.mpr ⟨haddr, by omega⟩
      simp only [Access.wf, hoff, if_pos hreg, hok]
    · have hbounds := ramAccessOk_bounds _ _ _ hok
      have hoff : c.offset? x.addr = some (registerBlockBytes + a) := offset?_eq_some_iff.mpr ⟨haddr, by omega⟩
      simp only [Access.wf, hoff, if_neg (Nat.not_lt.mpr (Nat.le_add_right _ _)), Nat.add_sub_cancel_left, hok]

/-! ## The host's step -/

section
variable {x : Access} {s : State}

theorem runWord_next (v : Word) (hm : s.mover = .host) : ∃ t, runWord v s = .next t := by
  cases hdecode : decode v with
  | ok op => exact ⟨_, (runWord_of_decode s hdecode).trans (exec_host op s hm)⟩
  | error e => exact ⟨_, runWord_illegal s hdecode⟩

theorem hostStep_next (hm : s.mover = .host) (hwf : x.wf s.config = true) : ∃ t, hostStep x s = .next t := by
  unfold hostStep
  cases haction : hostAction x s with
  | start v => exact runWord_next v hm
  | moved t => exact ⟨t, rfl⟩
  | refused r =>
    obtain ⟨_, _, hbad⟩ | ⟨_, ⟨_, _, he⟩ | ⟨_, _, he⟩ | ⟨_, _, he⟩ | ⟨_, he⟩ | ⟨_, he⟩ | ⟨_, _, _, he⟩ |
      ⟨_, _, _, _, he⟩⟩ := hostAction_cases x s
    · exact absurd (hwf.symm.trans hbad) (by decide)
    all_goals cases haction.symm.trans he

theorem hostStep_refused (hwf : x.wf s.config = false) : ∃ r, hostStep x s = .refused r := by
  obtain ⟨r, he, _⟩ | ⟨hgood, _⟩ := hostAction_cases x s
  · exact ⟨r, by simp only [hostStep, he]⟩
  · exact absurd (hwf.symm.trans hgood) (by decide)

end

/-- Settles O43: `access_wf_iff` spells the accesses out, and the step answers exactly for them. -/
theorem exactlyTheIllFormedAccessesAreRefused : Obligations.ExactlyTheIllFormedAccessesAreRefused := by
  intro s rest x hturns isAccess
  have hwf : x.wf s.config = true ↔ isAccess := by
    simp only [access_wf_iff, registerAccessOk_iff, ramAccessOk_iff]
    rfl
  rw [step_host s x rest hturns]
  refine ⟨hwf, fun hgood => hostStep_next rfl (hwf.mpr hgood), fun hbad => hostStep_refused ?_⟩
  exact Bool.eq_false_iff.mpr (mt hwf.mp hbad)

/-! ## No fault -/

theorem hostStep_noFault {x : Access} {s : State} (hm : s.mover = .host) : NoFault (hostStep x s) := by
  intro e hfault
  cases hwf : x.wf s.config with
  | true =>
    obtain ⟨t, he⟩ := hostStep_next hm hwf
    cases he.symm.trans hfault
  | false =>
    obtain ⟨r, he⟩ := hostStep_refused hwf
    cases he.symm.trans hfault

/-- The pending command of a machine with the invariant is an accepted one, so it completes. -/
theorem Inv.engineStep_noFault {s : State} (h : Inv s) : NoFault (engineStep s) := by
  intro e hfault
  cases hp : s.pending with
  | none => cases (engineStep_idle s hp).symm.trans hfault
  | some p =>
    rw [engineStep_pending s p hp,
      exec_engine_accepted (s := { s with mover := .engine }) rfl hp rfl (h.pendingOk p hp).accepted] at hfault
    cases hfault

/-- Settles O55, by the turn the step takes. -/
theorem noStepFaults : Obligations.NoStepFaults := by
  intro s h
  cases hturns : s.turns with
  | nil =>
    rw [step_nil s hturns]
    exact h.engineStep_noFault
  | cons turn rest =>
    cases turn with
    | host x =>
      rw [step_host s x rest hturns]
      exact hostStep_noFault rfl
    | engine =>
      rw [step_engine s rest hturns]
      exact (h.withUnconstrained s.irqEn s.params s.mover rest s.readData s.draws).engineStep_noFault
    | powerOn =>
      rw [step_powerOn s rest hturns]
      exact fun _ hfault => nomatch hfault

end Sys2Proof.Machine
end

section
/-!
The STATUS write (60_exceptions.md R121): write-one-to-clear, bit by bit.
-/

namespace Sys2Proof.Machine

theorem step_statusWrite {s : State} {rest : List Turn} {x : BitVec 64}
    (hturns : s.turns = .host (.write 4 (regAddr s.config .status) x) :: rest) :
    step s = .next
      { s with turns := rest, mover := .host, status := s.status.writeOneToClear (x.setWidth 32) } :=
  step_writeReg .status hturns rfl

section
variable (st : Status) (x : BitVec 64)

theorem writeOneToClear_done : (st.writeOneToClear (x.setWidth 32)).done = (st.done && !x.getLsbD 1) := by
  rw [Status.writeOneToClear, getLsbD_setWidth_word x 1 (by omega)]

theorem writeOneToClear_err : (st.writeOneToClear (x.setWidth 32)).err = (st.err && !x.getLsbD 2) := by
  rw [Status.writeOneToClear, getLsbD_setWidth_word x 2 (by omega)]

theorem writeOneToClear_drop : (st.writeOneToClear (x.setWidth 32)).drop = (st.drop && !x.getLsbD 3) := by
  rw [Status.writeOneToClear, getLsbD_setWidth_word x 3 (by omega)]

end

/-- Settles O33: the three stored bits by `writeOneToClear`; BUSY is read from the pending command, which stays. -/
theorem statusWriteClearsWrittenOnes : Obligations.StatusWriteClearsWrittenOnes := by
  intro s rest x hturns
  refine ⟨_, step_statusWrite hturns, rfl, ?_⟩
  simp only [writeOneToClear_done, writeOneToClear_err, writeOneToClear_drop]
  refine ⟨?_, ?_, ?_, ?_, ?_, ?_, ?busy⟩
  case busy => exact (statusWord_busy _).trans (statusWord_busy s).symm
  all_goals
    intro hbit
    simp only [hbit, Bool.not_true, Bool.not_false, Bool.and_false, Bool.and_true]

end Sys2Proof.Machine
end

section
/-!
The order of the start checks (60_exceptions.md R112, R114, R116): the checks of a command that has iterations are the
reports of ALIGN, RANGE, the group spacing and the overlap in turn, each but the spacing over the base registers in the
order of their offsets, and the first failing one decides.
-/

namespace Sys2Proof.Machine

/-! ## Reports of properties of the footprint -/

open Classical in
/-- The report of one check of the footprint: its code and its register, where the property holds. -/
noncomputable def reportIf (p : Prop) (code : ErrCode) (r : Reg) : Option Rejection := failIf p code r

/-- The report of the first base register with the property. -/
noncomputable def firstReport (p : Reg → Prop) (code : ErrCode) : Option Rejection :=
  reportIf (p .srcAddr) code .srcAddr <|> reportIf (p .bufAddr) code .bufAddr <|>
    reportIf (p .trigAddr) code .trigAddr <|> reportIf (p .twAddr) code .twAddr

section
variable {p : Prop} {code : ErrCode} {r : Reg}

theorem reportIf_of (h : p) : reportIf p code r = some { code := code, info := regInfo r } := if_pos h

theorem reportIf_of_not (h : ¬ p) : reportIf p code r = none := if_neg h

/-- A check of the model that passes exactly where the property fails reports the property. -/
theorem failIf_eq_reportIf {q : Prop} [Decidable q] (h : failIf q code r = none ↔ ¬ p) :
    failIf q code r = reportIf p code r := by
  by_cases hp : p
  · have hq : q := not_not.mp fun hq => h.mp (if_neg hq) hp
    rw [reportIf_of hp, failIf, if_pos hq]
  · rw [reportIf_of_not hp, h.mpr hp]

end

section
variable {p : Reg → Prop} {code : ErrCode} {r : Reg}

theorem firstReport_eq_none (h : ∀ r ∈ baseRegs, ¬ p r) : firstReport p code = none := by
  obtain ⟨hsrc, hbuf, htrig, htw⟩ := forall_baseRegs.mp h
  rw [firstReport, reportIf_of_not hsrc, reportIf_of_not hbuf, reportIf_of_not htrig, reportIf_of_not htw]
  rfl

theorem firstReport_eq_some (h : FirstBase p r) : firstReport p code = some { code := code, info := regInfo r } := by
  obtain ⟨hmem, hp, hfirst⟩ := h
  obtain ⟨hsrc, hbuf, htrig, _⟩ := forall_baseRegs.mp hfirst
  simp only [baseRegs, List.mem_cons, List.not_mem_nil, or_false] at hmem
  obtain rfl | rfl | rfl | rfl := hmem
  · rw [firstReport, reportIf_of hp]
    rfl
  · rw [firstReport, reportIf_of_not (hsrc (by decide)), reportIf_of hp]
    rfl
  · rw [firstReport, reportIf_of_not (hsrc (by decide)), reportIf_of_not (hbuf (by decide)), reportIf_of hp]
    rfl
  · rw [firstReport, reportIf_of_not (hsrc (by decide)), reportIf_of_not (hbuf (by decide)),
      reportIf_of_not (htrig (by decide)), reportIf_of hp]
    rfl

end

/-! ## The checks as reports -/

section
variable {op : Instr} {c : Config} {P : Params} {r : Reg}

/-- The checks after PARAM and the zero iterations, in their order (60_exceptions.md R112). -/
noncomputable def footprintReport (op : Instr) (c : Config) (P : Params) : Option Rejection :=
  firstReport (Misaligned op P) .align <|> firstReport (OutOfRange op c P) .range <|>
    reportIf (GroupsTooClose op P) .aliased .mm <|> firstReport (OverlapsWrites op P) .aliased

theorem alignCheck_eq_reportIf {base : Word} {unit : Nat} (h : alignCheck r base unit = none ↔ ¬ Misaligned op P r) :
    alignCheck r base unit = reportIf (Misaligned op P r) .align r := failIf_eq_reportIf h

theorem rangeCheck_eq_reportIf {last : Nat} (hlast : HighestByte (regionOf op P r) last) :
    rangeCheck c r last = reportIf (OutOfRange op c P r) .range r :=
  failIf_eq_reportIf (rangeCheck_eq_none_iff hlast)

theorem rangeCheck_block_eq_reportIf {base len : Nat} (hregion : regionOf op P r = [{ base := base, len := len }])
    (hlen : 0 < len) : rangeCheck c r (base + len - 1) = reportIf (OutOfRange op c P r) .range r :=
  rangeCheck_eq_reportIf (hregion ▸ highestByte_singleton hlen)

theorem spacingCheck_eq_reportIf {span : Nat} (hspan : spacedSpan op P = some span) :
    spacingCheck P span = reportIf (GroupsTooClose op P) .aliased .mm :=
  failIf_eq_reportIf (spacingCheck_eq_none_iff hspan)

theorem overlapCheck_eq_reportIf {writes reads : List Block}
    (h : overlapCheck r writes reads = none ↔ ¬ OverlapsWrites op P r) :
    overlapCheck r writes reads = reportIf (OverlapsWrites op P r) .aliased r := failIf_eq_reportIf h

/-! ## What no check reports -/

@[simp] theorem reportIf_misaligned_unread {code : ErrCode} (h : readsBase op r = false) :
    reportIf (Misaligned op P r) code r = none := reportIf_of_not (not_misaligned_of_unread h)

@[simp] theorem reportIf_outOfRange_unread {code : ErrCode} (h : readsBase op r = false) :
    reportIf (OutOfRange op c P r) code r = none := reportIf_of_not (not_outOfRange_of_unread h)

@[simp] theorem reportIf_overlapsWrites_unread {code : ErrCode} (h : readsBase op r = false) :
    reportIf (OverlapsWrites op P r) code r = none := reportIf_of_not (not_overlapsWrites_of_unread h)

@[simp] theorem reportIf_overlapsWrites_bufAddr {code : ErrCode} :
    reportIf (OverlapsWrites op P .bufAddr) code .bufAddr = none := reportIf_of_not not_overlapsWrites_bufAddr

@[simp] theorem reportIf_groupsTooClose_unspaced {code : ErrCode} (h : spacedSpan op P = none) :
    reportIf (GroupsTooClose op P) code r = none := reportIf_of_not (not_groupsTooClose_of_unspaced h)

/-! ## Each command's checks -/

theorem prerotCheck_eq_footprintReport (hn2 : P.n2.toNat = 2 * P.n4.toNat) (hz : zeroIterations .prerot P = false) :
    prerotCheck c P = footprintReport .prerot c P := by
  have hfoot : footprint .prerot P = prerotFootprint P := footprint_of_iterations hz
  have hn4 : P.n4.toNat ≠ 0 := by simpa [zeroIterations, ← BitVec.toNat_inj] using hz
  have hsrc : regionOf .prerot P .srcAddr = (prerotFootprint P).src := by rw [regionOf, hfoot]
  have hbuf : regionOf .prerot P .bufAddr = (prerotFootprint P).buf := by rw [regionOf, hfoot]
  have htrig : regionOf .prerot P .trigAddr = (prerotFootprint P).trig := by rw [regionOf, hfoot]
  rw [prerotCheck, paramCheck_eq_none_iff.mpr hn2, hz, if_neg Bool.false_ne_true, ← hfoot,
    alignCheck_eq_reportIf (alignCheck_srcAddr (op := .prerot) rfl),
    alignCheck_eq_reportIf (alignCheck_bufAddr (op := .prerot)),
    alignCheck_eq_reportIf (alignCheck_trigAddr (op := .prerot) rfl), rangeCheck_block_eq_reportIf hsrc (by omega),
    rangeCheck_block_eq_reportIf hbuf (by omega), rangeCheck_block_eq_reportIf htrig (by omega),
    overlapCheck_eq_reportIf overlapCheck_srcAddr, overlapCheck_eq_reportIf overlapCheck_trigAddr]
  have hunreadTw : readsBase .prerot .twAddr = false := rfl
  have hunspaced : spacedSpan .prerot P = none := rfl
  simp [footprintReport, firstReport, hunreadTw, hunspaced, Option.or_assoc]

theorem postrotCheck_eq_footprintReport (hn2 : P.n2.toNat = 2 * P.n4.toNat)
    (hz : zeroIterations .postrot P = false) : postrotCheck c P = footprintReport .postrot c P := by
  have hfoot : footprint .postrot P = postrotFootprint P := footprint_of_iterations hz
  have hn4 : P.n4.toNat ≠ 0 := by simpa [zeroIterations, ← BitVec.toNat_inj] using hz
  have hbuf : regionOf .postrot P .bufAddr = (postrotFootprint P).buf := by rw [regionOf, hfoot]
  have htrig : regionOf .postrot P .trigAddr = (postrotFootprint P).trig := by rw [regionOf, hfoot]
  rw [postrotCheck, paramCheck_eq_none_iff.mpr hn2, hz, if_neg Bool.false_ne_true, ← hfoot,
    alignCheck_eq_reportIf (alignCheck_bufAddr (op := .postrot)),
    alignCheck_eq_reportIf (alignCheck_trigAddr (op := .postrot) rfl),
    rangeCheck_block_eq_reportIf hbuf (by omega), rangeCheck_block_eq_reportIf htrig (by omega),
    overlapCheck_eq_reportIf overlapCheck_trigAddr]
  have hunreadSrc : readsBase .postrot .srcAddr = false := rfl
  have hunreadTw : readsBase .postrot .twAddr = false := rfl
  have hunspaced : spacedSpan .postrot P = none := rfl
  simp [footprintReport, firstReport, hunreadSrc, hunreadTw, hunspaced, Option.or_assoc]

theorem bfly4m1Check_eq_footprintReport (hz : zeroIterations .bfly4m1 P = false) :
    bfly4m1Check c P = footprintReport .bfly4m1 c P := by
  have hn : P.n.toNat ≠ 0 := by simpa [zeroIterations, ← BitVec.toNat_inj] using hz
  have hbuf : regionOf .bfly4m1 P .bufAddr = (bfly4m1Footprint P).buf := by
    rw [regionOf, footprint_of_iterations hz]
    rfl
  rw [bfly4m1Check, hz, if_neg Bool.false_ne_true, alignCheck_eq_reportIf (alignCheck_bufAddr (op := .bfly4m1)),
    show 32 * P.n.toNat = 8 * (4 * P.n.toNat) by omega, rangeCheck_block_eq_reportIf hbuf (by omega)]
  have hunreadSrc : readsBase .bfly4m1 .srcAddr = false := rfl
  have hunreadTrig : readsBase .bfly4m1 .trigAddr = false := rfl
  have hunreadTw : readsBase .bfly4m1 .twAddr = false := rfl
  have hunspaced : spacedSpan .bfly4m1 P = none := rfl
  simp [footprintReport, firstReport, hunreadSrc, hunreadTrig, hunreadTw, hunspaced]

/-- The six checks of BFLY3, BFLY4 and BFLY5. -/
theorem spacedChecks_eq_footprintReport {span twLast : Nat} (hspan : spacedSpan op P = some span)
    (hz : zeroIterations op P = false) (htw : HighestByte (footprint op P).tw twLast) :
    (alignCheck .bufAddr P.bufAddr 8 <|>
      alignCheck .twAddr P.twAddr 8 <|>
      rangeCheck c .bufAddr (groupsHighest P span) <|>
      rangeCheck c .twAddr twLast <|>
      spacingCheck P span <|>
      overlapCheck .twAddr (footprint op P).buf (footprint op P).tw) = footprintReport op c P := by
  obtain ⟨hn, hpos, hgroups⟩ := spaced_footprint hspan hz
  obtain ⟨hunreadSrc, hunreadTrig, hreadsTw⟩ := spaced_readsBase hspan
  have hbuf : HighestByte (regionOf op P .bufAddr) (groupsHighest P span) := by
    rw [regionOf, hgroups]
    exact highestByte_groupBlocks hn hpos
  have htwRegion : HighestByte (regionOf op P .twAddr) twLast := htw
  rw [alignCheck_eq_reportIf (alignCheck_bufAddr (op := op)), alignCheck_eq_reportIf (alignCheck_twAddr hreadsTw),
    rangeCheck_eq_reportIf hbuf, rangeCheck_eq_reportIf htwRegion, spacingCheck_eq_reportIf hspan,
    overlapCheck_eq_reportIf overlapCheck_twAddr]
  simp [footprintReport, firstReport, hunreadSrc, hunreadTrig, Option.or_assoc]

theorem bfly3Check_eq_footprintReport (hz : zeroIterations .bfly3 P = false) :
    bfly3Check c P = footprintReport .bfly3 c P := by
  have hfoot : footprint .bfly3 P = bfly3Footprint P := footprint_of_iterations hz
  have htw : HighestByte (footprint .bfly3 P).tw (P.twAddr.toNat + 8 * P.fstride.toNat + 7) := by
    rw [hfoot]
    exact highestByte_singleton (by omega)
  rw [bfly3Check, hz, if_neg Bool.false_ne_true, ← hfoot, spacedChecks_eq_footprintReport rfl hz htw]

theorem bfly4Check_eq_footprintReport (hz : zeroIterations .bfly4 P = false) :
    bfly4Check c P = footprintReport .bfly4 c P := by
  have hfoot : footprint .bfly4 P = bfly4Footprint P := footprint_of_iterations hz
  have hm : P.m.toNat ≠ 0 := by
    simp only [zeroIterations, Bool.or_eq_false_iff, beq_eq_false_iff_ne, ne_eq, ← BitVec.toNat_inj] at hz
    exact hz.2
  have htw : HighestByte (footprint .bfly4 P).tw
      (P.twAddr.toNat + 8 * (3 * (P.m.toNat - 1) * P.fstride.toNat) + 7) := by
    rw [hfoot]
    exact highestByte_twiddleBlocks (bfly4TwiddleIndices_isGreatest (by omega))
  rw [bfly4Check, hz, if_neg Bool.false_ne_true, ← hfoot, spacedChecks_eq_footprintReport rfl hz htw]

theorem bfly5Check_eq_footprintReport (hz : zeroIterations .bfly5 P = false) :
    bfly5Check c P = footprintReport .bfly5 c P := by
  have hfoot : footprint .bfly5 P = bfly5Footprint P := footprint_of_iterations hz
  have htw : HighestByte (footprint .bfly5 P).tw (P.twAddr.toNat + 16 * P.fstride.toNat + 7) := by
    rw [hfoot, show 16 * P.fstride.toNat = 8 * (2 * P.fstride.toNat) by omega]
    exact highestByte_twiddleBlocks (bfly5TwiddleIndices_isGreatest _)
  rw [bfly5Check, hz, if_neg Bool.false_ne_true, ← hfoot, spacedChecks_eq_footprintReport rfl hz htw]

/-- After PARAM the checks of a command with iterations are the reports of its footprint, in their order. -/
theorem startCheck_eq_footprintReport (hn2 : isRotation op → P.n2.toNat = 2 * P.n4.toNat)
    (hz : zeroIterations op P = false) : startCheck op c P = footprintReport op c P := by
  cases op with
  | prerot => exact prerotCheck_eq_footprintReport (hn2 (.inl rfl)) hz
  | postrot => exact postrotCheck_eq_footprintReport (hn2 (.inr rfl)) hz
  | bfly3 => exact bfly3Check_eq_footprintReport hz
  | bfly4m1 => exact bfly4m1Check_eq_footprintReport hz
  | bfly4 => exact bfly4Check_eq_footprintReport hz
  | bfly5 => exact bfly5Check_eq_footprintReport hz

/-- PARAM is the first check of a rotation. -/
theorem startCheck_param (hop : isRotation op) (hn2 : P.n2.toNat ≠ 2 * P.n4.toNat) :
    startCheck op c P = some { code := .param, info := regInfo .n2 } := by
  have hparam : paramCheck P = some { code := .param, info := regInfo .n2 } := if_pos hn2
  obtain rfl | rfl := hop
  · rw [startCheck, prerotCheck, hparam]
    rfl
  · rw [startCheck, postrotCheck, hparam]
    rfl

end

/-- Settles O13: after PARAM, `footprintReport` gives its first report that is there. -/
theorem firstFailingCheckDecidesTheReport : Obligations.FirstFailingCheckDecidesTheReport := by
  intro op c P
  refine ⟨startCheck_param, fun hn2 hz => ?_⟩
  rw [startCheck_eq_footprintReport hn2 hz, footprintReport]
  refine ⟨fun r hr => ?_, fun haligned => ?_⟩
  · rw [firstReport_eq_some hr]
    rfl
  rw [firstReport_eq_none haligned]
  refine ⟨fun r hr => ?_, fun hinRange => ?_⟩
  · rw [firstReport_eq_some hr]
    rfl
  rw [firstReport_eq_none hinRange]
  refine ⟨fun hclose => ?_, fun hfar r hr => ?_⟩
  · rw [reportIf_of hclose]
    rfl
  · rw [reportIf_of_not hfar, firstReport_eq_some hr]
    rfl

end Sys2Proof.Machine
end

section
/-!
The two resets as steps (70_reset_and_hazards.md R133, R135): the machine a reset leaves is the one after power-on, but
for the RAM and the model's own fields.
-/

namespace Sys2Proof.Machine

/-! ## Power-on reset -/

/-- Settles O28: the model's reset event is power-on with the next draw. -/
theorem powerOnResetForgetsTheRam : Obligations.PowerOnResetForgetsTheRam := by
  intro s rest hturns
  exact ⟨_, step_powerOn s rest hturns, fun _ => rfl, rfl⟩

/-! ## Soft reset -/

theorem softReset_eq_powerOn (s : State) :
    s.softReset = { State.powerOn s.config 0 with
      mem := s.softReset.mem, turns := s.turns, mover := s.mover, readData := s.readData,
      draws := s.softReset.draws } := by
  cases hp : s.pending with
  | none => rw [softReset_idle s hp]; rfl
  | some p => rw [softReset_busy s p hp]; rfl

theorem softReset_mem_idle (s : State) (hidle : s.pending = none) : s.softReset.mem = s.mem := by
  rw [softReset_idle s hidle, resetRegisters_mem]

theorem byte_softReset_busy (s : State) {p : Pending} (hp : s.pending = some p) (a : Nat) :
    s.softReset.mem.byte a = if inBlocks p.writes a then Config.freeByte s.draws a else s.mem.byte a := by
  rw [softReset_busy s p hp]
  exact byte_scramble ..

theorem step_softReset {s : State} {rest : List Turn} {x : BitVec 64}
    (hturns : s.turns = .host (.write 4 (regAddr s.config .ctrl) x) :: rest) (hbit : x.getLsbD 1 = true) :
    step s = .next ({ s with turns := rest, mover := .host } : State).softReset :=
  step_writeReg .ctrl hturns (congrArg HostAction.moved (writeCtrl_softReset x _ hbit))

/-- Settles O27: the registers by `softReset_eq_powerOn`, the RAM by whether a command was pending. -/
theorem softResetRestoresTheRegisters : Obligations.SoftResetRestoresTheRegisters := by
  intro s rest x hturns hbit
  have hbyte := fun p hp a => byte_softReset_busy { s with turns := rest, mover := .host } (p := p) hp a
  refine ⟨_, step_softReset hturns hbit, softReset_eq_powerOn _, (softReset_registersReset _).irq,
    softReset_mem_idle { s with turns := rest, mover := .host }, fun p hp => ⟨fun a hin => ?_, fun a hout => ?_⟩⟩
  · exact (hbyte p hp a).trans (if_pos hin)
  · exact (hbyte p hp a).trans (if_neg (Bool.eq_false_iff.mp hout))

end Sys2Proof.Machine
end

section
/-!
Bounded progress (60_exceptions.md R119, 70_reset_and_hazards.md R145): every step takes one turn off, and with no turn
left the engine completes what is pending.
-/

namespace Sys2Proof.Machine

/-- Within `n` steps of `s` the machine is not busy, or an ill-formed host access has been refused. -/
def BusyEndsWithin (n : Nat) (s : State) : Prop :=
  ∃ k, k ≤ n ∧
    ((∃ t, Host.Core.run Sys2Proof.core k s = .next t ∧ t.busy = false) ∨
     (∃ r, Host.Core.run Sys2Proof.core k s = .refused r))

section
variable {n : Nat} {s t : State}

theorem busyEndsWithin_of_not_busy (h : s.busy = false) : BusyEndsWithin n s := ⟨0, n.zero_le, .inl ⟨s, rfl, h⟩⟩

theorem busyEndsWithin_of_refused {r : Refusal} (h : step s = .refused r) : BusyEndsWithin (n + 1) s := by
  have hcore : Sys2Proof.core.step s = .refused r := h
  exact ⟨1, by omega, .inr ⟨r, by simp only [Host.Core.run, hcore]⟩⟩

theorem BusyEndsWithin.of_step (h : BusyEndsWithin n t) (hstep : step s = .next t) : BusyEndsWithin (n + 1) s := by
  obtain ⟨k, hk, hrun⟩ := h
  refine ⟨k + 1, by omega, ?_⟩
  rwa [core_run_succ k hstep]

@[simp] theorem complete_pending (p : Pending) (effect : Params → Memory → Memory) (s : State) :
    (s.complete p effect).pending = none := by
  unfold State.complete
  split <;> rfl

/-- The engine's step leaves an idle machine: the pending command of a machine with the invariant is an accepted one. -/
theorem Inv.engineStep_ends (h : Inv s) : ∃ t, engineStep s = .next t ∧ t.busy = false := by
  cases hp : s.pending with
  | none => exact ⟨s, engineStep_idle s hp, not_busy_of_idle hp⟩
  | some p =>
    refine ⟨_, (engineStep_pending s p hp).trans
      (exec_engine_accepted (s := { s with mover := .engine }) rfl hp rfl (h.pendingOk p hp).accepted), ?_⟩
    exact not_busy_of_idle (complete_pending ..)

/-- By induction on the turns to come. The machine may be idle at first: a host that starts a command on its way spends
a turn on it. -/
theorem Inv.busyEndsWithin {turns : List Turn} (h : Inv s) (hturns : s.turns = turns) :
    BusyEndsWithin (turns.length + 1) s := by
  induction turns generalizing s with
  | nil =>
    obtain ⟨t, hengine, hidle⟩ := h.engineStep_ends
    exact (busyEndsWithin_of_not_busy hidle).of_step ((step_nil s hturns).trans hengine)
  | cons turn rest ih =>
    cases hstep : step s with
    | refused r => exact busyEndsWithin_of_refused hstep
    | fault r => exact absurd hstep (noStepFaults s h r)
    | next t =>
      obtain ⟨_, htail⟩ := everyStepTakesOneTurnAndKeepsTheParameters s t hstep
      have hrest : t.turns = rest := htail.trans (congrArg List.tail hturns)
      exact (ih (everyStepKeepsTheInvariant s t h hstep) hrest).of_step hstep

end

/-- Settles O57. -/
theorem pendingCommandEndsInBoundedSteps : Obligations.PendingCommandEndsInBoundedSteps :=
  fun _ h _ => h.busyEndsWithin rfl

end Sys2Proof.Machine
end
